-- ==== Sys2Proof/Word.lean ====
section
/-! DEFINITION. The widths of SGMCORE-128 (rules R11, R21 to R24). -/

namespace Sys2Proof

/-- A byte of memory or a byte lane of a register: a pixel sample, a cost (rules R15, R50). -/
abbrev Byte := BitVec 8

/-- A command word, a scalar register, an address, a descriptor (rules R24, R50, R70, R150). -/
abbrev Word := BitVec 32

/-- A vector register, or one half of a paired-row register (rules R21, R22). -/
abbrev Vec := BitVec 128

/-- A predicate register: bit `k` belongs to lane `k` (rule R23). -/
abbrev Pred := BitVec 16

end Sys2Proof
end

