-- ==== Sys2Proof/Config.lean ====
section
/-! DEFINITION. What is fixed for the machine: the implementation parameters of rule R8, the two
hardwired configuration words of rule R36 computed from them, and the free values, which the spec
leaves open (opaque: nothing can be proved about what they are). -/

namespace Sys2Proof

/-- The Tuning Policy as implementation parameters (rule R8). -/
structure Params where
  lanes : Nat
  featureW : Nat
  featureH : Nat
  hStep : Nat
  vStep : Nat
  hPatch : Nat
  vPatch : Nat
  hBlock : Nat
  vBlock : Nat
  deriving DecidableEq, Repr

/-- The values of SGMCORE-128 (rule R8). -/
def Config.params : Params where
  lanes := 16
  featureW := 9
  featureH := 7
  hStep := 16
  vStep := 2
  hPatch := 24
  vPatch := 8
  hBlock := 32
  vBlock := 32

/-- The revision of the command set, `CFG0.SPEC_REV` (rule R36). -/
def Config.specRev : Nat := 1

/-- `CFG0`: `LANES` in 7:0, `H_STEP` in 15:8, `V_STEP` in 23:16, `SPEC_REV` in 31:24 (rule R36). -/
def Config.cfg0 : Word :=
  BitVec.ofNat 8 Config.specRev ++ BitVec.ofNat 8 Config.params.vStep ++
    BitVec.ofNat 8 Config.params.hStep ++ BitVec.ofNat 8 Config.params.lanes

/-- `CFG1`: `H_PATCH` in 7:0, `V_PATCH` in 15:8, `H_BLOCK` in 23:16, `V_BLOCK` in 31:24 (rule R36). -/
def Config.cfg1 : Word :=
  BitVec.ofNat 8 Config.params.vBlock ++ BitVec.ofNat 8 Config.params.hBlock ++
    BitVec.ofNat 8 Config.params.vPatch ++ BitVec.ofNat 8 Config.params.hPatch

/-- FREE VALUE (U6): which of the invalid addresses of a footprint `ERRADDR` records, reduced modulo
their number by the reader. The argument is the draw. It is used for nothing else (log 7). -/
opaque Config.freeErrAddr : Nat → Nat

/-- FREE VALUE (U4): which of the costs written to one address survives, reduced modulo their number by
the reader. Arguments: the draw and the address. It is used for nothing else (log 11). -/
opaque Config.freePick : Nat → Nat → Nat

/-- FREE VALUE (U2, U5): whether a write of an abandoned or failed command was performed. Arguments:
the draw and the address. -/
opaque Config.performed : Nat → Nat → Bool

/-- FREE VALUE (U3, U4, U5): the byte a destination address holds, or would be given, where the spec
leaves it open: after an engine command whose contract is broken (logs 9, 11), and of a descriptor
whose patch holds an invalid pixel (log 25). Arguments: the draw and the address. -/
opaque Config.freeByte : Nat → Nat → BitVec 8

/-- FREE VALUE (U1, U5): the content of vector register `i`. Arguments: the draw and `i`. -/
opaque Config.freeV : Nat → Nat → BitVec 128

/-- FREE VALUE (U1): the near half of paired-row register `i`. -/
opaque Config.freeNear : Nat → Nat → BitVec 128

/-- FREE VALUE (U1): the far half of paired-row register `i`. -/
opaque Config.freeFar : Nat → Nat → BitVec 128

/-- FREE VALUE (U1): the content of predicate register `i`. -/
opaque Config.freeP : Nat → Nat → BitVec 16

/-- FREE VALUE (U1): the content of scalar register `i`. -/
opaque Config.freeS : Nat → Nat → BitVec 32

end Sys2Proof
end

