-- ==== Sys2Proof/Syntax.lean ====
section
/-! DEFINITION. The sixteen commands (rule R76), one constructor per row of spec/opcode_table.json,
and the uniform cut of a command word into fields (rule R71). Operand types are exactly the ranges of
rule R72, so a term of `Instr` is well formed by its type; the must-be-zero bits of a WORD are checked
in WellFormed.lean and Decode.lean. -/

namespace Sys2Proof

/-- Index of a vector register `V[0..15]` (rule R21). -/
abbrev VReg := Fin 16

/-- Index of a paired-row register `R[0..15]` (rule R22). -/
abbrev RReg := Fin 16

/-- Index of a predicate register `P[0..15]` (rule R23). -/
abbrev PReg := Fin 16

/-- Index of a scalar register `S[0..15]` (rule R24). -/
abbrev SReg := Fin 16

/-- Index `g` of a lane group `G(g) = V[4g .. 4g+3]` (rule R12). -/
abbrev Group := Fin 4

/-- Index `h` of a double lane group `H(h) = V[8h .. 8h+7]` (rule R12). -/
abbrev DoubleGroup := Fin 2

/-- The sixteen commands of rule R76, operands in the order of its `f1 .. f6` columns. -/
inductive Instr where
  /-- `SETLO Sd, imm16` (rule R140). -/
  | setlo (d : SReg) (imm16 : BitVec 16)
  /-- `SETHI Sd, imm16` (rule R141). -/
  | sethi (d : SReg) (imm16 : BitVec 16)
  /-- `VCLR Vd` (rule R142). -/
  | vclr (d : VReg)
  /-- `CLRST` (rule R144). -/
  | clrst
  /-- `LDPR Rd, Sa, Sp` (rule R101). -/
  | ldpr (d : RReg) (a p : SReg)
  /-- `LDV Vd, Sa, Sp, n` (rule R143). -/
  | ldv (d : VReg) (a p : SReg) (n : Fin 16)
  /-- `STD Va, Sd, Sp, n` (rule R116). -/
  | std (a : VReg) (d p : SReg) (n : Fin 16)
  /-- `CMPPR Pd, Ra, Rb` (rule R104). -/
  | cmppr (d : PReg) (a b : RReg)
  /-- `SELB Vd, Va, Pp, b` (rule R107). -/
  | selb (d a : VReg) (p : PReg) (b : Fin 8)
  /-- `TRPR Ra, Rb` (rule R109). -/
  | trpr (a b : RReg)
  /-- `ROLL Rd, Ra, x` (rule R111). -/
  | roll (d a : RReg) (x : Fin 4)
  /-- `ZIP Gg` (rule R114). -/
  | zip (g : Group)
  /-- `PCXOR Vd, Ggl, Hgr, off` (rule R131). -/
  | pcxor (d : VReg) (gl : Group) (gr : DoubleGroup) (off : Fin 32)
  /-- `SHUP Hgr` (rule R133). -/
  | shup (gr : DoubleGroup)
  /-- `EXTRACT Ssrc, Sw, Sh, Ssp, Sdst, Sdp` (rule R152). -/
  | extract (src w h sp dst dp : SReg)
  /-- `AGGR Sd, Sp, Ggl, Hgr, e` (rule R171). -/
  | aggr (d p : SReg) (gl : Group) (gr : DoubleGroup) (e : Bool)
  deriving DecidableEq, Repr

/-- A command word cut as rule R71 cuts every word: `op` in 31:24, then six 4-bit fields. -/
structure Fields where
  op : BitVec 8
  f1 : BitVec 4
  f2 : BitVec 4
  f3 : BitVec 4
  f4 : BitVec 4
  f5 : BitVec 4
  f6 : BitVec 4
  deriving DecidableEq, Repr

end Sys2Proof
end

