-- ==== Sys2Proof/WellFormed.lean ====
section
/-! DEFINITION. What is well formed: a parameter record (rule R9), and a command word cut into fields
(rules R72, R76, R77), said field by field and independently of the masks of Decode.lean. A term of
`Instr` needs no check: its operand types are the ranges of rule R72. -/

namespace Sys2Proof

/-- Rule R9: the clauses a parameter record must meet to be a configuration of SGMCORE at all. -/
def Params.valid (p : Params) : Bool :=
  p.featureW == 9 && p.featureH == 7 &&
  (p.vStep % 2 == 0 && decide (2 ≤ p.vStep)) &&
  p.vPatch == p.vStep + 6 &&
  decide (p.hStep ≤ p.hPatch) && p.hPatch == p.hStep + 8 &&
  decide (p.hPatch ≤ p.hBlock) && decide (p.vPatch ≤ p.vBlock) &&
  p.hBlock % p.hStep == 0 && p.vBlock % p.vStep == 0

/-- A field that holds a lane group index uses its low two bits, the rest zero (rule R72). -/
def Fields.isGroup (f : BitVec 4) : Bool := decide (f.toNat < 4)

/-- A field that holds a double-group index or a flag uses its low bit, the rest zero (rule R72). -/
def Fields.isBit (f : BitVec 4) : Bool := decide (f.toNat < 2)

/-- A bit index uses its low three bits, the rest zero (rule R72). -/
def Fields.isBitIndex (f : BitVec 4) : Bool := decide (f.toNat < 8)

/-- Rules R72, R76, R77: the opcode is assigned, every field the command does not use is zero, and
every narrow field has its remaining high bits zero. -/
def Fields.wellFormed (x : Fields) : Bool :=
  match x.op.toNat with
  | 0x01 => x.f2 == 0                                                          -- SETLO, format I
  | 0x02 => x.f2 == 0                                                          -- SETHI, format I
  | 0x03 => x.f2 == 0 && x.f3 == 0 && x.f4 == 0 && x.f5 == 0 && x.f6 == 0      -- VCLR
  | 0x04 => x.f1 == 0 && x.f2 == 0 && x.f3 == 0 && x.f4 == 0 && x.f5 == 0 && x.f6 == 0  -- CLRST
  | 0x10 => x.f4 == 0 && x.f5 == 0 && x.f6 == 0                                -- LDPR
  | 0x11 => x.f5 == 0 && x.f6 == 0                                             -- LDV
  | 0x12 => x.f5 == 0 && x.f6 == 0                                             -- STD
  | 0x20 => x.f4 == 0 && x.f5 == 0 && x.f6 == 0                                -- CMPPR
  | 0x21 => Fields.isBitIndex x.f4 && x.f5 == 0 && x.f6 == 0                   -- SELB
  | 0x22 => x.f3 == 0 && x.f4 == 0 && x.f5 == 0 && x.f6 == 0                   -- TRPR
  | 0x23 => Fields.isGroup x.f3 && x.f4 == 0 && x.f5 == 0 && x.f6 == 0         -- ROLL, x in 0..3
  | 0x24 => Fields.isGroup x.f1 && x.f2 == 0 && x.f3 == 0 && x.f4 == 0 && x.f5 == 0 && x.f6 == 0  -- ZIP
  | 0x30 => Fields.isGroup x.f2 && Fields.isBit x.f3 && x.f4 == 0 && Fields.isBit x.f5  -- PCXOR, format X
  | 0x31 => Fields.isBit x.f1 && x.f2 == 0 && x.f3 == 0 && x.f4 == 0 && x.f5 == 0 && x.f6 == 0  -- SHUP
  | 0x40 => true                                                               -- EXTRACT
  | 0x41 => Fields.isGroup x.f3 && Fields.isBit x.f4 && Fields.isBit x.f5 && x.f6 == 0  -- AGGR
  | _ => false

end Sys2Proof
end

