-- ==== Sys2Proof/Decode.lean ====
section
/-! DEFINITION. The decoder, by match and mask alone over the opcode table of rule R76 (rule R74), and
the encoder, by placing operands in the fields of rule R71 (rules R72, R76). -/

namespace Sys2Proof

/-- The cut of rule R71. -/
def Fields.cut (w : Word) : Fields where
  op := w.extractLsb' 24 8
  f1 := w.extractLsb' 20 4
  f2 := w.extractLsb' 16 4
  f3 := w.extractLsb' 12 4
  f4 := w.extractLsb' 8 4
  f5 := w.extractLsb' 4 4
  f6 := w.extractLsb' 0 4

/-- The word whose cut is `x` (rule R71). -/
def Fields.word (x : Fields) : Word :=
  BitVec.ofNat 32 (x.op.toNat * 2 ^ 24 + x.f1.toNat * 2 ^ 20 + x.f2.toNat * 2 ^ 16 +
    x.f3.toNat * 2 ^ 12 + x.f4.toNat * 2 ^ 8 + x.f5.toNat * 2 ^ 4 + x.f6.toNat)

/-- An unsigned operand of `m` values (a power of two) whose low bit is word bit `lo` (rule R73). -/
def operandAt (m : Nat) [NeZero m] (lo : Nat) (w : Word) : Fin m :=
  Fin.ofNat m (w.toNat >>> lo)

/-- One row of the opcode table: a word `w` is this command iff `w AND mask = pattern` (rule R74). -/
structure Row where
  mnemonic : String
  mask : Word
  pattern : Word
  read : Word → Instr

/-- Rule R74: the test of one row. -/
def Row.accepts (r : Row) (w : Word) : Bool := w &&& r.mask == r.pattern

/-- The opcode table (rule R76), in its order. -/
def opcodeTable : List Row :=
  [ { mnemonic := "SETLO", mask := 0xFF0F0000#32, pattern := 0x01000000#32,
      read := fun w => .setlo (operandAt 16 20 w) (w.extractLsb' 0 16) },
    { mnemonic := "SETHI", mask := 0xFF0F0000#32, pattern := 0x02000000#32,
      read := fun w => .sethi (operandAt 16 20 w) (w.extractLsb' 0 16) },
    { mnemonic := "VCLR", mask := 0xFF0FFFFF#32, pattern := 0x03000000#32,
      read := fun w => .vclr (operandAt 16 20 w) },
    { mnemonic := "CLRST", mask := 0xFFFFFFFF#32, pattern := 0x04000000#32,
      read := fun _ => .clrst },
    { mnemonic := "LDPR", mask := 0xFF000FFF#32, pattern := 0x10000000#32,
      read := fun w => .ldpr (operandAt 16 20 w) (operandAt 16 16 w) (operandAt 16 12 w) },
    { mnemonic := "LDV", mask := 0xFF0000FF#32, pattern := 0x11000000#32,
      read := fun w => .ldv (operandAt 16 20 w) (operandAt 16 16 w) (operandAt 16 12 w) (operandAt 16 8 w) },
    { mnemonic := "STD", mask := 0xFF0000FF#32, pattern := 0x12000000#32,
      read := fun w => .std (operandAt 16 20 w) (operandAt 16 16 w) (operandAt 16 12 w) (operandAt 16 8 w) },
    { mnemonic := "CMPPR", mask := 0xFF000FFF#32, pattern := 0x20000000#32,
      read := fun w => .cmppr (operandAt 16 20 w) (operandAt 16 16 w) (operandAt 16 12 w) },
    { mnemonic := "SELB", mask := 0xFF0008FF#32, pattern := 0x21000000#32,
      read := fun w => .selb (operandAt 16 20 w) (operandAt 16 16 w) (operandAt 16 12 w) (operandAt 8 8 w) },
    { mnemonic := "TRPR", mask := 0xFF00FFFF#32, pattern := 0x22000000#32,
      read := fun w => .trpr (operandAt 16 20 w) (operandAt 16 16 w) },
    { mnemonic := "ROLL", mask := 0xFF00CFFF#32, pattern := 0x23000000#32,
      read := fun w => .roll (operandAt 16 20 w) (operandAt 16 16 w) (operandAt 4 12 w) },
    { mnemonic := "ZIP", mask := 0xFFCFFFFF#32, pattern := 0x24000000#32,
      read := fun w => .zip (operandAt 4 20 w) },
    { mnemonic := "PCXOR", mask := 0xFF0CEFE0#32, pattern := 0x30000000#32,
      read := fun w => .pcxor (operandAt 16 20 w) (operandAt 4 16 w) (operandAt 2 12 w) (operandAt 32 0 w) },
    { mnemonic := "SHUP", mask := 0xFFEFFFFF#32, pattern := 0x31000000#32,
      read := fun w => .shup (operandAt 2 20 w) },
    { mnemonic := "EXTRACT", mask := 0xFF000000#32, pattern := 0x40000000#32,
      read := fun w => .extract (operandAt 16 20 w) (operandAt 16 16 w) (operandAt 16 12 w)
        (operandAt 16 8 w) (operandAt 16 4 w) (operandAt 16 0 w) },
    { mnemonic := "AGGR", mask := 0xFF00CEEF#32, pattern := 0x41000000#32,
      read := fun w => .aggr (operandAt 16 20 w) (operandAt 16 16 w) (operandAt 4 12 w) (operandAt 2 8 w)
        (w.getLsbD 4) } ]

/-- Rules R74, R77: the command a word is, or `none` for an illegal command. Total on all words. -/
def decode (w : Word) : Option Instr :=
  (opcodeTable.find? fun r => r.accepts w).map fun r => r.read w

/-- A 4-bit field holding a small unsigned number (rules R72, R73). -/
def nibble (n : Nat) : BitVec 4 := BitVec.ofNat 4 n

/-- Rules R72, R76: the fields of a command; a field the command does not use is zero. -/
def Instr.fields : Instr → Fields
  | .setlo d imm16 => ⟨0x01, nibble d, 0, imm16.extractLsb' 12 4, imm16.extractLsb' 8 4, imm16.extractLsb' 4 4, imm16.extractLsb' 0 4⟩
  | .sethi d imm16 => ⟨0x02, nibble d, 0, imm16.extractLsb' 12 4, imm16.extractLsb' 8 4, imm16.extractLsb' 4 4, imm16.extractLsb' 0 4⟩
  | .vclr d => ⟨0x03, nibble d, 0, 0, 0, 0, 0⟩
  | .clrst => ⟨0x04, 0, 0, 0, 0, 0, 0⟩
  | .ldpr d a p => ⟨0x10, nibble d, nibble a, nibble p, 0, 0, 0⟩
  | .ldv d a p n => ⟨0x11, nibble d, nibble a, nibble p, nibble n, 0, 0⟩
  | .std a d p n => ⟨0x12, nibble a, nibble d, nibble p, nibble n, 0, 0⟩
  | .cmppr d a b => ⟨0x20, nibble d, nibble a, nibble b, 0, 0, 0⟩
  | .selb d a p b => ⟨0x21, nibble d, nibble a, nibble p, nibble b, 0, 0⟩
  | .trpr a b => ⟨0x22, nibble a, nibble b, 0, 0, 0, 0⟩
  | .roll d a x => ⟨0x23, nibble d, nibble a, nibble x, 0, 0, 0⟩
  | .zip g => ⟨0x24, nibble g, 0, 0, 0, 0, 0⟩
  | .pcxor d gl gr off => ⟨0x30, nibble d, nibble gl, nibble gr, 0, nibble (off.val / 16), nibble off⟩
  | .shup gr => ⟨0x31, nibble gr, 0, 0, 0, 0, 0⟩
  | .extract src w h sp dst dp => ⟨0x40, nibble src, nibble w, nibble h, nibble sp, nibble dst, nibble dp⟩
  | .aggr d p gl gr e => ⟨0x41, nibble d, nibble p, nibble gl, nibble gr, nibble e.toNat, 0⟩

/-- The word of a command (rules R71, R72, R76). Every bit is either an operand bit or fixed by the
row's mask, so a legal word is the encoding of the command it decodes to (log 15). -/
def encode (i : Instr) : Word := i.fields.word

/-- The instruction the decoder reads from a word given as a number of at most `nbits` bits (every
command has 32; a wider row does not exist). -/
def decodeTableWord (nbits w : Nat) : Option Instr :=
  if nbits ≤ 32 then decode (BitVec.ofNat 32 (w % 2 ^ nbits)) else none

end Sys2Proof
end

