-- ==== Sys2Proof/Machine/State.lean ====
section
/-! DEFINITION. The state of SGMCORE-128 as plain data (rule R20), with the memory it reaches (rule
R50), the platform's backed regions (rule R55) and what the host is going to do (rules R4, R28), and
the state after reset (rule R201). -/

namespace Sys2Proof.Machine

/-- A paired-row register: the near half (bits 127:0) and the far half (bits 255:128) (rule R22). -/
structure PairedRow where
  lo : Vec
  hi : Vec
  deriving DecidableEq, Repr

/-- The stored bits of `STATUS`; `HALT` is derived and bits 31:4 read as zero (rule R32). -/
structure Status where
  /-- Bit 0: an undersized image was given to EXTRACT. -/
  ts : Bool
  /-- Bit 1: an illegal command word was presented. -/
  ill : Bool
  /-- Bit 2: a memory access was refused by the platform. -/
  merr : Bool
  deriving DecidableEq, Repr

/-- Memory: listed bytes by address, strictly rising, none equal to what an unlisted byte reads as. -/
abbrev Memory := List Host.Cell

/-- A run of byte addresses the platform backs with ordinary memory (rule R55). -/
structure Region where
  base : Nat
  size : Nat
  deriving DecidableEq, Repr

/-- What the host does at the block's interfaces, one event after another (rules R4, R58, R60, R200). -/
inductive HostEvent where
  /-- The host delivers a command word at the command port (rule R70). -/
  | command (w : Word)
  /-- The reset input is asserted and released between two commands (rule R200). -/
  | reset
  /-- The host delivers `w`, and reset is asserted and released while it executes (rule R200). -/
  | resetDuring (w : Word)
  /-- The host writes a byte of memory between two commands (rule R60). -/
  | hostWrite (a : Word) (b : Byte)
  deriving DecidableEq, Repr

/-- The two halting errors (rule R180). -/
inductive HaltingError where
  /-- Code 1: the word matches no row of the opcode table (rule R181). -/
  | illegalCommand
  /-- Code 2: the footprint of the command holds an invalid address; `a` is the one recorded (rule R182). -/
  | memError (a : Word)
  deriving DecidableEq, Repr

/-- Everything the spec gives the machine (rule R20), and the model's own `port`, `backed` and
`freeCount` (logs 1, 6, 17). -/
structure State where
  /-- The vector file `V[0..15]` (rule R21). -/
  vreg : Vector Vec 16
  /-- The paired-row file `R[0..15]` (rule R22). -/
  rreg : Vector PairedRow 16
  /-- The predicate file `P[0..15]` (rule R23). -/
  preg : Vector Pred 16
  /-- The scalar file `S[0..15]` (rule R24). -/
  sreg : Vector Word 16
  /-- `STATUS` (rule R32). -/
  status : Status
  /-- `ERRWORD` (rule R33). -/
  errWord : Word
  /-- `ERRADDR` (rule R34). -/
  errAddr : Word
  /-- `CMDCNT` (rule R35). -/
  cmdCnt : Word
  /-- The memory behind the memory port (rule R50). -/
  mem : Memory
  /-- The platform's `mem_valid`, as the regions it backs; fixed for the whole run (rule R55, U9). -/
  backed : List Region
  /-- What the host is going to do, oldest first (rules R28, R37; log 1). -/
  port : List HostEvent
  /-- The next draw of a free value (log 17). -/
  freeCount : Nat
  deriving DecidableEq, Repr

/-- Reasons for which the machine stops with a fault. There are none: every condition the spec gives
is recorded in the control registers and the block goes on, halted or not (rules R180 to R184), so no
step answers a fault. -/
inductive Fault where
  deriving DecidableEq, Repr

/-- Reasons for which a step has no meaning. -/
inductive Refusal where
  /-- Raised by an arm of `exec` for an instruction that has no meaning yet: safe, it stops the run.
  No arm raises it: all sixteen commands are modelled. -/
  | notModelled (mnemonic : String)
  deriving DecidableEq, Repr

/-- The outcome of a step or of a command. -/
abbrev Outcome := Host.Outcome State Fault Refusal

/-- The machine right after reset (rule R201): the control registers are zero. The data registers are
unspecified by the spec; 0 is a DESIGN CHOICE (log 3, unsafe), and so are the empty memory (log 5) and
the platform that backs the whole address space (log 6). -/
def State.reset : State where
  vreg := Vector.replicate 16 0
  rreg := Vector.replicate 16 ⟨0, 0⟩
  preg := Vector.replicate 16 0
  sreg := Vector.replicate 16 0
  status := ⟨false, false, false⟩
  errWord := 0
  errAddr := 0
  cmdCnt := 0
  mem := []
  backed := [⟨0, 2 ^ 32⟩]
  port := []
  freeCount := 0

end Sys2Proof.Machine
end

