-- ==== Sys2Proof/Machine/Lanes.lean ====
section
/-! DEFINITION. Bit and lane views of a value, and values put together from lanes (rules R11 to R13,
R54): lane 0 is least significant. -/

namespace Sys2Proof.Machine

/-- Lanes of `w` bits, lane 0 first, as one number, lane 0 least significant (rule R11). -/
def packLanes (w : Nat) : List (BitVec w) → Nat
  | [] => 0
  | x :: xs => x.toNat + 2 ^ w * packLanes w xs

/-- The `out`-bit value whose lane `k` of `w` bits is `f k`, `k < n`. -/
def ofLanes (w n out : Nat) (f : Nat → BitVec w) : BitVec out :=
  BitVec.ofNat out (packLanes w ((List.range n).map f))

/-- The vector register whose byte lane `k` is `f k` (rule R12, the `x1` view). -/
def ofBytes (f : Nat → Byte) : Vec := ofLanes 8 16 128 f

/-- The vector register whose word lane `j` is `f j` (rule R12, the `w4` view). -/
def ofWords (f : Nat → Word) : Vec := ofLanes 32 4 128 f

/-- The `n`-bit value whose bit `k` is `f k`. -/
def ofBits (n : Nat) (f : Nat → Bool) : BitVec n := ofLanes 1 n n fun k => BitVec.ofBool (f k)

/-- `V.b[k] = V[8k+7:8k]` (rule R12). -/
def byteLane (v : Vec) (k : Nat) : Byte := v.extractLsb' (8 * k) 8

/-- `V.w[j] = V[32j+31:32j]` (rule R12). -/
def wordLane (v : Vec) (j : Nat) : Word := v.extractLsb' (32 * j) 32

/-- Byte `t` of a descriptor, bits `8t+7:8t`, the byte that lies at address `a + t` (rule R54). -/
def wordByte (d : Word) (t : Nat) : Byte := d.extractLsb' (8 * t) 8

/-- `ltu8`: strictly less, on unsigned 8-bit values (rule R13). -/
def ltu8 (a b : Byte) : Bool := a.ult b

/-- `popcount32`: the number of 1 bits of a word, 0 to 32 (rule R13). -/
def popcount32 (w : Word) : Nat := (List.range 32).countP fun k => w.getLsbD k

end Sys2Proof.Machine
end

