-- ==== Sys2Proof/Machine/Flags.lean ====
section
/-! DEFINITION. `STATUS`: its word, the derived `HALT`, and the two changes a completed command can
make to it (rules R27, R32, R153, R144). -/

namespace Sys2Proof.Machine

/-- `HALT`, bit 3: always `ILL OR MERR`, not separately stored (rule R32). -/
def Status.halt (t : Status) : Bool := t.ill || t.merr

/-- `STATUS` as the host reads it: `TS`, `ILL`, `MERR`, `HALT` in bits 0 to 3, bits 31:4 zero (rule R32). -/
def Status.word (t : Status) : Word :=
  ofBits 32 fun k => [t.ts, t.ill, t.merr, t.halt].getD k false

/-- The block is halted exactly when `STATUS.HALT = 1` (rule R184). -/
def State.halted (s : State) : Bool := s.status.halt

/-- `STATUS.TS <- 1`: EXTRACT was given an undersized image (rule R153). -/
def State.setTooSmall (s : State) : State := { s with status := { s.status with ts := true } }

/-- `STATUS.TS <- 0`: nothing else of `STATUS` changes (rule R144). -/
def State.clearTooSmall (s : State) : State := { s with status := { s.status with ts := false } }

end Sys2Proof.Machine
end

