-- ==== Sys2Proof/Machine/Ops.lean ====
section
/-! DEFINITION. The named operations over memory and registers, the completion of a command, raising a
halting error, and the return from the halted state, which is reset. -/

namespace Sys2Proof.Machine

/-! ### Memory as a canonical list of cells (rules R50 to R52) -/

/-- What a byte of memory reads as that nothing has written: DESIGN CHOICE (log 5, unsafe). -/
def unlistedByte : Byte := 0

/-- The byte at an address. -/
def Memory.read : Memory → Nat → Byte
  | [], _ => unlistedByte
  | (x, b) :: m, a => if x = a then b else Memory.read m a

/-- The list without any entry for an address. -/
def Memory.erase (m : Memory) (a : Nat) : Memory := m.filter fun c => c.1 != a

/-- The list with an entry put before the first entry of a greater address. -/
def Memory.insert (a : Nat) (b : Byte) : Memory → Memory
  | [] => [(a, b)]
  | (x, y) :: m => if a < x then (a, b) :: (x, y) :: m else (x, y) :: Memory.insert a b m

/-- Write one byte; writing what an unlisted byte reads as removes the entry. -/
def Memory.write (m : Memory) (a : Nat) (b : Byte) : Memory :=
  if b = unlistedByte then m.erase a else Memory.insert a b (m.erase a)

/-- Write a list of cells, first to last. -/
def Memory.writeAll (m : Memory) (cells : List Host.Cell) : Memory :=
  cells.foldl (fun m c => m.write c.1 c.2) m

/-- The canonical form: addresses strictly rising and inside the address space, no entry equal to
what an unlisted byte reads as. -/
def Memory.wf (m : Memory) : Bool :=
  decide (m.Pairwise fun c d => c.1 < d.1) &&
    m.all fun c => decide (c.1 < 2 ^ 32) && c.2 != unlistedByte

/-! ### Addresses and the platform (rules R53, R55) -/

/-- The address `k` bytes above `a`, modulo 2^32 (rules R51, R53). -/
def byteAddr (a : Word) (k : Nat) : Nat := (a + BitVec.ofNat 32 k).toNat

/-- The addresses of an access of `n` bytes at `a`, lowest `k` first (rules R51, R52). -/
def span (a : Word) (n : Nat) : List Nat := (List.range n).map (byteAddr a)

/-- The addresses a region holds. -/
def Region.covers (g : Region) (a : Nat) : Bool := decide (g.base ≤ a) && decide (a < g.base + g.size)

/-- `mem_valid(a)`: the platform backs address `a` with ordinary memory (rule R55). -/
def State.memValid (s : State) (a : Nat) : Bool :=
  decide (a < 2 ^ 32) && s.backed.any fun g => g.covers a

/-- The invalid addresses of a footprint (rule R56). -/
def State.invalid (s : State) (footprint : List Nat) : List Nat :=
  footprint.filter fun a => !s.memValid a

/-! ### Registers -/

/-- Read `V[i]` (rule R21). -/
def State.readV (s : State) (i : VReg) : Vec := s.vreg[i]

/-- Read `R[i]` (rule R22). -/
def State.readR (s : State) (i : RReg) : PairedRow := s.rreg[i]

/-- Read `P[i]` (rule R23). -/
def State.readP (s : State) (i : PReg) : Pred := s.preg[i]

/-- Read `S[i]` (rule R24). -/
def State.readS (s : State) (i : SReg) : Word := s.sreg[i]

/-- Write `V[i]` (rule R21). -/
def State.writeV (s : State) (i : VReg) (x : Vec) : State := { s with vreg := s.vreg.set i x }

/-- Write `R[i]` (rule R22). -/
def State.writeR (s : State) (i : RReg) (x : PairedRow) : State := { s with rreg := s.rreg.set i x }

/-- Write `P[i]` (rule R23). -/
def State.writeP (s : State) (i : PReg) (x : Pred) : State := { s with preg := s.preg.set i x }

/-- Write `S[i]` (rule R24). -/
def State.writeS (s : State) (i : SReg) (x : Word) : State := { s with sreg := s.sreg.set i x }

/-- Write the vector file at once: every right side is read before any register changes (rule R12). -/
def State.writeAllV (s : State) (f : VReg → Vec) : State := { s with vreg := Vector.ofFn f }

/-! ### Memory port -/

/-- The byte at an address as a value, modulo 2^32 by its type (rule R51). -/
def State.readByte (s : State) (a : Word) : Byte := s.mem.read a.toNat

/-- `MemRead(a, 16)` as a 128-bit value: the byte at `a + k` is byte lane `k` (rules R13, R51, R54). -/
def State.read16 (s : State) (a : Word) : Vec :=
  ofBytes fun k => s.readByte (a + BitVec.ofNat 32 k)

/-- The cells `MemWrite(a, 16, v)` writes: byte lane `k` to `a + k` (rules R13, R52, R54). -/
def cells16 (a : Word) (v : Vec) : List Host.Cell :=
  (List.range 16).map fun k => (byteAddr a k, byteLane v k)

/-- Write cells to memory (rule R52). -/
def State.store (s : State) (cells : List Host.Cell) : State :=
  { s with mem := s.mem.writeAll cells }

/-- Write an open subset of the cells whose address is valid (U2, U5; logs 8, 13). -/
def State.storeSome (s : State) (cells : List Host.Cell) : State :=
  s.store (cells.filter fun c => s.memValid c.1 && Config.performed s.freeCount c.1)

/-! ### Completion, errors, reset -/

/-- The last effect of every completed command: `CMDCNT + 1`, modulo 2^32 (rule R35). -/
def State.complete (s : State) : State := { s with cmdCnt := s.cmdCnt + 1 }

/-- Take a fresh index for the next free value (log 17). -/
def State.fresh (s : State) : State := { s with freeCount := s.freeCount + 1 }

/-- `raise`: the effects of a halting error on the control registers (rules R181, R182, R183). `w` is the
command word. `ERRWORD` and `ERRADDR` describe the first halting error only (rules R33, R188). -/
def State.raise (s : State) (e : HaltingError) (w : Word) : State :=
  match e with
  | .illegalCommand =>
    { s with
      status := { s.status with ill := true }
      errWord := if s.halted then s.errWord else w }
  | .memError a =>
    { s with
      status := { s.status with merr := true }
      errWord := if s.halted then s.errWord else w
      errAddr := if s.halted then s.errAddr else a }

/-- The way back from the halted state, and from any other: the reset state of rule R201. The control
registers are zero, the data registers hold free values, memory is untouched (log 4). -/
def State.afterReset (s : State) : State :=
  { s with
    vreg := Vector.ofFn fun i => Config.freeV s.freeCount i.val
    rreg := Vector.ofFn fun i => ⟨Config.freeNear s.freeCount i.val, Config.freeFar s.freeCount i.val⟩
    preg := Vector.ofFn fun i => Config.freeP s.freeCount i.val
    sreg := Vector.ofFn fun i => Config.freeS s.freeCount i.val
    status := ⟨false, false, false⟩
    errWord := 0
    errAddr := 0
    cmdCnt := 0
    freeCount := s.freeCount + 1 }

/-- The address `ERRADDR` records: one of the invalid addresses, and which one is a free value of its
own (rule R34, U6, log 7). -/
def State.errorAddr (s : State) (bad : List Nat) : Word :=
  BitVec.ofNat 32 (bad.getD (Config.freeErrAddr s.freeCount % bad.length) 0)

/-- A command with a precise `MemError`: with the whole footprint valid it completes in `done`;
otherwise nothing changes but the error's record (rules R56, R182). -/
def State.precise (s : State) (w : Word) (footprint : List Nat) (done : State) : Outcome :=
  match s.invalid footprint with
  | [] => .next done.complete
  | bad => .next (s.raise (.memError (s.errorAddr bad)) w).fresh

/-- A command with an imprecise `MemError`: with the whole footprint valid all its cells are written
and `done` is applied; otherwise an open subset of the cells with valid addresses is written and
`spoilt` is applied (rules R56, R182, U5, log 8). -/
def State.imprecise (s : State) (w : Word) (footprint : List Nat) (cells : List Host.Cell)
    (done spoilt : State → State) : Outcome :=
  match s.invalid footprint with
  | [] => .next (done (s.store cells)).complete
  | bad => .next ((spoilt (s.storeSome cells)).raise (.memError (s.errorAddr bad)) w).fresh

/-! ### Control read-back port -/

/-- A read on the control read-back port: the register of that index, 0 from index 6 on; no side
effect (rules R30, R31). -/
def State.readControl (s : State) (index : Nat) : Word :=
  match index with
  | 0 => s.status.word
  | 1 => s.errWord
  | 2 => s.errAddr
  | 3 => s.cmdCnt
  | 4 => Config.cfg0
  | 5 => Config.cfg1
  | _ => 0

end Sys2Proof.Machine
end

