-- ==== Sys2Proof/Machine/Operands.lean ====
section
/-! DEFINITION. Operand forms: effective addresses (rule R53), lane groups and double lane groups (rule
R12), and the rotation of a double lane group (rules R133, R174). -/

namespace Sys2Proof.Machine

/-- `S[a] + n * S[p]` modulo 2^32: the row address of LDV, STD and AGGR (rules R53, R116, R143, R171). -/
def State.rowAddr (s : State) (a p : SReg) (n : Nat) : Word :=
  s.readS a + BitVec.ofNat 32 n * s.readS p

/-- The register `V[4g + m]` of lane group `G(g)`, `m < 4` (rule R12). -/
def groupReg (g : Group) (m : Nat) : VReg := Fin.ofNat 16 (4 * g.val + m)

/-- The register `V[8h + k]` of double lane group `H(h)`, `k < 8` (rule R12). -/
def doubleReg (h : DoubleGroup) (k : Nat) : VReg := Fin.ofNat 16 (8 * h.val + k)

/-- `G(g).w[i] = V[4g + i div 4].w[i mod 4]`, `i < 16` (rule R12). -/
def State.groupLane (s : State) (g : Group) (i : Nat) : Word :=
  wordLane (s.readV (groupReg g (i / 4))) (i % 4)

/-- `H(h).w[j] = V[8h + j div 4].w[j mod 4]`, `j < 32` (rule R12). -/
def State.doubleLane (s : State) (h : DoubleGroup) (j : Nat) : Word :=
  wordLane (s.readV (doubleReg h (j / 4))) (j % 4)

/-- The register `V[i]` lies in the double lane group `H(h)` (rule R12). -/
def inDouble (h : DoubleGroup) (i : VReg) : Bool := i.val / 8 == h.val

/-- The register `V[i]` lies in the lane group `G(g)` (rule R12). -/
def inGroup (g : Group) (i : VReg) : Bool := i.val / 4 == g.val

/-- Rotate the 32 lanes of `H(h)` up by `k` lanes, `k ≤ 32`: `H(h).w[(j + k) mod 32] <- old H(h).w[j]`
(rules R133, R171, R174). -/
def State.rotateUp (s : State) (h : DoubleGroup) (k : Nat) : State :=
  s.writeAllV fun i =>
    if inDouble h i then ofWords fun c => s.doubleLane h ((4 * (i.val % 8) + c + 32 - k) % 32)
    else s.readV i

/-- The registers of `H(h)` become unspecified (rule R182, U5, log 8). -/
def State.spoilDouble (s : State) (h : DoubleGroup) : State :=
  s.writeAllV fun i => if inDouble h i then Config.freeV s.freeCount i.val else s.readV i

end Sys2Proof.Machine
end

