-- ==== Sys2Proof/Machine/Aggr.lean ====
section
/-! DEFINITION. The cost aggregation engine AGGR (rules R170 to R177): cost patch, contract, footprint,
and the command. -/

namespace Sys2Proof.Machine

/-- Entry `[dsp][px]` of the cost patch: 0 where the edge mask is on and `px < dsp`, else the
population count of `left[px] XOR right[px + 16 - dsp]` (rules R171, R172, R175). -/
def State.cost (s : State) (gl : Group) (gr : DoubleGroup) (e : Bool) (dsp px : Nat) : Byte :=
  if e && decide (px < dsp) then 0
  else BitVec.ofNat 8 (popcount32 (s.groupLane gl px ^^^ s.doubleLane gr (px + 16 - dsp)))

/-- The entries of the patch, `(dsp, px)`, rows first (rule R171). -/
def patchEntries : List (Nat × Nat) :=
  (List.range 16).flatMap fun dsp => (List.range 16).map fun px => (dsp, px)

/-- The address of entry `[dsp][px]`: `S[d] + dsp * S[p] + px` modulo 2^32 (rules R53, R171, R172). -/
def State.entryAddr (s : State) (d p : SReg) (dsp px : Nat) : Nat :=
  byteAddr (s.rowAddr d p dsp) px

/-- The 256 addresses AGGR writes (rules R56, R171). -/
def State.aggrFootprint (s : State) (d p : SReg) : List Nat :=
  patchEntries.map fun o => s.entryAddr d p o.1 o.2

/-- No destination row passes address 2^32; the row's start is taken modulo 2^32 (rules R53, R173, log 12). -/
def State.rowsInside (s : State) (d p : SReg) : Bool :=
  (List.range 16).all fun dsp => decide ((s.rowAddr d p dsp).toNat + 16 ≤ 2 ^ 32)

/-- The sixteen destination rows are pairwise disjoint (rule R173). -/
def State.rowsDisjoint (s : State) (d p : SReg) : Bool :=
  (List.range 16).all fun i => (List.range i).all fun k =>
    let x := (s.rowAddr d p i).toNat
    let y := (s.rowAddr d p k).toNat
    decide (x + 16 ≤ y) || decide (y + 16 ≤ x)

/-- The contract of rule R173. -/
def State.aggrContract (s : State) (d p : SReg) : Bool := s.rowsInside d p && s.rowsDisjoint d p

/-- The cells of the patch (rule R171). -/
def State.patchCells (s : State) (d p : SReg) (gl : Group) (gr : DoubleGroup) (e : Bool) :
    List Host.Cell :=
  patchEntries.map fun o => (s.entryAddr d p o.1 o.2, s.cost gl gr e o.1 o.2)

/-- The costs written to one address when rows overlap: which one survives is open (U4). -/
def State.rivalCosts (s : State) (d p : SReg) (gl : Group) (gr : DoubleGroup) (e : Bool) (a : Nat) :
    List Byte :=
  ((s.patchCells d p gl gr e).filter fun c => c.1 == a).map Prod.snd

/-- Outside the contract (U4, log 11): when no row passes 2^32, each byte holds one of the costs
written to it, and which one is a free value of its own, apart from the choice of `ERRADDR` (log 7);
when a row passes 2^32, the bytes are open. -/
def State.openPatchCells (s : State) (d p : SReg) (gl : Group) (gr : DoubleGroup) (e : Bool) :
    List Host.Cell :=
  (s.aggrFootprint d p).map fun a =>
    let rivals := s.rivalCosts d p gl gr e a
    (a, if s.rowsInside d p then rivals.getD (Config.freePick s.freeCount a % rivals.length) 0
        else Config.freeByte s.freeCount a)

/-- All the memory writes of one AGGR; a command that does not complete makes an open subset of those
with valid addresses (rules R182, R200). -/
def State.aggrCells (s : State) (d p : SReg) (gl : Group) (gr : DoubleGroup) (e : Bool) :
    List Host.Cell :=
  if s.aggrContract d p then s.patchCells d p gl gr e else s.openPatchCells d p gl gr e

/-- AGGR: the 16 by 16 cost patch goes to memory and `H(gr)` is left rotated up by four lanes; the
costs are computed from the registers before the rotation (rules R171 to R175). -/
def execAggr (d p : SReg) (gl : Group) (gr : DoubleGroup) (e : Bool) (s : State) : Outcome :=
  s.imprecise (encode (.aggr d p gl gr e)) (s.aggrFootprint d p) (s.aggrCells d p gl gr e)
    (fun t => if s.aggrContract d p then t.rotateUp gr 4 else (t.rotateUp gr 4).fresh)
    (fun t => t.spoilDouble gr)

end Sys2Proof.Machine
end

