-- ==== Sys2Proof/Machine/Aggregation.lean ====
section
/-! DEFINITION. The aggregation lane operations PCXOR and SHUP (rules R131, R133). They touch no memory
and no flag and raise no error (rule R130). -/

namespace Sys2Proof.Machine

/-- Rule R131: lane `i` is the population count of `G(gl).w[i] XOR H(gr).w[(i + off) mod 32]`, over all 32
bits. -/
def State.xorCounts (s : State) (gl : Group) (gr : DoubleGroup) (off : Nat) : Vec :=
  ofBytes fun i =>
    BitVec.ofNat 8 (popcount32 (s.groupLane gl i ^^^ s.doubleLane gr ((i + off) % 32)))

/-- PCXOR (rule R131). -/
def execPcxor (d : VReg) (gl : Group) (gr : DoubleGroup) (off : Fin 32) (s : State) : Outcome :=
  .next (s.writeV d (s.xorCounts gl gr off.val)).complete

/-- SHUP: every lane of `H(gr)` moves to the next higher one, lane 31 to lane 0 (rule R133). -/
def execShup (gr : DoubleGroup) (s : State) : Outcome :=
  .next (s.rotateUp gr 1).complete

end Sys2Proof.Machine
end

