-- ==== Sys2Proof/Machine/Census.lean ====
section
/-! DEFINITION. The census lane operations CMPPR, SELB, TRPR, ROLL, ZIP (rules R104, R107, R109, R111,
R114). None touches memory or a flag, none raises an error (rule R100). -/

namespace Sys2Proof.Machine

/-- Rule R104: bit `k` is `a.lo.b[k] < b.hi.b[k]`, unsigned and strict. -/
def compareRows (a b : PairedRow) : Pred :=
  ofBits 16 fun k => ltu8 (byteLane a.lo k) (byteLane b.hi k)

/-- CMPPR (rule R104). -/
def execCmppr (d : PReg) (a b : RReg) (s : State) : Outcome :=
  .next (s.writeP d (compareRows (s.readR a) (s.readR b))).complete

/-- Rule R107: bit `b` of every byte lane is replaced by the lane's predicate bit, the other seven are
kept. -/
def selectBit (acc : Vec) (pred : Pred) (b : Nat) : Vec :=
  ofBytes fun k =>
    (byteLane acc k &&& ~~~(1#8 <<< b)) ||| ((BitVec.ofBool (pred.getLsbD k)).setWidth 8 <<< b)

/-- SELB (rule R107). -/
def execSelb (d a : VReg) (p : PReg) (b : Fin 8) (s : State) : Outcome :=
  .next (s.writeV d (selectBit (s.readV a) (s.readP p) b.val)).complete

/-- TRPR: exchange the far halves, both read before either is written (rule R109). -/
def execTrpr (a b : RReg) (s : State) : Outcome :=
  let ra := s.readR a
  let rb := s.readR b
  .next ((s.writeR a ⟨ra.lo, rb.hi⟩).writeR b ⟨rb.lo, ra.hi⟩).complete

/-- Rule R111: the near half moves one lane toward lane 0, the far half one lane toward lane 15; the
vacated lanes take `hi.b[8 + 2x]` and `lo.b[7 - 2x]` of the same register. -/
def rollOutward (r : PairedRow) (x : Nat) : PairedRow where
  lo := ofBytes fun k => if k < 15 then byteLane r.lo (k + 1) else byteLane r.hi (8 + 2 * x)
  hi := ofBytes fun k => if k = 0 then byteLane r.lo (7 - 2 * x) else byteLane r.hi (k - 1)

/-- ROLL (rule R111). -/
def execRoll (d a : RReg) (x : Fin 4) (s : State) : Outcome :=
  .next (s.writeR d (rollOutward (s.readR a) x.val)).complete

/-- Rule R114: register `k` of the zipped group: byte `4c + m` is byte `4k + c` of old `V[4g + m]`. -/
def State.zipped (s : State) (g : Group) (k : Nat) : Vec :=
  ofBytes fun t => byteLane (s.readV (groupReg g (t % 4))) (4 * k + t / 4)

/-- ZIP: the four registers of the group, all read before any is written (rule R114). -/
def execZip (g : Group) (s : State) : Outcome :=
  .next (s.writeAllV fun i => if inGroup g i then s.zipped g (i.val % 4) else s.readV i).complete

end Sys2Proof.Machine
end

