-- ==== Sys2Proof/Machine/Extract.lean ====
section
/-! DEFINITION. The census descriptor engine EXTRACT (rules R150 to R161): descriptor layout, patch
tiler, bit packer, contract, footprint, and the command. -/

namespace Sys2Proof.Machine

/-! ### The descriptor (rules R150, R151) -/

/-- The order in which the seven rows of a column pair go to bits: even rows, then odd (rule R151). -/
def rowOrder : List Nat := [0, 2, 4, 6, 1, 3, 5]

/-- The upper rows of the three centre-column comparisons, for bits 7, 15, 23 (rule R151). -/
def centreRows : List Nat := [0, 2, 1]

/-- Bit `i < 32` of the descriptor of a patch `(column, row)` (rule R151). -/
def censusBit (patch : Nat → Nat → Byte) (i : Nat) : Bool :=
  let dx := i / 8
  let pos := i % 8
  if pos < 7 then
    let y0 := rowOrder.getD pos 0
    ltu8 (patch dx y0) (patch (8 - dx) (6 - y0))
  else if dx < 3 then
    let y0 := centreRows.getD dx 0
    ltu8 (patch 4 y0) (patch 4 (6 - y0))
  else false

/-- `census(px, py)` of an image given by its pixels `(X, Y)` (rules R150, R151). -/
def census (pix : Nat → Nat → Byte) (px py : Nat) : Word :=
  ofBits 32 (censusBit fun c r => pix (px + c) (py + r))

/-! ### The patch tiler (rule R156) -/

/-- `lo, lo + step, lo + 2 * step, ...` while below `hi`. -/
def stepsFrom (lo hi step : Nat) : List Nat :=
  (List.range ((hi - lo + (step - 1)) / step)).map fun k => lo + k * step

/-- `STEP_ORIGINS(W_out, H_out)`: vertical tiles, horizontal tiles, step rows, step columns, the last
step of a ragged row or column shifted back (rule R156). -/
def stepOrigins (p : Params) (wOut hOut : Nat) : List (Nat × Nat) :=
  (stepsFrom 0 hOut p.vBlock).flatMap fun ty =>
    (stepsFrom 0 wOut p.hBlock).flatMap fun tx =>
      (stepsFrom ty (min (ty + p.vBlock) hOut) p.vStep).flatMap fun sy =>
        (stepsFrom tx (min (tx + p.hBlock) wOut) p.hStep).map fun sx =>
          (min sx (wOut - p.hStep), min sy (hOut - p.vStep))

/-- The output coordinates of one step with origin `(ox, oy)`, in the order of rule R157. -/
def stepOutputs (p : Params) (origin : Nat × Nat) : List (Nat × Nat) :=
  (List.range p.vStep).flatMap fun j =>
    (List.range p.hStep).map fun i => (origin.1 + i, origin.2 + j)

/-- Every output coordinate the walk evaluates, in order, back-shifted ones again (rules R156, R157). -/
def walk (p : Params) (wOut hOut : Nat) : List (Nat × Nat) :=
  (stepOrigins p wOut hOut).flatMap (stepOutputs p)

/-! ### The operands of one EXTRACT -/

/-- The six operand values of EXTRACT (rule R152). -/
structure ExtractJob where
  src : Word
  width : Word
  height : Word
  srcPitch : Word
  dst : Word
  dstPitch : Word
  deriving DecidableEq, Repr

/-- The operands are read from the scalar file at the start (rule R152). -/
def State.extractJob (s : State) (src w h sp dst dp : SReg) : ExtractJob where
  src := s.readS src
  width := s.readS w
  height := s.readS h
  srcPitch := s.readS sp
  dst := s.readS dst
  dstPitch := s.readS dp

/-- Rule R153: the size test. -/
def ExtractJob.tooSmall (j : ExtractJob) : Bool :=
  decide (j.width.toNat < Config.params.hPatch) || decide (j.height.toNat < Config.params.vPatch)

/-- `W_out = W - 8` (rule R155). -/
def ExtractJob.wOut (j : ExtractJob) : Nat := j.width.toNat - 8

/-- `H_out = H - 6` (rule R155). -/
def ExtractJob.hOut (j : ExtractJob) : Nat := j.height.toNat - 6

/-- `DP`: the destination pitch in descriptors, `W_out` when the operand is the sentinel 0 (rule R155). -/
def ExtractJob.pitch (j : ExtractJob) : Nat := if j.dstPitch = 0 then j.wOut else j.dstPitch.toNat

/-- The address of pixel `(X, Y)`, modulo 2^32 (rules R14, R53, R150). -/
def ExtractJob.pixelAddr (j : ExtractJob) (x y : Nat) : Word :=
  j.src + BitVec.ofNat 32 y * j.srcPitch + BitVec.ofNat 32 x

/-- `pix(X, Y)` in memory `m` (rule R150). -/
def ExtractJob.pix (j : ExtractJob) (m : Memory) (x y : Nat) : Byte := m.read (j.pixelAddr x y).toNat

/-- The address of descriptor `(ox, oy)`, modulo 2^32 (rules R53, R155). -/
def ExtractJob.descAddr (j : ExtractJob) (ox oy : Nat) : Word :=
  j.dst + 4#32 * (BitVec.ofNat 32 oy * BitVec.ofNat 32 j.pitch + BitVec.ofNat 32 ox)

/-! ### Contract and footprint (rules R154, R159) -/

/-- The bytes from `src` to the end of the image. `height * src_pitch` when `src_pitch` is at least
`width`; with a smaller pitch, which U3 lets a model accept, the last row may reach further (log 10). -/
def ExtractJob.srcSize (j : ExtractJob) : Nat :=
  max (j.height.toNat * j.srcPitch.toNat) ((j.height.toNat - 1) * j.srcPitch.toNat + j.width.toNat)

/-- The bytes from `dst` to the end of the output region (rule R154). -/
def ExtractJob.dstSize (j : ExtractJob) : Nat := 4 * ((j.hOut - 1) * j.pitch + j.wOut)

/-- The caller's contract of rule R154, less its first clause (log 10): output rows do not overlap,
neither region passes 2^32, and the two share no byte. -/
def ExtractJob.contract (j : ExtractJob) : Bool :=
  decide (j.wOut ≤ j.pitch) &&
  decide (j.src.toNat + j.srcSize ≤ 2 ^ 32) &&
  decide (j.dst.toNat + j.dstSize ≤ 2 ^ 32) &&
  (decide (j.src.toNat + j.srcSize ≤ j.dst.toNat) || decide (j.dst.toNat + j.dstSize ≤ j.src.toNat))

/-- The addresses read: `0 ≤ X < width`, `0 ≤ Y < height`, all of them and no others (rule R159). -/
def ExtractJob.reads (j : ExtractJob) : List Nat :=
  (List.range j.height.toNat).flatMap fun y =>
    (List.range j.width.toNat).map fun x => (j.pixelAddr x y).toNat

/-- The addresses of the output region: four bytes for each descriptor (rule R159). -/
def ExtractJob.region (j : ExtractJob) : List Nat :=
  (List.range j.hOut).flatMap fun oy =>
    (List.range j.wOut).flatMap fun ox => span (j.descAddr ox oy) 4

/-- The footprint (rules R56, R159). -/
def ExtractJob.footprint (j : ExtractJob) : List Nat := j.reads ++ j.region

/-! ### What is written -/

/-- The four cells of descriptor `d` at address `a`, little-endian (rules R54, R157). -/
def descCells (a d : Word) : List Host.Cell :=
  (List.range 4).map fun t => (byteAddr a t, wordByte d t)

/-- Every pixel of the patch of descriptor `(ox, oy)` lies at a valid address (rules R55, R150). -/
def State.patchValid (s : State) (j : ExtractJob) (ox oy : Nat) : Bool :=
  (List.range Config.params.featureH).all fun r =>
    (List.range Config.params.featureW).all fun c =>
      s.memValid (j.pixelAddr (ox + c) (oy + r)).toNat

/-- The four cells of descriptor `(ox, oy)`: its census, or free bytes when a pixel of its patch lies at
an invalid address, whose read rule R51 gives no value (U5, log 25). A command that completes has no
such pixel. -/
def State.descriptorCells (s : State) (j : ExtractJob) (ox oy : Nat) : List Host.Cell :=
  if s.patchValid j ox oy then descCells (j.descAddr ox oy) (census (j.pix s.mem) ox oy)
  else (span (j.descAddr ox oy) 4).map fun a => (a, Config.freeByte s.freeCount a)

/-- The cells of the walk, in order, computed from the image in memory before the command (rules R156,
R157; log 22). -/
def State.walkCells (s : State) (j : ExtractJob) : List Host.Cell :=
  (walk Config.params j.wOut j.hOut).flatMap fun o => s.descriptorCells j o.1 o.2

/-- Outside the contract the content of the output region is open (U3, log 9). -/
def ExtractJob.openCells (j : ExtractJob) (draw : Nat) : List Host.Cell :=
  j.region.map fun a => (a, Config.freeByte draw a)

/-- All the memory writes of one EXTRACT; a command that does not complete makes an open subset of those
with valid addresses (rules R182, R200). -/
def State.extractCells (s : State) (j : ExtractJob) : List Host.Cell :=
  if j.tooSmall then []
  else if j.contract then s.walkCells j
  else j.openCells s.freeCount

/-- EXTRACT (rules R152 to R159). The size test comes first and alone decides `TS`; a too small image
touches no memory; otherwise the output region is written. It writes no register. -/
def execExtract (src w h sp dst dp : SReg) (s : State) : Outcome :=
  let j := s.extractJob src w h sp dst dp
  if j.tooSmall then .next s.setTooSmall.complete
  else
    s.imprecise (encode (.extract src w h sp dst dp)) j.footprint (s.extractCells j)
      (fun t => if j.contract then t else t.fresh) id

end Sys2Proof.Machine
end

