-- ==== Sys2Proof/Machine/Support.lean ====
section
/-! DEFINITION. The support commands that touch registers and status only: SETLO, SETHI, VCLR, CLRST
(rules R140 to R142, R144). -/

namespace Sys2Proof.Machine

/-- SETLO: `S[d] <- zext_32(imm16)` (rule R140). -/
def execSetlo (d : SReg) (imm16 : BitVec 16) (s : State) : Outcome :=
  .next (s.writeS d (imm16.setWidth 32)).complete

/-- SETHI: `S[d] <- {imm16, S[d][15:0]}` (rule R141). -/
def execSethi (d : SReg) (imm16 : BitVec 16) (s : State) : Outcome :=
  .next (s.writeS d (imm16 ++ (s.readS d).extractLsb' 0 16)).complete

/-- VCLR: `V[d] <- 0` (rule R142). -/
def execVclr (d : VReg) (s : State) : Outcome :=
  .next (s.writeV d 0).complete

/-- CLRST: `STATUS.TS <- 0` (rule R144). -/
def execClrst (s : State) : Outcome :=
  .next s.clearTooSmall.complete

end Sys2Proof.Machine
end

