-- ==== Sys2Proof/Machine/Transfer.lean ====
section
/-! DEFINITION. The memory transfers LDPR, LDV, STD (rules R101, R143, R116). Each has a precise
`MemError` (rule R56); the command word it records is the encoding of the command (log 15). -/

namespace Sys2Proof.Machine

/-- The 32 addresses LDPR reads: 16 at `near`, 16 at `far` (rules R56, R101). -/
def ldprFootprint (near far : Word) : List Nat := span near 16 ++ span far 16

/-- LDPR: `R[d].lo <- MemRead(S[a], 16)`, `R[d].hi <- MemRead(S[a] + S[p], 16)` (rule R101). -/
def execLdpr (d : RReg) (a p : SReg) (s : State) : Outcome :=
  let near := s.readS a
  let far := near + s.readS p
  s.precise (encode (.ldpr d a p)) (ldprFootprint near far)
    (s.writeR d ⟨s.read16 near, s.read16 far⟩)

/-- LDV: `V[d] <- MemRead(S[a] + n * S[p], 16)` (rule R143). -/
def execLdv (d : VReg) (a p : SReg) (n : Fin 16) (s : State) : Outcome :=
  let addr := s.rowAddr a p n.val
  s.precise (encode (.ldv d a p n)) (span addr 16) (s.writeV d (s.read16 addr))

/-- The cells STD writes: byte lane `k` of `V[a]` to `S[d] + n * S[p] + k` (rule R116). -/
def State.stdCells (s : State) (a : VReg) (d p : SReg) (n : Fin 16) : List Host.Cell :=
  cells16 (s.rowAddr d p n.val) (s.readV a)

/-- STD: `MemWrite(S[d] + n * S[p], 16, V[a])` (rule R116). -/
def execStd (a : VReg) (d p : SReg) (n : Fin 16) (s : State) : Outcome :=
  s.precise (encode (.std a d p n)) (span (s.rowAddr d p n.val) 16) (s.store (s.stdCells a d p n))

end Sys2Proof.Machine
end

