-- ==== Sys2Proof/Machine/Dispatch.lean ====
section
/-! DEFINITION. One arm per command (rule R76). `exec` is the effect of a decoded command on a block that
is not halted; a halted block discards the word before decoding, in the step (rule R184, log 21). -/

namespace Sys2Proof.Machine

def exec (i : Instr) (s : State) : Host.Outcome State Fault Refusal :=
  match i with
  | .setlo d imm16 => Sys2Proof.Machine.execSetlo d imm16 s
  | .sethi d imm16 => Sys2Proof.Machine.execSethi d imm16 s
  | .vclr d => Sys2Proof.Machine.execVclr d s
  | .clrst => Sys2Proof.Machine.execClrst s
  | .ldpr d a p => Sys2Proof.Machine.execLdpr d a p s
  | .ldv d a p n => Sys2Proof.Machine.execLdv d a p n s
  | .std a d p n => Sys2Proof.Machine.execStd a d p n s
  | .cmppr d a b => Sys2Proof.Machine.execCmppr d a b s
  | .selb d a p b => Sys2Proof.Machine.execSelb d a p b s
  | .trpr a b => Sys2Proof.Machine.execTrpr a b s
  | .roll d a x => Sys2Proof.Machine.execRoll d a x s
  | .zip g => Sys2Proof.Machine.execZip g s
  | .pcxor d gl gr off => Sys2Proof.Machine.execPcxor d gl gr off s
  | .shup gr => Sys2Proof.Machine.execShup gr s
  | .extract src w h sp dst dp => Sys2Proof.Machine.execExtract src w h sp dst dp s
  | .aggr d p gl gr e => Sys2Proof.Machine.execAggr d p gl gr e s

end Sys2Proof.Machine
end

