-- ==== Sys2Proof/Machine/Port.lean ====
section
/-! DEFINITION. What one host event does: a command word accepted at the command port, a reset, a
reset in the middle of a command, a host write (rules R4, R60, R181, R184, R200). -/

namespace Sys2Proof.Machine

/-- One command word: discarded by a halted block (rule R184); else decoded, which yields a command or
raises `IllegalCommand` (rules R181, R185); else executed. -/
def runCommand (w : Word) (s : State) : Outcome :=
  if s.halted then .next s
  else match decode w with
    | none => .next (s.raise .illegalCommand w)
    | some i => exec i s

/-- The memory writes a command would make to valid addresses: none for a command that writes no
memory, none for a STD with an invalid address, which is precise (rules R56, R200). -/
def commandCells (i : Instr) (s : State) : List Host.Cell :=
  match i with
  | .setlo _ _ => []
  | .sethi _ _ => []
  | .vclr _ => []
  | .clrst => []
  | .ldpr _ _ _ => []
  | .ldv _ _ _ _ => []
  | .std a d p n => if s.invalid (span (s.rowAddr d p n.val) 16) = [] then s.stdCells a d p n else []
  | .cmppr _ _ _ => []
  | .selb _ _ _ _ => []
  | .trpr _ _ => []
  | .roll _ _ _ => []
  | .zip _ => []
  | .pcxor _ _ _ _ => []
  | .shup _ => []
  | .extract src w h sp dst dp => s.extractCells (s.extractJob src w h sp dst dp)
  | .aggr d p gl gr e => s.aggrCells d p gl gr e

/-- The memory writes of a command word delivered to the block: none when it is halted or the word is
illegal. -/
def wordCells (w : Word) (s : State) : List Host.Cell :=
  if s.halted then []
  else match decode w with
    | none => []
    | some i => commandCells i s

/-- One host event. An abandoned command has made an open subset of its memory writes and nothing
else of it survives the reset (rule R200, U2, log 13). A host write reaches an address the platform
backs (rule R60, log 14). -/
def runEvent (e : HostEvent) (s : State) : Outcome :=
  match e with
  | .command w => runCommand w s
  | .reset => .next s.afterReset
  | .resetDuring w => .next (s.storeSome (wordCells w s)).afterReset
  | .hostWrite a b => .next (if s.memValid a.toNat then s.store [(a.toNat, b)] else s)

/-- Take the host's next event from the port and run it; with none the block is idle and keeps all its
state (rules R28, R58, R195). -/
def acceptNext (s : State) : Outcome :=
  match s.port with
  | [] => .next s
  | e :: rest => runEvent e { s with port := rest }

/-- The host delivers `w` as its next event (rule R70). -/
def State.deliver (s : State) (w : Word) : State := { s with port := .command w :: s.port }

end Sys2Proof.Machine
end

