-- ==== Sys2Proof/Machine/Step.lean ====
section
/-! DEFINITION. One step of the machine: the host's next event (rule R58). -/

namespace Sys2Proof.Machine

/-- One atomic step (rules R58, R212). -/
def step (s : State) : Host.Outcome State Fault Refusal := acceptNext s

/-- The state in which the host delivers the given command word next. The block fetches nothing: the
word stands at the command port (rules R28, R70; log 1). -/
def State.withFetchWord (s : State) (nbits w : Nat) : State :=
  s.deliver (BitVec.ofNat 32 (w % 2 ^ nbits))

end Sys2Proof.Machine
end

