-- ==== Sys2Proof/Asm.lean ====
section
/-! DEFINITION. Assembler text of a command (rule R79) and the pseudo-instruction LI (rule R81). -/

namespace Sys2Proof

/-- A register or group operand: its file letter and its index (rule R79). -/
def Asm.operand (file : String) (n : Nat) : String := file ++ toString n

/-- One line: the mnemonic in upper case, then the operands separated by commas (rule R79). -/
def Asm.line (mnemonic : String) (operands : List String) : String :=
  if operands.isEmpty then mnemonic else mnemonic ++ " " ++ ", ".intercalate operands

/-- The assembler text of a command, operands in the order of the columns of rule R76 (rule R79). -/
def Instr.asm : Instr → String
  | .setlo d imm16 => Asm.line "SETLO" [Asm.operand "S" d, toString imm16.toNat]
  | .sethi d imm16 => Asm.line "SETHI" [Asm.operand "S" d, toString imm16.toNat]
  | .vclr d => Asm.line "VCLR" [Asm.operand "V" d]
  | .clrst => Asm.line "CLRST" []
  | .ldpr d a p => Asm.line "LDPR" [Asm.operand "R" d, Asm.operand "S" a, Asm.operand "S" p]
  | .ldv d a p n => Asm.line "LDV" [Asm.operand "V" d, Asm.operand "S" a, Asm.operand "S" p, toString n.val]
  | .std a d p n => Asm.line "STD" [Asm.operand "V" a, Asm.operand "S" d, Asm.operand "S" p, toString n.val]
  | .cmppr d a b => Asm.line "CMPPR" [Asm.operand "P" d, Asm.operand "R" a, Asm.operand "R" b]
  | .selb d a p b => Asm.line "SELB" [Asm.operand "V" d, Asm.operand "V" a, Asm.operand "P" p, toString b.val]
  | .trpr a b => Asm.line "TRPR" [Asm.operand "R" a, Asm.operand "R" b]
  | .roll d a x => Asm.line "ROLL" [Asm.operand "R" d, Asm.operand "R" a, toString x.val]
  | .zip g => Asm.line "ZIP" [Asm.operand "G" g]
  | .pcxor d gl gr off => Asm.line "PCXOR" [Asm.operand "V" d, Asm.operand "G" gl, Asm.operand "H" gr, toString off.val]
  | .shup gr => Asm.line "SHUP" [Asm.operand "H" gr]
  | .extract src w h sp dst dp => Asm.line "EXTRACT" ([src, w, h, sp, dst, dp].map fun r => Asm.operand "S" r)
  | .aggr d p gl gr e => Asm.line "AGGR" [Asm.operand "S" d, Asm.operand "S" p, Asm.operand "G" gl, Asm.operand "H" gr, toString e.toNat]

/-- `LI Sd, imm32`: SETLO of the low half, then SETHI of the high half when it is not zero (rule R81). -/
def expandLI (d : SReg) (imm32 : Word) : List Instr :=
  .setlo d (imm32.extractLsb' 0 16) ::
    if imm32.extractLsb' 16 16 = 0 then [] else [.sethi d (imm32.extractLsb' 16 16)]

end Sys2Proof
end

