-- ==== Sys2Proof/Safety.lean ====
section
/-! DEFINITION. The terms claims are made in: what is left unchanged, the invariant of the machine, what
a state after reset may be, runs of several commands, and the notions the spec's laws name. -/

namespace Sys2Proof.Machine

/-! ### Frames -/

/-- Every vector register reads as before. -/
def KeepsV (s t : State) : Prop := ∀ i, t.readV i = s.readV i

/-- Every paired-row register reads as before. -/
def KeepsR (s t : State) : Prop := ∀ i, t.readR i = s.readR i

/-- Every predicate register reads as before. -/
def KeepsP (s t : State) : Prop := ∀ i, t.readP i = s.readP i

/-- Every scalar register reads as before. -/
def KeepsS (s t : State) : Prop := ∀ i, t.readS i = s.readS i

/-- Every byte of memory reads as before. -/
def KeepsMem (s t : State) : Prop := ∀ a : Nat, t.mem.read a = s.mem.read a

/-- `ERRWORD` and `ERRADDR` are as before. -/
def KeepsErrors (s t : State) : Prop := t.errWord = s.errWord ∧ t.errAddr = s.errAddr

/-- What lies outside the block and a command cannot touch: the platform's regions and what the host is
going to do. -/
def KeepsOutside (s t : State) : Prop := t.backed = s.backed ∧ t.port = s.port

/-- All four register files are as before. -/
def KeepsRegisters (s t : State) : Prop := KeepsV s t ∧ KeepsR s t ∧ KeepsP s t ∧ KeepsS s t

/-- `STATUS`, the error registers and what lies outside are as before, and the command is counted: what
every completed command does, but EXTRACT and CLRST to `TS` (rules R27, R35). -/
def CompletesQuietly (s t : State) : Prop :=
  t.status = s.status ∧ KeepsErrors s t ∧ KeepsOutside s t ∧ t.cmdCnt = s.cmdCnt + 1

/-- The record of a `MemError` raised by command `i` on a block that was not halted: `MERR` is set and no
other status bit changes, `ERRWORD` is the command word, `ERRADDR` an invalid address of the footprint,
`CMDCNT` does not move (rule R182). -/
def RecordsMemError (i : Instr) (footprint : List Nat) (s t : State) : Prop :=
  t.status = { s.status with merr := true } ∧ t.errWord = encode i ∧
    (∃ a ∈ footprint, s.memValid a = false ∧ t.errAddr.toNat = a) ∧
    t.cmdCnt = s.cmdCnt ∧ KeepsOutside s t

/-! ### Invariant, reset, safe runs -/

/-- The invariant of the machine: memory is canonical; `ERRWORD` is zero while `HALT = 0` (rule R33);
`ERRADDR` is zero while `MERR = 0` and an invalid address while `MERR = 1` (rule R34); at most one halting
error is recorded (rule R188). -/
def State.Inv (s : State) : Prop :=
  s.mem.wf = true ∧
    (s.halted = false → s.errWord = 0) ∧
    (s.status.merr = false → s.errAddr = 0) ∧
    (s.status.merr = true → s.memValid s.errAddr.toNat = false) ∧
    ¬(s.status.ill = true ∧ s.status.merr = true)

/-- What rule R201 says of the block after reset, and no more: the control registers are zero, the
data registers hold anything. A claim about a program starts from every such state (rule R26, U1). -/
def State.JustReset (s : State) : Prop :=
  s.status = ⟨false, false, false⟩ ∧ s.errWord = 0 ∧ s.errAddr = 0 ∧ s.cmdCnt = 0

/-- `k` host events go by and the block is not halted after them: the halted state is never the final
state of a safe run (rule R184, log 2). -/
def SafeRun (k : Nat) (s : State) : Prop :=
  ∃ t : State, Sys2Proof.core.run k s = .next t ∧ t.halted = false

/-- Commands executed one after another (rule R58). -/
def execSeq : List Instr → State → Outcome
  | [], s => .next s
  | i :: is, s =>
    match exec i s with
    | .next t => execSeq is t
    | .fault r => .fault r
    | .refused r => .refused r

/-! ### Notions of the spec's laws -/

/-- Register content `r` holds `row` at offset `x` from index `c` (rule R112). -/
def HoldsRow (row : Nat → Byte) (c x : Nat) (r : PairedRow) : Prop :=
  ∀ k < 16, byteLane r.lo k = row (c + x + k) ∧ byteLane r.hi k = row (c + 8 - x + k)

/-- The lane group `G(gl)` has no register in common with `H(gr)` (rules R135, R171). -/
def GroupApart (gl : Group) (gr : DoubleGroup) : Prop := gl.val / 2 ≠ gr.val

/-- The lowest address of descriptor `(ox, oy)`, plus `t`, as a plain number (rule R155). -/
def ExtractJob.descByte (j : ExtractJob) (ox oy t : Nat) : Nat :=
  j.dst.toNat + 4 * (oy * j.pitch + ox) + t

/-- The address of pixel `(x, y)` as a plain number (rule R150). -/
def ExtractJob.pixelByte (j : ExtractJob) (x y : Nat) : Nat :=
  j.src.toNat + y * j.srcPitch.toNat + x

/-- The size test of rule R153 passes, output rows do not overlap, source bytes (which end before
`srcEnd`) and output region share no byte and do not pass 2^32, and every address of the footprint of
rule R159 is valid. -/
def ExtractJob.CleanUpTo (j : ExtractJob) (srcEnd : Nat) (s : State) : Prop :=
  (24 ≤ j.width.toNat ∧ 8 ≤ j.height.toNat) ∧
    j.wOut ≤ j.pitch ∧
    srcEnd ≤ 2 ^ 32 ∧
    j.dst.toNat + 4 * ((j.hOut - 1) * j.pitch + j.wOut) ≤ 2 ^ 32 ∧
    (srcEnd ≤ j.dst.toNat ∨ j.dst.toNat + 4 * ((j.hOut - 1) * j.pitch + j.wOut) ≤ j.src.toNat) ∧
    (∀ y < j.height.toNat, ∀ x < j.width.toNat, s.memValid (j.pixelByte x y) = true) ∧
    (∀ oy < j.hOut, ∀ ox < j.wOut, ∀ t < 4, s.memValid (j.descByte ox oy t) = true)

/-- The size test passes, all the preconditions of rule R154 hold, and the footprint is valid. -/
def ExtractJob.Clean (j : ExtractJob) (s : State) : Prop :=
  j.width.toNat ≤ j.srcPitch.toNat ∧
    j.CleanUpTo (j.src.toNat + j.height.toNat * j.srcPitch.toNat) s

/-- As `Clean`, but the source pitch is below the width, so that image rows overlap in memory and the
source bytes end with the last row: the case that U3 lets a model accept (log 10). -/
def ExtractJob.CleanNarrow (j : ExtractJob) (s : State) : Prop :=
  j.srcPitch.toNat < j.width.toNat ∧
    j.CleanUpTo (j.src.toNat + ((j.height.toNat - 1) * j.srcPitch.toNat + j.width.toNat)) s

/-- Memory of `t` is memory of `s` with the closed-form descriptor field written: the four bytes at
`dst + 4 * (oy * DP + ox)` hold `census(ox, oy)` of the source image in `s`, little-endian, and no other
byte has changed (rule R158). -/
def ExtractJob.FieldWritten (j : ExtractJob) (s t : State) : Prop :=
  (∀ oy < j.hOut, ∀ ox < j.wOut, ∀ b < 4, t.mem.read (j.descByte ox oy b) =
    wordByte (census (fun x y => s.mem.read (j.pixelByte x y)) ox oy) b) ∧
  (∀ a, (∀ oy < j.hOut, ∀ ox < j.wOut, ∀ b < 4, a ≠ j.descByte ox oy b) →
    t.mem.read a = s.mem.read a)

/-- The precondition of rule R173 on the sixteen destination rows of AGGR, each row's start taken modulo
2^32 (rule R53; DEDUCED, log 12). -/
def AggrRowsApart (s : State) (d p : SReg) : Prop :=
  (∀ i < 16, (s.rowAddr d p i).toNat + 16 ≤ 2 ^ 32) ∧
    ∀ i < 16, ∀ k < i, (s.rowAddr d p i).toNat + 16 ≤ (s.rowAddr d p k).toNat ∨
      (s.rowAddr d p k).toNat + 16 ≤ (s.rowAddr d p i).toNat

/-- Every address AGGR writes is valid (rules R56, R171). -/
def AggrRowsValid (s : State) (d p : SReg) : Prop :=
  ∀ dsp < 16, ∀ px < 16, s.memValid (byteAddr (s.rowAddr d p dsp) px) = true

/-- Every address of 16 bytes at `a` is valid (rule R56). -/
def Valid16 (s : State) (a : Word) : Prop := ∀ k < 16, s.memValid (byteAddr a k) = true

end Sys2Proof.Machine
end

