-- ==== Sys2Proof/Certificates/Slice0/Obligations.lean ====
section
/-! DEFINITION. The statements for the provers: what each command does and leaves alone, where it
completes, the encoding, the step, the invariant, reset and the control registers. Each docstring names
the rule it formalises. -/

open Sys2Proof Sys2Proof.Machine

/-- SETLO writes the zero-extended immediate and completes (R140). -/
def Obligations.SetloWritesZeroExtendedImmediate : Prop :=
  ∀ (s : State) (d : SReg) (imm16 : BitVec 16), s.halted = false →
    decode (BitVec.ofNat 32 (0x01000000 + d.val * 2 ^ 20 + imm16.toNat)) = some (.setlo d imm16) ∧
    ∃ t, exec (.setlo d imm16) s = .next t ∧
      (t.readS d).toNat = imm16.toNat ∧ (∀ i, i ≠ d → t.readS i = s.readS i) ∧
      KeepsV s t ∧ KeepsR s t ∧ KeepsP s t ∧ KeepsMem s t ∧ CompletesQuietly s t

/-- SETHI replaces the high half of S[d], keeps the low half, and completes (R141). -/
def Obligations.SethiReplacesHighHalf : Prop :=
  ∀ (s : State) (d : SReg) (imm16 : BitVec 16), s.halted = false →
    decode (BitVec.ofNat 32 (0x02000000 + d.val * 2 ^ 20 + imm16.toNat)) = some (.sethi d imm16) ∧
    ∃ t, exec (.sethi d imm16) s = .next t ∧
      (t.readS d).toNat = imm16.toNat * 2 ^ 16 + (s.readS d).toNat % 2 ^ 16 ∧
      (∀ i, i ≠ d → t.readS i = s.readS i) ∧
      KeepsV s t ∧ KeepsR s t ∧ KeepsP s t ∧ KeepsMem s t ∧ CompletesQuietly s t

/-- VCLR zeroes V[d], keeps everything else, and completes (R142). -/
def Obligations.VclrZeroesOneVector : Prop :=
  ∀ (s : State) (d : VReg), s.halted = false →
    decode (BitVec.ofNat 32 (0x03000000 + d.val * 2 ^ 20)) = some (.vclr d) ∧
    ∃ t, exec (.vclr d) s = .next t ∧
      t.readV d = 0 ∧ (∀ k < 16, byteLane (t.readV d) k = 0) ∧ (∀ i, i ≠ d → t.readV i = s.readV i) ∧
      KeepsR s t ∧ KeepsP s t ∧ KeepsS s t ∧ KeepsMem s t ∧ CompletesQuietly s t

/-- CLRST clears TS, touches no other status or error bit, and completes (R144). -/
def Obligations.ClrstClearsOnlyTooSmall : Prop :=
  ∀ s : State, s.halted = false →
    decode 0x04000000#32 = some .clrst ∧
    ∃ t, exec .clrst s = .next t ∧
      t.status.ts = false ∧ t.status.ill = s.status.ill ∧ t.status.merr = s.status.merr ∧
      KeepsErrors s t ∧ KeepsRegisters s t ∧ KeepsMem s t ∧ KeepsOutside s t ∧ t.cmdCnt = s.cmdCnt + 1

/-- LI: the expansion of LI Sd, imm32 leaves imm32 in S[d] (R81). -/
def Obligations.LoadImmediateExpansionLoadsWord : Prop :=
  ∀ (s : State) (d : SReg) (imm32 : Word), s.halted = false →
    expandLI d imm32 =
        (if imm32.toNat < 2 ^ 16 then [.setlo d (imm32.setWidth 16)]
         else [.setlo d (imm32.setWidth 16), .sethi d (imm32.extractLsb' 16 16)]) ∧
    ∃ t, execSeq (expandLI d imm32) s = .next t ∧
      t.readS d = imm32 ∧ (∀ i, i ≠ d → t.readS i = s.readS i) ∧
      KeepsV s t ∧ KeepsR s t ∧ KeepsP s t ∧ KeepsMem s t ∧
      t.cmdCnt = s.cmdCnt + BitVec.ofNat 32 (expandLI d imm32).length

/-- LDPR loads the two halves of R[d], or changes nothing on an invalid address (R101). -/
def Obligations.LdprLoadsBothHalves : Prop :=
  ∀ (s : State) (d : RReg) (a p : SReg), s.halted = false →
    decode (BitVec.ofNat 32 (0x10000000 + d.val * 2 ^ 20 + a.val * 2 ^ 16 + p.val * 2 ^ 12)) =
      some (.ldpr d a p) ∧
    (Valid16 s (s.readS a) → Valid16 s (s.readS a + s.readS p) →
      ∃ t, exec (.ldpr d a p) s = .next t ∧
        (∀ k < 16, byteLane (t.readR d).lo k = s.mem.read (byteAddr (s.readS a) k)) ∧
        (∀ k < 16, byteLane (t.readR d).hi k = s.mem.read (byteAddr (s.readS a + s.readS p) k)) ∧
        (∀ i, i ≠ d → t.readR i = s.readR i) ∧
        KeepsV s t ∧ KeepsP s t ∧ KeepsS s t ∧ KeepsMem s t ∧ CompletesQuietly s t) ∧
    (¬(Valid16 s (s.readS a) ∧ Valid16 s (s.readS a + s.readS p)) →
      ∃ t, exec (.ldpr d a p) s = .next t ∧
        RecordsMemError (.ldpr d a p) (span (s.readS a) 16 ++ span (s.readS a + s.readS p) 16) s t ∧
        KeepsRegisters s t ∧ KeepsMem s t)

/-- LDV loads V[d] from S[a] + n*S[p], or changes nothing on an invalid address (R143). -/
def Obligations.LdvLoadsOneRow : Prop :=
  ∀ (s : State) (d : VReg) (a p : SReg) (n : Fin 16), s.halted = false →
    decode (BitVec.ofNat 32
      (0x11000000 + d.val * 2 ^ 20 + a.val * 2 ^ 16 + p.val * 2 ^ 12 + n.val * 2 ^ 8)) =
      some (.ldv d a p n) ∧
    (Valid16 s (s.readS a + BitVec.ofNat 32 n.val * s.readS p) →
      ∃ t, exec (.ldv d a p n) s = .next t ∧
        (∀ k < 16, byteLane (t.readV d) k =
          s.mem.read (byteAddr (s.readS a + BitVec.ofNat 32 n.val * s.readS p) k)) ∧
        (∀ i, i ≠ d → t.readV i = s.readV i) ∧
        KeepsR s t ∧ KeepsP s t ∧ KeepsS s t ∧ KeepsMem s t ∧ CompletesQuietly s t) ∧
    (¬Valid16 s (s.readS a + BitVec.ofNat 32 n.val * s.readS p) →
      ∃ t, exec (.ldv d a p n) s = .next t ∧
        RecordsMemError (.ldv d a p n) (span (s.readS a + BitVec.ofNat 32 n.val * s.readS p) 16) s t ∧
        KeepsRegisters s t ∧ KeepsMem s t)

/-- STD stores the 16 bytes of V[a] at S[d] + n*S[p] and nothing else, or nothing at all (R116). -/
def Obligations.StdStoresOneRegister : Prop :=
  ∀ (s : State) (a : VReg) (d p : SReg) (n : Fin 16), s.halted = false →
    decode (BitVec.ofNat 32
      (0x12000000 + a.val * 2 ^ 20 + d.val * 2 ^ 16 + p.val * 2 ^ 12 + n.val * 2 ^ 8)) =
      some (.std a d p n) ∧
    (Valid16 s (s.readS d + BitVec.ofNat 32 n.val * s.readS p) →
      ∃ t, exec (.std a d p n) s = .next t ∧
        (∀ k < 16, t.mem.read (byteAddr (s.readS d + BitVec.ofNat 32 n.val * s.readS p) k) =
          byteLane (s.readV a) k) ∧
        (∀ x, x ∉ span (s.readS d + BitVec.ofNat 32 n.val * s.readS p) 16 →
          t.mem.read x = s.mem.read x) ∧
        KeepsRegisters s t ∧ CompletesQuietly s t) ∧
    (¬Valid16 s (s.readS d + BitVec.ofNat 32 n.val * s.readS p) →
      ∃ t, exec (.std a d p n) s = .next t ∧
        RecordsMemError (.std a d p n) (span (s.readS d + BitVec.ofNat 32 n.val * s.readS p) 16) s t ∧
        KeepsRegisters s t ∧ KeepsMem s t)

/-- CMPPR: predicate bit k is R[a].lo.b[k] < R[b].hi.b[k], unsigned and strict (R104). -/
def Obligations.CmpprComparesNearWithFar : Prop :=
  ∀ (s : State) (d : PReg) (a b : RReg), s.halted = false →
    decode (BitVec.ofNat 32 (0x20000000 + d.val * 2 ^ 20 + a.val * 2 ^ 16 + b.val * 2 ^ 12)) =
      some (.cmppr d a b) ∧
    ∃ t, exec (.cmppr d a b) s = .next t ∧
      (∀ k < 16, (t.readP d).getLsbD k =
        decide ((byteLane (s.readR a).lo k).toNat < (byteLane (s.readR b).hi k).toNat)) ∧
      (∀ i, i ≠ d → t.readP i = s.readP i) ∧
      KeepsV s t ∧ KeepsR s t ∧ KeepsS s t ∧ KeepsMem s t ∧ CompletesQuietly s t

/-- SELB replaces bit b of every byte lane by the predicate bit and disturbs no other bit (R107). -/
def Obligations.SelbReplacesOneBitOfEveryLane : Prop :=
  ∀ (s : State) (d a : VReg) (p : PReg) (b : Fin 8), s.halted = false →
    decode (BitVec.ofNat 32
      (0x21000000 + d.val * 2 ^ 20 + a.val * 2 ^ 16 + p.val * 2 ^ 12 + b.val * 2 ^ 8)) =
      some (.selb d a p b) ∧
    ∃ t, exec (.selb d a p b) s = .next t ∧
      (∀ k < 16, ∀ m < 8, (byteLane (t.readV d) k).getLsbD m =
        if m = b.val then (s.readP p).getLsbD k else (byteLane (s.readV a) k).getLsbD m) ∧
      (∀ i, i ≠ d → t.readV i = s.readV i) ∧
      KeepsR s t ∧ KeepsP s t ∧ KeepsS s t ∧ KeepsMem s t ∧ CompletesQuietly s t

/-- TRPR exchanges the far halves of R[a] and R[b], also when a = b (R109). -/
def Obligations.TrprExchangesFarHalves : Prop :=
  ∀ (s : State) (a b : RReg), s.halted = false →
    decode (BitVec.ofNat 32 (0x22000000 + a.val * 2 ^ 20 + b.val * 2 ^ 16)) = some (.trpr a b) ∧
    ∃ t, exec (.trpr a b) s = .next t ∧
      t.readR a = ⟨(s.readR a).lo, (s.readR b).hi⟩ ∧ t.readR b = ⟨(s.readR b).lo, (s.readR a).hi⟩ ∧
      (∀ i, i ≠ a → i ≠ b → t.readR i = s.readR i) ∧ (a = b → KeepsR s t) ∧
      (∃ u, exec (.trpr b a) s = .next u ∧ KeepsR t u) ∧
      KeepsV s t ∧ KeepsP s t ∧ KeepsS s t ∧ KeepsMem s t ∧ CompletesQuietly s t

/-- TRPR twice restores every register; inside the bracket self-comparisons give the mirrored predicates
(R110). -/
def Obligations.TrprIsAnInvolutionAndABracket : Prop :=
  ∀ (s : State) (a b : RReg) (d : PReg), s.halted = false →
    ∃ t, exec (.trpr a b) s = .next t ∧
      (∃ u, exec (.trpr a b) t = .next u ∧ KeepsRegisters s u) ∧
      (∃ u v, exec (.cmppr d a a) t = .next u ∧ exec (.cmppr d a b) s = .next v ∧
        u.readP d = v.readP d) ∧
      (∃ u v, exec (.cmppr d b b) t = .next u ∧ exec (.cmppr d b a) s = .next v ∧
        u.readP d = v.readP d)

/-- ROLL moves both halves outward by one lane and injects the two lanes the offset names (R111). -/
def Obligations.RollMovesBothHalvesOutward : Prop :=
  ∀ (s : State) (d a : RReg) (x : Fin 4), s.halted = false →
    decode (BitVec.ofNat 32 (0x23000000 + d.val * 2 ^ 20 + a.val * 2 ^ 16 + x.val * 2 ^ 12)) =
      some (.roll d a x) ∧
    ∃ t, exec (.roll d a x) s = .next t ∧
      (∀ k < 15, byteLane (t.readR d).lo k = byteLane (s.readR a).lo (k + 1)) ∧
      byteLane (t.readR d).lo 15 = byteLane (s.readR a).hi (8 + 2 * x.val) ∧
      (∀ k, 1 ≤ k → k < 16 → byteLane (t.readR d).hi k = byteLane (s.readR a).hi (k - 1)) ∧
      byteLane (t.readR d).hi 0 = byteLane (s.readR a).lo (7 - 2 * x.val) ∧
      (∀ i, i ≠ d → t.readR i = s.readR i) ∧
      KeepsV s t ∧ KeepsP s t ∧ KeepsS s t ∧ KeepsMem s t ∧ CompletesQuietly s t

/-- The window law of ROLL: load, roll, centre alignment, comparison (R112). -/
def Obligations.RollWindowLawHolds : Prop :=
  (∀ (s : State) (d : RReg) (a p : SReg), s.halted = false → s.readS p = 8 →
    Valid16 s (s.readS a) → Valid16 s (s.readS a + s.readS p) →
    ∃ t, exec (.ldpr d a p) s = .next t ∧
      HoldsRow (fun k => s.mem.read (byteAddr (s.readS a) k)) 0 0 (t.readR d)) ∧
  (∀ (s : State) (d a : RReg) (x : Fin 4) (row : Nat → Byte) (c : Nat), s.halted = false →
    HoldsRow row c x.val (s.readR a) →
    ∃ t, exec (.roll d a x) s = .next t ∧ HoldsRow row c (x.val + 1) (t.readR d)) ∧
  (∀ (r : PairedRow) (row : Nat → Byte) (c : Nat), HoldsRow row c 4 r →
    r.lo = r.hi ∧ ∀ k < 16, byteLane r.lo k = row (c + 4 + k)) ∧
  (∀ (s : State) (d : PReg) (a b : RReg) (x c : Nat) (rowA rowB : Nat → Byte), s.halted = false →
    x ≤ 4 → HoldsRow rowA c x (s.readR a) → HoldsRow rowB c x (s.readR b) →
    ∃ t, exec (.cmppr d a b) s = .next t ∧
      ∀ i < 16, (t.readP d).getLsbD i =
        decide ((rowA (c + i + x)).toNat < (rowB (c + i + (8 - x))).toNat))

/-- ZIP: byte m of descriptor i is old byte lane i of register m of the group (R114). -/
def Obligations.ZipTransposesTheGroup : Prop :=
  ∀ (s : State) (g : Group), s.halted = false →
    decode (BitVec.ofNat 32 (0x24000000 + g.val * 2 ^ 20)) = some (.zip g) ∧
    ∃ t, exec (.zip g) s = .next t ∧
      (∀ i < 16, ∀ m < 4, wordByte (t.groupLane g i) m = byteLane (s.readV (groupReg g m)) i) ∧
      (∀ k < 4, ∀ c < 4, ∀ m < 4, byteLane (t.readV (groupReg g k)) (4 * c + m) =
        byteLane (s.readV (groupReg g m)) (4 * k + c)) ∧
      (∀ i, inGroup g i = false → t.readV i = s.readV i) ∧
      KeepsR s t ∧ KeepsP s t ∧ KeepsS s t ∧ KeepsMem s t ∧ CompletesQuietly s t

/-- PCXOR: byte lane i is the population count of G(gl).w[i] XOR H(gr).w[(i+off) mod 32] (R131). -/
def Obligations.PcxorCountsSixteenLanes : Prop :=
  ∀ (s : State) (d : VReg) (gl : Group) (gr : DoubleGroup) (off : Fin 32), s.halted = false →
    decode (BitVec.ofNat 32
      (0x30000000 + d.val * 2 ^ 20 + gl.val * 2 ^ 16 + gr.val * 2 ^ 12 + off.val)) =
      some (.pcxor d gl gr off) ∧
    ∃ t, exec (.pcxor d gl gr off) s = .next t ∧
      (∀ i < 16, (byteLane (t.readV d) i).toNat =
        popcount32 (s.groupLane gl i ^^^ s.doubleLane gr ((i + off.val) % 32))) ∧
      (∀ i, i ≠ d → t.readV i = s.readV i) ∧
      KeepsR s t ∧ KeepsP s t ∧ KeepsS s t ∧ KeepsMem s t ∧ CompletesQuietly s t

/-- SHUP moves every descriptor of H(gr) one lane up, lane 31 to lane 0 (R133). -/
def Obligations.ShupRotatesTheRing : Prop :=
  ∀ (s : State) (gr : DoubleGroup), s.halted = false →
    decode (BitVec.ofNat 32 (0x31000000 + gr.val * 2 ^ 20)) = some (.shup gr) ∧
    ∃ t, exec (.shup gr) s = .next t ∧
      (∀ j < 32, t.doubleLane gr ((j + 1) % 32) = s.doubleLane gr j) ∧
      (∀ k < 8, (∀ c, 1 ≤ c → c < 4 → wordLane (t.readV (doubleReg gr k)) c =
          wordLane (s.readV (doubleReg gr k)) (c - 1)) ∧
        wordLane (t.readV (doubleReg gr k)) 0 = wordLane (s.readV (doubleReg gr ((k + 7) % 8))) 3) ∧
      (∀ i, inDouble gr i = false → t.readV i = s.readV i) ∧
      KeepsR s t ∧ KeepsP s t ∧ KeepsS s t ∧ KeepsMem s t ∧ CompletesQuietly s t

/-- SHUP then PCXOR with offset off is PCXOR with off - 1 before it; s SHUPs rotate by s lanes (R135).
-/
def Obligations.ShupShiftsThePcxorOffset : Prop :=
  (∀ (s : State) (d : VReg) (gl : Group) (gr : DoubleGroup) (off : Fin 32), s.halted = false →
    GroupApart gl gr →
    ∃ t u v, exec (.shup gr) s = .next t ∧ exec (.pcxor d gl gr off) t = .next u ∧
      exec (.pcxor d gl gr (Fin.ofNat 32 (off.val + 31))) s = .next v ∧ u.readV d = v.readV d) ∧
  (∀ (n : Nat) (s : State) (gr : DoubleGroup), s.halted = false →
    ∃ t, execSeq (List.replicate n (.shup gr)) s = .next t ∧
      ∀ j < 32, t.doubleLane gr ((j + n) % 32) = s.doubleLane gr j)

/-- After n SHUPs, PCXOR with offset 4q is the cost patch row of disparity 16 - 4q + n (R136, R172,
R176). -/
def Obligations.SweepRowIsTheCostPatchRow : Prop :=
  ∀ (s : State) (d : VReg) (gl : Group) (gr : DoubleGroup) (n q : Nat), s.halted = false →
    GroupApart gl gr → n < 4 → 1 ≤ q → q ≤ 4 →
    ∃ t, execSeq (List.replicate n (.shup gr) ++ [.pcxor d gl gr (Fin.ofNat 32 (4 * q))]) s = .next t ∧
      ∀ px < 16,
        (byteLane (t.readV d) px).toNat =
            popcount32 (s.groupLane gl px ^^^ s.doubleLane gr (px + 4 * q - n)) ∧
          byteLane (t.readV d) px = s.cost gl gr false (16 - 4 * q + n) px

/-- AGGR writes the 16 by 16 cost patch, masks the edge, rotates H(gr) by four lanes (row starts modulo
2^32: log 12) (R172, R174, R175, R173, R53). -/
def Obligations.AggrWritesPatchAndRotates : Prop :=
  ∀ (s : State) (d p : SReg) (gl : Group) (gr : DoubleGroup) (e : Bool), s.halted = false →
    AggrRowsApart s d p → AggrRowsValid s d p →
    ∃ t, exec (.aggr d p gl gr e) s = .next t ∧
      (∀ dsp < 16, ∀ px < 16, (t.mem.read ((s.rowAddr d p dsp).toNat + px)).toNat =
        if e = true ∧ px < dsp then 0
        else popcount32 (s.groupLane gl px ^^^ s.doubleLane gr (px + 16 - dsp))) ∧
      (∀ x, (∀ dsp < 16, ∀ px < 16, x ≠ (s.rowAddr d p dsp).toNat + px) →
        t.mem.read x = s.mem.read x) ∧
      (∀ k < 8, t.readV (doubleReg gr k) = s.readV (doubleReg gr ((k + 7) % 8))) ∧
      (∀ i, inDouble gr i = false → t.readV i = s.readV i) ∧
      KeepsR s t ∧ KeepsP s t ∧ KeepsS s t ∧ CompletesQuietly s t

/-- AGGR and EXTRACT words decode to their operands (R152, R171, R76). -/
def Obligations.AggrEncodingIsRead : Prop :=
  (∀ (d p : SReg) (gl : Group) (gr : DoubleGroup) (e : Bool),
    decode (BitVec.ofNat 32 (0x41000000 + d.val * 2 ^ 20 + p.val * 2 ^ 16 + gl.val * 2 ^ 12 +
      gr.val * 2 ^ 8 + e.toNat * 2 ^ 4)) = some (.aggr d p gl gr e)) ∧
  (∀ src w h sp dst dp : SReg,
    decode (BitVec.ofNat 32 (0x40000000 + src.val * 2 ^ 20 + w.val * 2 ^ 16 + h.val * 2 ^ 12 +
      sp.val * 2 ^ 8 + dst.val * 2 ^ 4 + dp.val)) = some (.extract src w h sp dst dp))

/-- dst_pitch at least 16 with all rows below 2^32 meets AGGR's contract (as log 12 reads it) (R173). -/
def Obligations.AggrPitchConditionSuffices : Prop :=
  (∀ (s : State) (d p : SReg), 16 ≤ (s.readS p).toNat →
    (s.readS d).toNat + 15 * (s.readS p).toNat + 16 ≤ 2 ^ 32 → AggrRowsApart s d p) ∧
  (∀ (s : State) (d p : SReg), s.aggrContract d p = true ↔ AggrRowsApart s d p)

/-- A cost is the number of bit positions in which the two descriptors differ; the edge mask puts 0
(R13, R15, R131, R172, R175). -/
def Obligations.CostIsAHammingDistance : Prop :=
  (∀ w : Word, popcount32 w = ((Finset.range 32).filter fun k => w.getLsbD k = true).card) ∧
  (∀ (s : State) (gl : Group) (gr : DoubleGroup) (dsp px : Nat), dsp < 16 → px < 16 →
    (s.cost gl gr false dsp px).toNat = ((Finset.range 32).filter fun k =>
      (s.groupLane gl px).getLsbD k ≠ (s.doubleLane gr (px + 16 - dsp)).getLsbD k).card ∧
    (s.cost gl gr false dsp px = 0 ↔ s.groupLane gl px = s.doubleLane gr (px + 16 - dsp)) ∧
    (s.cost gl gr false dsp px).toNat ≤ 32 ∧
    ((s.groupLane gl px).getLsbD 31 = false →
      (s.doubleLane gr (px + 16 - dsp)).getLsbD 31 = false → (s.cost gl gr false dsp px).toNat ≤ 31) ∧
    s.cost gl gr true dsp px = if px < dsp then 0 else s.cost gl gr false dsp px)

/-- AGGR outside its contract still completes and rotates; the surviving bytes are open (log 11) (R173,
93_implementation_defined.md U4, R174). -/
def Obligations.AggrOverlappingRowsComplete : Prop :=
  ∀ (s : State) (d p : SReg) (gl : Group) (gr : DoubleGroup) (e : Bool), s.halted = false →
    ¬AggrRowsApart s d p → AggrRowsValid s d p →
    ∃ t, exec (.aggr d p gl gr e) s = .next t ∧
      (∀ x, x ∉ s.aggrFootprint d p → t.mem.read x = s.mem.read x) ∧
      ((∀ i < 16, (s.rowAddr d p i).toNat + 16 ≤ 2 ^ 32) →
        ∀ x ∈ s.aggrFootprint d p, ∃ dsp < 16, ∃ px < 16,
          byteAddr (s.rowAddr d p dsp) px = x ∧ t.mem.read x = s.cost gl gr e dsp px) ∧
      (∀ k < 8, t.readV (doubleReg gr k) = s.readV (doubleReg gr ((k + 7) % 8))) ∧
      (∀ i, inDouble gr i = false → t.readV i = s.readV i) ∧
      KeepsR s t ∧ KeepsP s t ∧ KeepsS s t ∧ CompletesQuietly s t

/-- AGGR with an invalid address halts; only its own valid writes and H(gr) may have changed (R56, R182,
93_implementation_defined.md U5). -/
def Obligations.AggrMemErrorIsImprecise : Prop :=
  ∀ (s : State) (d p : SReg) (gl : Group) (gr : DoubleGroup) (e : Bool), s.halted = false →
    ¬AggrRowsValid s d p →
    ∃ t, exec (.aggr d p gl gr e) s = .next t ∧
      RecordsMemError (.aggr d p gl gr e) (s.aggrFootprint d p) s t ∧
      (∀ x, t.mem.read x = s.mem.read x ∨ (s.memValid x = true ∧
        ∃ c ∈ s.aggrCells d p gl gr e, c.1 = x ∧ t.mem.read x = c.2)) ∧
      (∀ i, inDouble gr i = false → t.readV i = s.readV i) ∧
      KeepsR s t ∧ KeepsP s t ∧ KeepsS s t

/-- census: each of the 32 bits is the comparison the layout names, bit 31 is zero (R151). -/
def Obligations.CensusFollowsTheBitLayout : Prop :=
  ∀ (pix : Nat → Nat → Byte) (px py : Nat),
    (∀ dx < 4, ∀ o : Fin 7, (census pix px py).getLsbD (8 * dx + o.val) =
      decide ((pix (px + dx) (py + [0, 2, 4, 6, 1, 3, 5][o])).toNat <
        (pix (px + (8 - dx)) (py + (6 - [0, 2, 4, 6, 1, 3, 5][o]))).toNat)) ∧
    (census pix px py).getLsbD 7 = decide ((pix (px + 4) py).toNat < (pix (px + 4) (py + 6)).toNat) ∧
    (census pix px py).getLsbD 15 =
      decide ((pix (px + 4) (py + 2)).toNat < (pix (px + 4) (py + 4)).toNat) ∧
    (census pix px py).getLsbD 23 =
      decide ((pix (px + 4) (py + 1)).toNat < (pix (px + 4) (py + 5)).toNat) ∧
    (census pix px py).getLsbD 31 = false

/-- EXTRACT of an undersized image sets TS, touches nothing, and completes; TS is sticky (R153). -/
def Obligations.ExtractUndersizedSetsTooSmall : Prop :=
  (∀ (s : State) (src w h sp dst dp : SReg), s.halted = false →
    (s.readS w).toNat < 24 ∨ (s.readS h).toNat < 8 →
    ∃ t, exec (.extract src w h sp dst dp) s = .next t ∧
      t.status.ts = true ∧ t.status.ill = s.status.ill ∧ t.status.merr = s.status.merr ∧
      KeepsErrors s t ∧ KeepsRegisters s t ∧ KeepsMem s t ∧ KeepsOutside s t ∧
      t.cmdCnt = s.cmdCnt + 1) ∧
  (∀ (s : State) (src w h sp dst dp : SReg), s.halted = false →
    ∃ t, exec (.extract src w h sp dst dp) s = .next t ∧
      t.status.ts = (s.status.ts || decide ((s.readS w).toNat < 24) || decide ((s.readS h).toNat < 8)))

/-- EXTRACT's tiled walk leaves exactly the closed-form descriptor field in memory (R158). -/
def Obligations.ExtractWritesTheDescriptorField : Prop :=
  ∀ (s : State) (src w h sp dst dp : SReg), s.halted = false →
    (s.extractJob src w h sp dst dp).Clean s →
    ∃ t, exec (.extract src w h sp dst dp) s = .next t ∧
      (s.extractJob src w h sp dst dp).FieldWritten s t ∧
      KeepsRegisters s t ∧ CompletesQuietly s t

/-- EXTRACT with a source pitch below the width leaves the same descriptor field (log 10) (R154, R158,
93_implementation_defined.md U3). -/
def Obligations.ExtractAcceptsNarrowSourcePitch : Prop :=
  ∀ (s : State) (src w h sp dst dp : SReg), s.halted = false →
    (s.extractJob src w h sp dst dp).CleanNarrow s →
    ∃ t, exec (.extract src w h sp dst dp) s = .next t ∧
      (s.extractJob src w h sp dst dp).FieldWritten s t ∧
      KeepsRegisters s t ∧ CompletesQuietly s t

/-- Executing the same EXTRACT twice leaves memory as one execution does (R160, R158). -/
def Obligations.ExtractTwiceIsExtractOnce : Prop :=
  ∀ (s : State) (src w h sp dst dp : SReg), s.halted = false →
    (s.extractJob src w h sp dst dp).Clean s →
    ∃ t u, exec (.extract src w h sp dst dp) s = .next t ∧
      exec (.extract src w h sp dst dp) t = .next u ∧ KeepsMem t u ∧ KeepsRegisters t u

/-- For every valid parameter record the walk visits exactly the output region, inside the image (R156,
R159, R10, R9). -/
def Obligations.TilingCoversExactlyTheOutput : Prop :=
  ∀ (p : Params) (wOut hOut : Nat), p.valid = true → p.hStep ≤ wOut → p.vStep ≤ hOut →
    (∀ o ∈ stepOrigins p wOut hOut, o.1 ≤ wOut - p.hStep ∧ o.2 ≤ hOut - p.vStep) ∧
    (∀ x y, (x, y) ∈ walk p wOut hOut ↔ x < wOut ∧ y < hOut)

/-- EXTRACT inside its contract or outside it completes and writes only its output region (logs 9, 10)
(R154, 93_implementation_defined.md U3). -/
def Obligations.ExtractOutsideContractCompletes : Prop :=
  ∀ (s : State) (src w h sp dst dp : SReg), s.halted = false →
    24 ≤ (s.readS w).toNat → 8 ≤ (s.readS h).toNat →
    (∀ a ∈ (s.extractJob src w h sp dst dp).footprint, s.memValid a = true) →
    ∃ t, exec (.extract src w h sp dst dp) s = .next t ∧
      (∀ a, a ∉ (s.extractJob src w h sp dst dp).region → t.mem.read a = s.mem.read a) ∧
      KeepsRegisters s t ∧ CompletesQuietly s t

/-- EXTRACT with an invalid address halts; only its own valid writes may have been performed (R56, R182,
R185). -/
def Obligations.ExtractMemErrorIsImprecise : Prop :=
  ∀ (s : State) (src w h sp dst dp : SReg), s.halted = false →
    24 ≤ (s.readS w).toNat → 8 ≤ (s.readS h).toNat →
    (∃ a ∈ (s.extractJob src w h sp dst dp).footprint, s.memValid a = false) →
    ∃ t, exec (.extract src w h sp dst dp) s = .next t ∧
      RecordsMemError (.extract src w h sp dst dp) (s.extractJob src w h sp dst dp).footprint s t ∧
      (∀ x, t.mem.read x = s.mem.read x ∨ (s.memValid x = true ∧
        ∃ c ∈ s.extractCells (s.extractJob src w h sp dst dp), c.1 = x ∧ t.mem.read x = c.2)) ∧
      KeepsRegisters s t

/-- Decode and encode agree: decode of encode i is i, for every command (R72, R73, R74, R76). -/
def Obligations.DecodeOfEncodeIsTheCommand : Prop :=
  ∀ i : Instr, decode (encode i) = some i

/-- Every legal word is the encoding of the command it decodes to (R74, R76, R33). -/
def Obligations.LegalWordIsItsCommandsEncoding : Prop :=
  ∀ (w : Word) (i : Instr), decode w = some i → encode i = w

/-- No two rows of the opcode table match the same word, and decoding is the matching row's reading
(R74). -/
def Obligations.NoTwoRowsMatchOneWord : Prop :=
  (opcodeTable.Pairwise fun r q => ∀ w : Word, ¬(w &&& r.mask = r.pattern ∧ w &&& q.mask = q.pattern)) ∧
  (∀ (w : Word) (i : Instr), decode w = some i ↔
    ∃ r ∈ opcodeTable, w &&& r.mask = r.pattern ∧ i = r.read w) ∧
  (∀ w : Word, decode w = none ↔ ∀ r ∈ opcodeTable, w &&& r.mask ≠ r.pattern)

/-- A word decodes exactly when its fields obey the format rules (R71, R72, R76, R77). -/
def Obligations.MasksAgreeWithTheFieldRules : Prop :=
  ∀ w : Word, (decode w).isSome = (Fields.cut w).wellFormed

/-- A few words written out from the encoding tables decode to their commands, and near misses are
illegal (R75, R76, R77). -/
def Obligations.SampleWordsDecode : Prop :=
  decode 0x01700008#32 = some (.setlo 7 0x0008#16) ∧
  decode 0x10017000#32 = some (.ldpr 0 1 7) ∧
  decode 0x12289200#32 = some (.std 2 8 9 2) ∧
  decode 0x21110300#32 = some (.selb 1 1 0 3) ∧
  decode 0x3043101F#32 = some (.pcxor 4 3 1 31) ∧
  decode 0x40012345#32 = some (.extract 0 1 2 3 4 5) ∧
  decode 0x41010110#32 = some (.aggr 0 1 0 1 true) ∧
  decode 0x00000000#32 = none ∧ decode 0xFFFFFFFF#32 = none ∧ decode 0x21110B00#32 = none ∧
  decode 0x30401020#32 = none ∧ decode 0x41010210#32 = none

/-- A step runs the decoded command the host delivers (R58, R70, R185). -/
def Obligations.StepRunsTheDecodedCommand : Prop :=
  ∀ (s : State) (w : Word) (rest : List HostEvent) (i : Instr),
    s.port = .command w :: rest → s.halted = false → decode w = some i →
    step s = exec i { s with port := rest }

/-- With nothing delivered the block is idle and keeps all its state (R195, R28). -/
def Obligations.IdleBlockKeepsItsState : Prop :=
  ∀ s : State, s.port = [] → step s = .next s

/-- An illegal word sets ILL, records the word, halts the block and changes nothing else (R181). -/
def Obligations.IllegalWordHaltsPrecisely : Prop :=
  ∀ (s : State) (w : Word) (rest : List HostEvent),
    s.port = .command w :: rest → s.halted = false →
    (∀ r ∈ opcodeTable, w &&& r.mask ≠ r.pattern) →
    ∃ t, step s = .next t ∧
      t = { s with port := rest, status := { s.status with ill := true }, errWord := w } ∧
      t.halted = true

/-- A halted block discards every command word, and only a reset event ends the halt (R184). -/
def Obligations.HaltedBlockDiscardsEveryWord : Prop :=
  (∀ s : State, s.halted = true ↔ (s.status.ill = true ∨ s.status.merr = true)) ∧
  (∀ (s : State) (w : Word) (rest : List HostEvent),
    s.port = .command w :: rest → s.halted = true → step s = .next { s with port := rest }) ∧
  (∀ s t : State, s.halted = true → step s = .next t → t.halted = false →
    ∃ rest, s.port = .reset :: rest ∨ ∃ w, s.port = .resetDuring w :: rest) ∧
  (∀ s t : State, s.halted = true → step s = .next t → t.halted = true →
    t.status = s.status ∧ KeepsErrors s t ∧ t.cmdCnt = s.cmdCnt)

/-- Every command answers a next state: counted, or a MemError with CMDCNT frozen (R35, R182, R212). -/
def Obligations.EveryCommandCompletesOrRecordsMemError : Prop :=
  ∀ (i : Instr) (s : State), s.halted = false →
    ∃ t, exec i s = .next t ∧
      ((t.halted = false ∧ t.cmdCnt = s.cmdCnt + 1 ∧ KeepsErrors s t) ∨
        (t.status.merr = true ∧ t.status.ill = false ∧ t.cmdCnt = s.cmdCnt ∧ t.errWord = encode i ∧
          s.memValid t.errAddr.toNat = false))

/-- Only LDPR, LDV, STD, EXTRACT and AGGR can halt the block; the other eleven complete (R100, R130,
R180). -/
def Obligations.OnlyFiveCommandsRaiseMemError : Prop :=
  ∀ (i : Instr) (s : State), s.halted = false →
    (∀ t, exec i s = .next t → t.halted = true →
      (∃ d a p, i = .ldpr d a p) ∨ (∃ d a p n, i = .ldv d a p n) ∨ (∃ a d p n, i = .std a d p n) ∨
        (∃ src w h sp dst dp, i = .extract src w h sp dst dp) ∨ ∃ d p gl gr e, i = .aggr d p gl gr e) ∧
    (((∃ d a p, i = .ldpr d a p) ∨ (∃ d a p n, i = .ldv d a p n) ∨ (∃ a d p n, i = .std a d p n) ∨
        (∃ src w h sp dst dp, i = .extract src w h sp dst dp) ∨ ∃ d p gl gr e, i = .aggr d p gl gr e) ∨
      ∃ t, exec i s = .next t ∧ t.halted = false ∧ t.cmdCnt = s.cmdCnt + 1)

/-- P is written by CMPPR only, R by LDPR, TRPR, ROLL, S by SETLO, SETHI, memory by STD and the engines
(R22, R23, R24, R27, R50). -/
def Obligations.EachFileIsWrittenByItsCommandsOnly : Prop :=
  ∀ (i : Instr) (s t : State), exec i s = .next t →
    (¬KeepsP s t → ∃ d a b, i = .cmppr d a b) ∧
    (¬KeepsR s t → (∃ d a p, i = .ldpr d a p) ∨ (∃ a b, i = .trpr a b) ∨ ∃ d a x, i = .roll d a x) ∧
    (¬KeepsS s t → (∃ d v, i = .setlo d v) ∨ ∃ d v, i = .sethi d v) ∧
    (¬KeepsV s t → (∃ d, i = .vclr d) ∨ (∃ d a p n, i = .ldv d a p n) ∨ (∃ d a p b, i = .selb d a p b) ∨
      (∃ g, i = .zip g) ∨ (∃ d gl gr off, i = .pcxor d gl gr off) ∨ (∃ gr, i = .shup gr) ∨
      ∃ d p gl gr e, i = .aggr d p gl gr e) ∧
    (¬KeepsMem s t → (∃ a d p n, i = .std a d p n) ∨
      (∃ src w h sp dst dp, i = .extract src w h sp dst dp) ∨ ∃ d p gl gr e, i = .aggr d p gl gr e) ∧
    (t.status.ts ≠ s.status.ts → i = .clrst ∨
      ∃ src w h sp dst dp, i = .extract src w h sp dst dp)

/-- Every step answers a next state, takes one host event and leaves the platform alone (R212, R58,
R37). -/
def Obligations.EveryStepAnswersAndConsumesOneEvent : Prop :=
  ∀ s : State, ∃ t, step s = .next t ∧ t.port = s.port.tail ∧ t.backed = s.backed

/-- The invariant holds in the reset state (R33, R34, R188, R201). -/
def Obligations.InvariantHoldsAtReset : Prop :=
  State.reset.Inv

/-- Every step keeps the invariant of memory and of the error registers (R33, R34, R188). -/
def Obligations.EveryStepKeepsTheInvariant : Prop :=
  ∀ s t : State, s.Inv → step s = .next t → t.Inv

/-- A reset zeroes the control registers and leaves memory alone but for an abandoned command's writes
(log 13) (R200, R201, R56, 93_implementation_defined.md U2). -/
def Obligations.ResetEventsLeaveTheResetState : Prop :=
  (∀ (s : State) (rest : List HostEvent), s.port = .reset :: rest →
    ∃ t, step s = .next t ∧ t.JustReset ∧ t.halted = false ∧
      (∀ n < 4, t.readControl n = 0) ∧ t.readControl 4 = 0x01021010#32 ∧
      t.readControl 5 = 0x20200818#32 ∧ KeepsMem s t ∧ t.backed = s.backed ∧ t.port = rest) ∧
  (∀ (s : State) (w : Word) (rest : List HostEvent), s.port = .resetDuring w :: rest →
    ∃ t, step s = .next t ∧ t.JustReset ∧ t.halted = false ∧
      (∀ n < 4, t.readControl n = 0) ∧ t.readControl 4 = 0x01021010#32 ∧
      t.readControl 5 = 0x20200818#32 ∧ t.backed = s.backed ∧ t.port = rest ∧
      (∀ x, t.mem.read x = s.mem.read x ∨ (s.memValid x = true ∧
        ∃ i, s.halted = false ∧ decode w = some i ∧
          ∃ c ∈ commandCells i s, c.1 = x ∧ t.mem.read x = c.2)))

/-- After power-on reset the six control registers read the values of the reset table (R201, R30). -/
def Obligations.ResetStateReadsAsTheTableSays : Prop :=
  State.reset.JustReset ∧ (∀ n < 4, State.reset.readControl n = 0#32) ∧
    State.reset.readControl 4 = 0x01021010#32 ∧ State.reset.readControl 5 = 0x20200818#32 ∧
    State.reset.halted = false

/-- The control read-back port: six registers by index, zero from index 6 on, CFG fields as hardwired
(R36). -/
def Obligations.ControlPortReadsTheSixRegisters : Prop :=
  (∀ s : State, s.readControl 0 = s.status.word ∧ s.readControl 1 = s.errWord ∧
    s.readControl 2 = s.errAddr ∧ s.readControl 3 = s.cmdCnt ∧
    s.readControl 4 = 0x01021010#32 ∧ s.readControl 5 = 0x20200818#32 ∧
    ∀ n, 6 ≤ n → s.readControl n = 0) ∧
  (∀ s : State, ((s.readControl 4).extractLsb' 0 8).toNat = 16 ∧
    ((s.readControl 4).extractLsb' 8 8).toNat = 16 ∧ ((s.readControl 4).extractLsb' 16 8).toNat = 2 ∧
    ((s.readControl 4).extractLsb' 24 8).toNat = 1 ∧ ((s.readControl 5).extractLsb' 0 8).toNat = 24 ∧
    ((s.readControl 5).extractLsb' 8 8).toNat = 8 ∧ ((s.readControl 5).extractLsb' 16 8).toNat = 32 ∧
    ((s.readControl 5).extractLsb' 24 8).toNat = 32)

/-- STATUS reads TS, ILL, MERR, HALT in bits 0 to 3, HALT = ILL OR MERR, the rest zero (R32, R184). -/
def Obligations.StatusWordHasItsFourBits : Prop :=
  ∀ s : State, (s.readControl 0).getLsbD 0 = s.status.ts ∧
    (s.readControl 0).getLsbD 1 = s.status.ill ∧ (s.readControl 0).getLsbD 2 = s.status.merr ∧
    (s.readControl 0).getLsbD 3 = (s.status.ill || s.status.merr) ∧
    (∀ k, 4 ≤ k → (s.readControl 0).getLsbD k = false) ∧ (s.readControl 0).toNat ≤ 15

/-- A host write between commands is seen by the next command and changes nothing else (log 14) (R60,
R58). -/
def Obligations.HostWriteReachesBackedMemory : Prop :=
  ∀ (s : State) (a : Word) (b : Byte) (rest : List HostEvent), s.port = .hostWrite a b :: rest →
    ∃ t, step s = .next t ∧
      (s.memValid a.toNat = true → t.mem.read a.toNat = b) ∧
      (∀ x, x ≠ a.toNat ∨ s.memValid a.toNat = false → t.mem.read x = s.mem.read x) ∧
      KeepsRegisters s t ∧ t.status = s.status ∧ KeepsErrors s t ∧ t.cmdCnt = s.cmdCnt ∧
      t.backed = s.backed ∧ t.port = rest

/-- The parameter record of SGMCORE-128 meets every clause of the validity rule (R8, R9). -/
def Obligations.ParametersAreValid : Prop :=
  Config.params.valid = true
end

