-- ==== Sys2Proof/Laws/Decode.lean ====
section
/-! SUPPORT. Words and their cut, field by field: a mask test is a test of each field, an operand is a
field. -/

namespace Sys2Proof

/-- Field by field AND. -/
def Fields.and (x y : Fields) : Fields :=
  ⟨x.op &&& y.op, x.f1 &&& y.f1, x.f2 &&& y.f2, x.f3 &&& y.f3, x.f4 &&& y.f4, x.f5 &&& y.f5, x.f6 &&& y.f6⟩

theorem Fields.toNat_word (x : Fields) : x.word.toNat =
    x.op.toNat * 2 ^ 24 + x.f1.toNat * 2 ^ 20 + x.f2.toNat * 2 ^ 16 +
    x.f3.toNat * 2 ^ 12 + x.f4.toNat * 2 ^ 8 + x.f5.toNat * 2 ^ 4 + x.f6.toNat := by
  have h0 := x.op.isLt
  have h1 := x.f1.isLt
  have h2 := x.f2.isLt
  have h3 := x.f3.isLt
  have h4 := x.f4.isLt
  have h5 := x.f5.isLt
  have h6 := x.f6.isLt
  rw [Fields.word, BitVec.toNat_ofNat]
  omega

/-- The number of a word, cut as rule R71 cuts it. -/
theorem nibbles_of_nat (n : Nat) (h : n < 2 ^ 32) :
    n / 2 ^ 24 % 2 ^ 8 * 2 ^ 24 + n / 2 ^ 20 % 2 ^ 4 * 2 ^ 20 + n / 2 ^ 16 % 2 ^ 4 * 2 ^ 16 +
      n / 2 ^ 12 % 2 ^ 4 * 2 ^ 12 + n / 2 ^ 8 % 2 ^ 4 * 2 ^ 8 + n / 2 ^ 4 % 2 ^ 4 * 2 ^ 4 +
      n / 2 ^ 0 % 2 ^ 4 = n := by
  have e2 : n / 2 ^ 8 = n / 2 ^ 4 / 2 ^ 4 := by rw [Nat.div_div_eq_div_mul, ← Nat.pow_add]
  have e3 : n / 2 ^ 12 = n / 2 ^ 8 / 2 ^ 4 := by rw [Nat.div_div_eq_div_mul, ← Nat.pow_add]
  have e4 : n / 2 ^ 16 = n / 2 ^ 12 / 2 ^ 4 := by rw [Nat.div_div_eq_div_mul, ← Nat.pow_add]
  have e5 : n / 2 ^ 20 = n / 2 ^ 16 / 2 ^ 4 := by rw [Nat.div_div_eq_div_mul, ← Nat.pow_add]
  have e6 : n / 2 ^ 24 = n / 2 ^ 20 / 2 ^ 4 := by rw [Nat.div_div_eq_div_mul, ← Nat.pow_add]
  have h6 : n / 2 ^ 24 < 2 ^ 8 := Nat.div_lt_of_lt_mul (by rw [← Nat.pow_add]; exact h)
  rw [Nat.mod_eq_of_lt h6]
  generalize n / 2 ^ 24 = m6 at *
  generalize n / 2 ^ 20 = m5 at *
  generalize n / 2 ^ 16 = m4 at *
  generalize n / 2 ^ 12 = m3 at *
  generalize n / 2 ^ 8 = m2 at *
  generalize hm1 : n / 2 ^ 4 = m1 at *
  have d1 := Nat.div_add_mod n (2 ^ 4)
  have d2 := Nat.div_add_mod m1 (2 ^ 4)
  have d3 := Nat.div_add_mod m2 (2 ^ 4)
  have d4 := Nat.div_add_mod m3 (2 ^ 4)
  have d5 := Nat.div_add_mod m4 (2 ^ 4)
  have d6 := Nat.div_add_mod m5 (2 ^ 4)
  rw [hm1] at d1
  rw [← e2] at d2
  rw [← e3] at d3
  rw [← e4] at d4
  rw [← e5] at d5
  rw [← e6] at d6
  rw [Nat.pow_zero, Nat.div_one]
  linarith

/-- A word is made of its fields (rule R71). -/
@[simp] theorem Fields.word_cut (w : Word) : (Fields.cut w).word = w := by
  apply BitVec.eq_of_toNat_eq
  rw [Fields.toNat_word]
  simp only [Fields.cut, BitVec.extractLsb'_toNat, Nat.shiftRight_eq_div_pow]
  exact nibbles_of_nat w.toNat w.isLt

/-- A number put together from a low part, a middle digit and a high part, read at the digit. -/
theorem digit_of_sum (lo mid hi a b : Nat) (h : lo < 2 ^ a) (hm : mid < 2 ^ b) :
    (lo + 2 ^ a * (mid + 2 ^ b * hi)) / 2 ^ a % 2 ^ b = mid := by
  rw [Nat.add_mul_div_left _ _ (Nat.two_pow_pos a), Nat.div_eq_of_lt h, Nat.zero_add,
    Nat.add_mul_mod_self_left, Nat.mod_eq_of_lt hm]

theorem word_digit_0 {n0 n1 n2 n3 n4 n5 n6 : Nat}
    (h0 : n0 < 2 ^ 8) (h1 : n1 < 2 ^ 4) (h2 : n2 < 2 ^ 4) (h3 : n3 < 2 ^ 4) (h4 : n4 < 2 ^ 4) (h5 : n5 < 2 ^ 4) (h6 : n6 < 2 ^ 4) :
    (n0 * 2 ^ 24 + n1 * 2 ^ 20 + n2 * 2 ^ 16 + n3 * 2 ^ 12 + n4 * 2 ^ 8 + n5 * 2 ^ 4 + n6) / 2 ^ 24 %
      2 ^ 8 = n0 := by
  rw [show n0 * 2 ^ 24 + n1 * 2 ^ 20 + n2 * 2 ^ 16 + n3 * 2 ^ 12 + n4 * 2 ^ 8 + n5 * 2 ^ 4 + n6 =
      (n1 * 2 ^ 20 + n2 * 2 ^ 16 + n3 * 2 ^ 12 + n4 * 2 ^ 8 + n5 * 2 ^ 4 + n6) + 2 ^ 24 * (n0 + 2 ^ 8 * 0) by ring]
  exact digit_of_sum (n1 * 2 ^ 20 + n2 * 2 ^ 16 + n3 * 2 ^ 12 + n4 * 2 ^ 8 + n5 * 2 ^ 4 + n6) n0 0 24 8 (by omega) h0

theorem word_digit_1 {n0 n1 n2 n3 n4 n5 n6 : Nat}
    (h1 : n1 < 2 ^ 4) (h2 : n2 < 2 ^ 4) (h3 : n3 < 2 ^ 4) (h4 : n4 < 2 ^ 4) (h5 : n5 < 2 ^ 4) (h6 : n6 < 2 ^ 4) :
    (n0 * 2 ^ 24 + n1 * 2 ^ 20 + n2 * 2 ^ 16 + n3 * 2 ^ 12 + n4 * 2 ^ 8 + n5 * 2 ^ 4 + n6) / 2 ^ 20 %
      2 ^ 4 = n1 := by
  rw [show n0 * 2 ^ 24 + n1 * 2 ^ 20 + n2 * 2 ^ 16 + n3 * 2 ^ 12 + n4 * 2 ^ 8 + n5 * 2 ^ 4 + n6 =
      (n2 * 2 ^ 16 + n3 * 2 ^ 12 + n4 * 2 ^ 8 + n5 * 2 ^ 4 + n6) + 2 ^ 20 * (n1 + 2 ^ 4 * n0) by ring]
  exact digit_of_sum (n2 * 2 ^ 16 + n3 * 2 ^ 12 + n4 * 2 ^ 8 + n5 * 2 ^ 4 + n6) n1 n0 20 4 (by omega) h1

theorem word_digit_2 {n0 n1 n2 n3 n4 n5 n6 : Nat}
    (h2 : n2 < 2 ^ 4) (h3 : n3 < 2 ^ 4) (h4 : n4 < 2 ^ 4) (h5 : n5 < 2 ^ 4) (h6 : n6 < 2 ^ 4) :
    (n0 * 2 ^ 24 + n1 * 2 ^ 20 + n2 * 2 ^ 16 + n3 * 2 ^ 12 + n4 * 2 ^ 8 + n5 * 2 ^ 4 + n6) / 2 ^ 16 %
      2 ^ 4 = n2 := by
  rw [show n0 * 2 ^ 24 + n1 * 2 ^ 20 + n2 * 2 ^ 16 + n3 * 2 ^ 12 + n4 * 2 ^ 8 + n5 * 2 ^ 4 + n6 =
      (n3 * 2 ^ 12 + n4 * 2 ^ 8 + n5 * 2 ^ 4 + n6) + 2 ^ 16 * (n2 + 2 ^ 4 * (n1 + 2 ^ 4 * n0)) by ring]
  exact digit_of_sum (n3 * 2 ^ 12 + n4 * 2 ^ 8 + n5 * 2 ^ 4 + n6) n2 (n1 + 2 ^ 4 * n0) 16 4 (by omega) h2

theorem word_digit_3 {n0 n1 n2 n3 n4 n5 n6 : Nat}
    (h3 : n3 < 2 ^ 4) (h4 : n4 < 2 ^ 4) (h5 : n5 < 2 ^ 4) (h6 : n6 < 2 ^ 4) :
    (n0 * 2 ^ 24 + n1 * 2 ^ 20 + n2 * 2 ^ 16 + n3 * 2 ^ 12 + n4 * 2 ^ 8 + n5 * 2 ^ 4 + n6) / 2 ^ 12 %
      2 ^ 4 = n3 := by
  rw [show n0 * 2 ^ 24 + n1 * 2 ^ 20 + n2 * 2 ^ 16 + n3 * 2 ^ 12 + n4 * 2 ^ 8 + n5 * 2 ^ 4 + n6 =
      (n4 * 2 ^ 8 + n5 * 2 ^ 4 + n6) + 2 ^ 12 * (n3 + 2 ^ 4 * (n2 + 2 ^ 4 * (n1 + 2 ^ 4 * n0))) by ring]
  exact digit_of_sum (n4 * 2 ^ 8 + n5 * 2 ^ 4 + n6) n3 (n2 + 2 ^ 4 * (n1 + 2 ^ 4 * n0)) 12 4 (by omega) h3

theorem word_digit_4 {n0 n1 n2 n3 n4 n5 n6 : Nat}
    (h4 : n4 < 2 ^ 4) (h5 : n5 < 2 ^ 4) (h6 : n6 < 2 ^ 4) :
    (n0 * 2 ^ 24 + n1 * 2 ^ 20 + n2 * 2 ^ 16 + n3 * 2 ^ 12 + n4 * 2 ^ 8 + n5 * 2 ^ 4 + n6) / 2 ^ 8 %
      2 ^ 4 = n4 := by
  rw [show n0 * 2 ^ 24 + n1 * 2 ^ 20 + n2 * 2 ^ 16 + n3 * 2 ^ 12 + n4 * 2 ^ 8 + n5 * 2 ^ 4 + n6 =
      (n5 * 2 ^ 4 + n6) + 2 ^ 8 * (n4 + 2 ^ 4 * (n3 + 2 ^ 4 * (n2 + 2 ^ 4 * (n1 + 2 ^ 4 * n0)))) by ring]
  exact digit_of_sum (n5 * 2 ^ 4 + n6) n4 (n3 + 2 ^ 4 * (n2 + 2 ^ 4 * (n1 + 2 ^ 4 * n0))) 8 4 (by omega) h4

theorem word_digit_5 {n0 n1 n2 n3 n4 n5 n6 : Nat}
    (h5 : n5 < 2 ^ 4) (h6 : n6 < 2 ^ 4) :
    (n0 * 2 ^ 24 + n1 * 2 ^ 20 + n2 * 2 ^ 16 + n3 * 2 ^ 12 + n4 * 2 ^ 8 + n5 * 2 ^ 4 + n6) / 2 ^ 4 %
      2 ^ 4 = n5 := by
  rw [show n0 * 2 ^ 24 + n1 * 2 ^ 20 + n2 * 2 ^ 16 + n3 * 2 ^ 12 + n4 * 2 ^ 8 + n5 * 2 ^ 4 + n6 =
      n6 + 2 ^ 4 * (n5 + 2 ^ 4 * (n4 + 2 ^ 4 * (n3 + 2 ^ 4 * (n2 + 2 ^ 4 * (n1 + 2 ^ 4 * n0))))) by ring]
  exact digit_of_sum n6 n5 (n4 + 2 ^ 4 * (n3 + 2 ^ 4 * (n2 + 2 ^ 4 * (n1 + 2 ^ 4 * n0)))) 4 4 (by omega) h5

theorem word_digit_6 {n0 n1 n2 n3 n4 n5 n6 : Nat}
    (h6 : n6 < 2 ^ 4) :
    (n0 * 2 ^ 24 + n1 * 2 ^ 20 + n2 * 2 ^ 16 + n3 * 2 ^ 12 + n4 * 2 ^ 8 + n5 * 2 ^ 4 + n6) / 2 ^ 0 %
      2 ^ 4 = n6 := by
  rw [show n0 * 2 ^ 24 + n1 * 2 ^ 20 + n2 * 2 ^ 16 + n3 * 2 ^ 12 + n4 * 2 ^ 8 + n5 * 2 ^ 4 + n6 =
      0 + 2 ^ 0 * (n6 + 2 ^ 4 * (n5 + 2 ^ 4 * (n4 + 2 ^ 4 * (n3 + 2 ^ 4 * (n2 + 2 ^ 4 * (n1 + 2 ^ 4 * n0)))))) by ring]
  exact digit_of_sum 0 n6 (n5 + 2 ^ 4 * (n4 + 2 ^ 4 * (n3 + 2 ^ 4 * (n2 + 2 ^ 4 * (n1 + 2 ^ 4 * n0))))) 0 4 (by omega) h6

/-- Cutting a word made of fields gives the fields back (rule R71). -/
@[simp] theorem Fields.cut_word (x : Fields) : Fields.cut x.word = x := by
  obtain ⟨op, f1, f2, f3, f4, f5, f6⟩ := x
  have cut_field : ∀ {n : Nat} (f : BitVec n) (s : Nat),
      (Fields.word ⟨op, f1, f2, f3, f4, f5, f6⟩).toNat / 2 ^ s % 2 ^ n = f.toNat →
      (Fields.word ⟨op, f1, f2, f3, f4, f5, f6⟩).extractLsb' s n = f := by
    intro n f s h
    apply BitVec.eq_of_toNat_eq
    rw [BitVec.extractLsb'_toNat, Nat.shiftRight_eq_div_pow, h]
  rw [Fields.toNat_word] at cut_field
  have e0 := cut_field op 24 (word_digit_0 op.isLt f1.isLt f2.isLt f3.isLt f4.isLt f5.isLt f6.isLt)
  have e1 := cut_field f1 20 (word_digit_1 f1.isLt f2.isLt f3.isLt f4.isLt f5.isLt f6.isLt)
  have e2 := cut_field f2 16 (word_digit_2 f2.isLt f3.isLt f4.isLt f5.isLt f6.isLt)
  have e3 := cut_field f3 12 (word_digit_3 f3.isLt f4.isLt f5.isLt f6.isLt)
  have e4 := cut_field f4 8 (word_digit_4 f4.isLt f5.isLt f6.isLt)
  have e5 := cut_field f5 4 (word_digit_5 f5.isLt f6.isLt)
  have e6 := cut_field f6 0 (word_digit_6 f6.isLt)
  rw [Fields.cut, e0, e1, e2, e3, e4, e5, e6]

theorem Fields.word_inj {x y : Fields} : x.word = y.word ↔ x = y := by
  refine ⟨fun h => ?_, fun h => by rw [h]⟩
  rw [← Fields.cut_word x, h, Fields.cut_word]

theorem Fields.cut_and (v w : Word) : Fields.cut (v &&& w) = (Fields.cut v).and (Fields.cut w) := by
  simp [Fields.cut, Fields.and, BitVec.extractLsb'_and]

/-- A mask test is a test of each field (rule R74). -/
theorem Row.accepts_iff (r : Row) (w : Word) :
    r.accepts w = true ↔ (Fields.cut w).and (Fields.cut r.mask) = Fields.cut r.pattern := by
  rw [Row.accepts, beq_iff_eq, ← Fields.cut_and, ← Fields.word_inj, Fields.word_cut, Fields.word_cut]

/-! ### Operands of a word made of fields -/

theorem nibble_toNat {n : Nat} (h : n < 16) : (nibble n).toNat = n := by
  rw [nibble, BitVec.toNat_ofNat, Nat.mod_eq_of_lt h]

/-- An operand of `m` values at word bit `lo` (rule R73). -/
theorem operandAt_val (m : Nat) [NeZero m] (lo : Nat) (w : Word) :
    (operandAt m lo w).val = w.toNat / 2 ^ lo % m := by
  rw [operandAt, Fin.val_ofNat, Nat.shiftRight_eq_div_pow]

/-- A field of a word, as a digit of its number (rule R71). -/
theorem cut_toNat (w : Word) (lo len : Nat) : w.toNat / 2 ^ lo % 2 ^ len = (w.extractLsb' lo len).toNat := by
  rw [BitVec.extractLsb'_toNat, Nat.shiftRight_eq_div_pow]

/-- A narrow operand is the low part of its field (rules R72, R73). -/
theorem operandAt_narrow (m : Nat) [NeZero m] (hm : m ∣ 16) (lo : Nat) (w : Word) :
    (operandAt m lo w).val = (w.extractLsb' lo 4).toNat % m := by
  rw [operandAt_val, ← cut_toNat, Nat.mod_mod_of_dvd _ (by simpa using hm)]

theorem operandAt_f1 (m : Nat) [NeZero m] (hm : m ∣ 16) (x : Fields) :
    (operandAt m 20 x.word).val = x.f1.toNat % m := by
  rw [operandAt_narrow m hm, show x.word.extractLsb' 20 4 = x.f1 from congrArg Fields.f1 x.cut_word]

theorem operandAt_f2 (m : Nat) [NeZero m] (hm : m ∣ 16) (x : Fields) :
    (operandAt m 16 x.word).val = x.f2.toNat % m := by
  rw [operandAt_narrow m hm, show x.word.extractLsb' 16 4 = x.f2 from congrArg Fields.f2 x.cut_word]

theorem operandAt_f3 (m : Nat) [NeZero m] (hm : m ∣ 16) (x : Fields) :
    (operandAt m 12 x.word).val = x.f3.toNat % m := by
  rw [operandAt_narrow m hm, show x.word.extractLsb' 12 4 = x.f3 from congrArg Fields.f3 x.cut_word]

theorem operandAt_f4 (m : Nat) [NeZero m] (hm : m ∣ 16) (x : Fields) :
    (operandAt m 8 x.word).val = x.f4.toNat % m := by
  rw [operandAt_narrow m hm, show x.word.extractLsb' 8 4 = x.f4 from congrArg Fields.f4 x.cut_word]

theorem operandAt_f5 (m : Nat) [NeZero m] (hm : m ∣ 16) (x : Fields) :
    (operandAt m 4 x.word).val = x.f5.toNat % m := by
  rw [operandAt_narrow m hm, show x.word.extractLsb' 4 4 = x.f5 from congrArg Fields.f5 x.cut_word]

theorem operandAt_f6 (m : Nat) [NeZero m] (hm : m ∣ 16) (x : Fields) :
    (operandAt m 0 x.word).val = x.f6.toNat % m := by
  rw [operandAt_narrow m hm, show x.word.extractLsb' 0 4 = x.f6 from congrArg Fields.f6 x.cut_word]

/-- The low 16 bits of a word are its last four fields (rule R71). -/
theorem low_half (x : Fields) : (x.word.extractLsb' 0 16).toNat =
    x.f3.toNat * 2 ^ 12 + x.f4.toNat * 2 ^ 8 + x.f5.toNat * 2 ^ 4 + x.f6.toNat := by
  have h3 := x.f3.isLt
  have h4 := x.f4.isLt
  have h5 := x.f5.isLt
  have h6 := x.f6.isLt
  rw [← cut_toNat, Fields.toNat_word]
  generalize x.f3.toNat = n3 at *
  generalize x.f4.toNat = n4 at *
  generalize x.f5.toNat = n5 at *
  generalize x.f6.toNat = n6 at *
  rw [show x.op.toNat * 2 ^ 24 + x.f1.toNat * 2 ^ 20 + x.f2.toNat * 2 ^ 16 + n3 * 2 ^ 12 + n4 * 2 ^ 8 +
      n5 * 2 ^ 4 + n6 = 0 + 2 ^ 0 * ((n3 * 2 ^ 12 + n4 * 2 ^ 8 + n5 * 2 ^ 4 + n6) +
        2 ^ 16 * (x.f2.toNat + 2 ^ 4 * (x.f1.toNat + 2 ^ 4 * x.op.toNat))) by ring]
  exact digit_of_sum 0 (n3 * 2 ^ 12 + n4 * 2 ^ 8 + n5 * 2 ^ 4 + n6)
    (x.f2.toNat + 2 ^ 4 * (x.f1.toNat + 2 ^ 4 * x.op.toNat)) 0 16 (by omega) (by omega)

/-- A 16-bit immediate is the number of its four digits (rule R73). -/
theorem imm_digits (i : BitVec 16) : (i.extractLsb' 12 4).toNat * 2 ^ 12 + (i.extractLsb' 8 4).toNat * 2 ^ 8 +
    (i.extractLsb' 4 4).toNat * 2 ^ 4 + (i.extractLsb' 0 4).toNat = i.toNat := by
  have h := i.isLt
  simp only [BitVec.extractLsb'_toNat, Nat.shiftRight_eq_div_pow]
  generalize i.toNat = n at *
  omega

/-- The immediate of format I comes back (rule R73). -/
theorem imm_roundtrip (op : BitVec 8) (f1 f2 : BitVec 4) (i : BitVec 16) :
    (Fields.word ⟨op, f1, f2, i.extractLsb' 12 4, i.extractLsb' 8 4, i.extractLsb' 4 4,
      i.extractLsb' 0 4⟩).extractLsb' 0 16 = i := by
  apply BitVec.eq_of_toNat_eq
  rw [low_half]
  exact imm_digits i

/-- The offset of format X is the low bit of `f5` and all of `f6` (rules R71, R72). -/
theorem operandAt_off (x : Fields) : (operandAt 32 0 x.word).val = (x.f5.toNat * 16 + x.f6.toNat) % 32 := by
  have h3 := x.f3.isLt
  have h4 := x.f4.isLt
  have h5 := x.f5.isLt
  have h6 := x.f6.isLt
  have h := low_half x
  rw [← cut_toNat] at h
  rw [operandAt_val]
  rw [← Nat.mod_mod_of_dvd (x.word.toNat / 2 ^ 0) (show 32 ∣ 2 ^ 16 by decide), h]
  omega

/-- A flag operand is the low bit of its field (rule R72). -/
theorem flag_f5 (x : Fields) : x.word.getLsbD 4 = x.f5.getLsbD 0 := by
  have h : x.word.extractLsb' 4 4 = x.f5 := congrArg Fields.f5 x.cut_word
  rw [← h]
  simp

/-! ### The opcode byte -/

/-- Every mask of the opcode table covers the opcode byte (rule R74). -/
theorem table_masks_op : ∀ r ∈ opcodeTable, (Fields.cut r.mask).op = 0xFF#8 := by
  intro r hr
  simp only [opcodeTable, List.mem_cons, List.not_mem_nil, or_false] at hr
  rcases hr with rfl | rfl | rfl | rfl | rfl | rfl | rfl | rfl | rfl | rfl | rfl | rfl | rfl | rfl | rfl | rfl <;>
    rfl

/-- A row accepts only words with its own opcode byte (rule R74). -/
theorem op_of_accepts {r : Row} (hr : r ∈ opcodeTable) {w : Word} (h : r.accepts w = true) :
    (Fields.cut w).op = (Fields.cut r.pattern).op := by
  have h1 := congrArg Fields.op ((Row.accepts_iff r w).mp h)
  simp only [Fields.and, table_masks_op r hr] at h1
  rw [← h1]
  exact (BitVec.and_allOnes).symm

end Sys2Proof
end

