-- ==== Sys2Proof/Laws/Lanes.lean ====
section
/-! SUPPORT. What each lane of a value put together from lanes is, and when two values are equal. -/

namespace Sys2Proof.Machine

theorem packLanes_lt (w : Nat) (xs : List (BitVec w)) : packLanes w xs < 2 ^ (w * xs.length) := by
  induction xs with
  | nil => simp [packLanes]
  | cons x xs ih =>
    have hx := x.isLt
    simp only [packLanes, List.length_cons]
    rw [show w * (xs.length + 1) = w + w * xs.length by ring, Nat.pow_add]
    nlinarith [Nat.two_pow_pos w]

theorem packLanes_lane (w : Nat) (xs : List (BitVec w)) (k : Nat) (h : k < xs.length) :
    packLanes w xs / 2 ^ (w * k) % 2 ^ w = xs[k].toNat := by
  induction xs generalizing k with
  | nil => simp at h
  | cons x xs ih =>
    have hx := x.isLt
    cases k with
    | zero => simp [packLanes, Nat.mod_eq_of_lt hx]
    | succ k =>
      have hk : k < xs.length := by simpa using h
      rw [show w * (k + 1) = w + w * k by ring, Nat.pow_add, ← Nat.div_div_eq_div_mul]
      simp only [packLanes, List.getElem_cons_succ]
      rw [Nat.add_mul_div_left _ _ (Nat.two_pow_pos w), Nat.div_eq_of_lt hx, Nat.zero_add]
      exact ih k hk

/-- Lane `k` of `ofLanes` is `f k`. -/
theorem extract_ofLanes (w n out : Nat) (f : Nat → BitVec w) (k : Nat) (hk : k < n)
    (hout : w * n ≤ out) : (ofLanes w n out f).extractLsb' (w * k) w = f k := by
  apply BitVec.eq_of_toNat_eq
  have hlen : ((List.range n).map f).length = n := by simp
  have hlt := packLanes_lt w ((List.range n).map f)
  rw [hlen] at hlt
  have hout' : packLanes w ((List.range n).map f) < 2 ^ out :=
    lt_of_lt_of_le hlt (Nat.pow_le_pow_right (by decide) hout)
  have hlane := packLanes_lane w ((List.range n).map f) k (by simpa using hk)
  simp only [List.getElem_map, List.getElem_range] at hlane
  rw [BitVec.extractLsb'_toNat, ofLanes, BitVec.toNat_ofNat, Nat.mod_eq_of_lt hout',
    Nat.shiftRight_eq_div_pow, hlane]

@[simp] theorem byteLane_ofBytes (f : Nat → Byte) (k : Nat) (h : k < 16) :
    byteLane (ofBytes f) k = f k := extract_ofLanes 8 16 128 f k h (by decide)

@[simp] theorem wordLane_ofWords (f : Nat → Word) (j : Nat) (h : j < 4) :
    wordLane (ofWords f) j = f j := extract_ofLanes 32 4 128 f j h (by decide)

theorem getLsbD_extract_one {n : Nat} (v : BitVec n) (k : Nat) :
    (v.extractLsb' k 1).getLsbD 0 = v.getLsbD k := by
  simp

/-- Bit `k` of `ofBits` is `f k`. -/
@[simp] theorem getLsbD_ofBits (n : Nat) (f : Nat → Bool) (k : Nat) (h : k < n) :
    (ofBits n f).getLsbD k = f k := by
  have he := extract_ofLanes 1 n n (fun k => BitVec.ofBool (f k)) k h (by omega)
  rw [Nat.one_mul] at he
  rw [← getLsbD_extract_one, ofBits, he]
  simp

/-- Byte `t` of word lane `j` is byte lane `4j + t`: the two views alias the same bits (rule R21). -/
theorem wordByte_wordLane (v : Vec) (j t : Nat) (h : t < 4) :
    wordByte (wordLane v j) t = byteLane v (4 * j + t) := by
  apply BitVec.eq_of_getLsbD_eq
  intro i hi
  simp only [wordByte, wordLane, byteLane, BitVec.getLsbD_extractLsb']
  have h1 : 8 * t + i < 32 := by omega
  have h2 : 32 * j + (8 * t + i) = 8 * (4 * j + t) + i := by omega
  simp [hi, h1, h2]

/-- A vector register is determined by its byte lanes (rule R12). -/
theorem vec_ext_bytes {u v : Vec} (h : ∀ k < 16, byteLane u k = byteLane v k) : u = v := by
  apply BitVec.eq_of_getLsbD_eq
  intro i hi
  have hb := congrArg (fun x => x.getLsbD (i % 8)) (h (i / 8) (by omega))
  simp only [byteLane, BitVec.getLsbD_extractLsb'] at hb
  have hm : i % 8 < 8 := by omega
  have he : 8 * (i / 8) + i % 8 = i := by omega
  simpa [hm, he] using hb

/-- A vector register is determined by its word lanes (rule R12). -/
theorem vec_ext_words {u v : Vec} (h : ∀ j < 4, wordLane u j = wordLane v j) : u = v := by
  apply BitVec.eq_of_getLsbD_eq
  intro i hi
  have hb := congrArg (fun x => x.getLsbD (i % 32)) (h (i / 32) (by omega))
  simp only [wordLane, BitVec.getLsbD_extractLsb'] at hb
  have hm : i % 32 < 32 := by omega
  have he : 32 * (i / 32) + i % 32 = i := by omega
  simpa [hm, he] using hb

/-- A descriptor is determined by its four bytes (rule R54). -/
theorem word_ext_bytes {u v : Word} (h : ∀ t < 4, wordByte u t = wordByte v t) : u = v := by
  apply BitVec.eq_of_getLsbD_eq
  intro i hi
  have hb := congrArg (fun x => x.getLsbD (i % 8)) (h (i / 8) (by omega))
  simp only [wordByte, BitVec.getLsbD_extractLsb'] at hb
  have hm : i % 8 < 8 := by omega
  have he : 8 * (i / 8) + i % 8 = i := by omega
  simpa [hm, he] using hb

/-- `ltu8` compares the unsigned values (rule R13). -/
theorem ltu8_eq (a b : Byte) : ltu8 a b = decide (a.toNat < b.toNat) := rfl

/-- A population count is at most 32 (rule R13). -/
theorem popcount32_le (w : Word) : popcount32 w ≤ 32 := by
  have h := List.countP_le_length (p := fun k => w.getLsbD k) (l := List.range 32)
  simpa [popcount32] using h

/-- A population count as a byte loses nothing. -/
@[simp] theorem toNat_popcount_byte (w : Word) : (BitVec.ofNat 8 (popcount32 w)).toNat = popcount32 w := by
  have h := popcount32_le w
  rw [BitVec.toNat_ofNat, Nat.mod_eq_of_lt (by omega)]

end Sys2Proof.Machine
end

