-- ==== Sys2Proof/Laws/State.lean ====
section
/-! SUPPORT. One lemma per field per named update of the state, true by rfl, and what each register
read gives after each register write. -/

namespace Sys2Proof.Machine

/-! ### writeV -/

@[simp] theorem State.writeV_vreg (s : State) (i : VReg) (x : Vec) : (s.writeV i x).vreg = s.vreg.set i x := rfl
@[simp] theorem State.writeV_rreg (s : State) (i : VReg) (x : Vec) : (s.writeV i x).rreg = s.rreg := rfl
@[simp] theorem State.writeV_preg (s : State) (i : VReg) (x : Vec) : (s.writeV i x).preg = s.preg := rfl
@[simp] theorem State.writeV_sreg (s : State) (i : VReg) (x : Vec) : (s.writeV i x).sreg = s.sreg := rfl
@[simp] theorem State.writeV_status (s : State) (i : VReg) (x : Vec) : (s.writeV i x).status = s.status := rfl
@[simp] theorem State.writeV_errWord (s : State) (i : VReg) (x : Vec) : (s.writeV i x).errWord = s.errWord := rfl
@[simp] theorem State.writeV_errAddr (s : State) (i : VReg) (x : Vec) : (s.writeV i x).errAddr = s.errAddr := rfl
@[simp] theorem State.writeV_cmdCnt (s : State) (i : VReg) (x : Vec) : (s.writeV i x).cmdCnt = s.cmdCnt := rfl
@[simp] theorem State.writeV_mem (s : State) (i : VReg) (x : Vec) : (s.writeV i x).mem = s.mem := rfl
@[simp] theorem State.writeV_backed (s : State) (i : VReg) (x : Vec) : (s.writeV i x).backed = s.backed := rfl
@[simp] theorem State.writeV_port (s : State) (i : VReg) (x : Vec) : (s.writeV i x).port = s.port := rfl
@[simp] theorem State.writeV_freeCount (s : State) (i : VReg) (x : Vec) : (s.writeV i x).freeCount = s.freeCount := rfl

/-! ### writeR -/

@[simp] theorem State.writeR_vreg (s : State) (i : RReg) (x : PairedRow) : (s.writeR i x).vreg = s.vreg := rfl
@[simp] theorem State.writeR_rreg (s : State) (i : RReg) (x : PairedRow) : (s.writeR i x).rreg = s.rreg.set i x := rfl
@[simp] theorem State.writeR_preg (s : State) (i : RReg) (x : PairedRow) : (s.writeR i x).preg = s.preg := rfl
@[simp] theorem State.writeR_sreg (s : State) (i : RReg) (x : PairedRow) : (s.writeR i x).sreg = s.sreg := rfl
@[simp] theorem State.writeR_status (s : State) (i : RReg) (x : PairedRow) : (s.writeR i x).status = s.status := rfl
@[simp] theorem State.writeR_errWord (s : State) (i : RReg) (x : PairedRow) : (s.writeR i x).errWord = s.errWord := rfl
@[simp] theorem State.writeR_errAddr (s : State) (i : RReg) (x : PairedRow) : (s.writeR i x).errAddr = s.errAddr := rfl
@[simp] theorem State.writeR_cmdCnt (s : State) (i : RReg) (x : PairedRow) : (s.writeR i x).cmdCnt = s.cmdCnt := rfl
@[simp] theorem State.writeR_mem (s : State) (i : RReg) (x : PairedRow) : (s.writeR i x).mem = s.mem := rfl
@[simp] theorem State.writeR_backed (s : State) (i : RReg) (x : PairedRow) : (s.writeR i x).backed = s.backed := rfl
@[simp] theorem State.writeR_port (s : State) (i : RReg) (x : PairedRow) : (s.writeR i x).port = s.port := rfl
@[simp] theorem State.writeR_freeCount (s : State) (i : RReg) (x : PairedRow) : (s.writeR i x).freeCount = s.freeCount := rfl

/-! ### writeP -/

@[simp] theorem State.writeP_vreg (s : State) (i : PReg) (x : Pred) : (s.writeP i x).vreg = s.vreg := rfl
@[simp] theorem State.writeP_rreg (s : State) (i : PReg) (x : Pred) : (s.writeP i x).rreg = s.rreg := rfl
@[simp] theorem State.writeP_preg (s : State) (i : PReg) (x : Pred) : (s.writeP i x).preg = s.preg.set i x := rfl
@[simp] theorem State.writeP_sreg (s : State) (i : PReg) (x : Pred) : (s.writeP i x).sreg = s.sreg := rfl
@[simp] theorem State.writeP_status (s : State) (i : PReg) (x : Pred) : (s.writeP i x).status = s.status := rfl
@[simp] theorem State.writeP_errWord (s : State) (i : PReg) (x : Pred) : (s.writeP i x).errWord = s.errWord := rfl
@[simp] theorem State.writeP_errAddr (s : State) (i : PReg) (x : Pred) : (s.writeP i x).errAddr = s.errAddr := rfl
@[simp] theorem State.writeP_cmdCnt (s : State) (i : PReg) (x : Pred) : (s.writeP i x).cmdCnt = s.cmdCnt := rfl
@[simp] theorem State.writeP_mem (s : State) (i : PReg) (x : Pred) : (s.writeP i x).mem = s.mem := rfl
@[simp] theorem State.writeP_backed (s : State) (i : PReg) (x : Pred) : (s.writeP i x).backed = s.backed := rfl
@[simp] theorem State.writeP_port (s : State) (i : PReg) (x : Pred) : (s.writeP i x).port = s.port := rfl
@[simp] theorem State.writeP_freeCount (s : State) (i : PReg) (x : Pred) : (s.writeP i x).freeCount = s.freeCount := rfl

/-! ### writeS -/

@[simp] theorem State.writeS_vreg (s : State) (i : SReg) (x : Word) : (s.writeS i x).vreg = s.vreg := rfl
@[simp] theorem State.writeS_rreg (s : State) (i : SReg) (x : Word) : (s.writeS i x).rreg = s.rreg := rfl
@[simp] theorem State.writeS_preg (s : State) (i : SReg) (x : Word) : (s.writeS i x).preg = s.preg := rfl
@[simp] theorem State.writeS_sreg (s : State) (i : SReg) (x : Word) : (s.writeS i x).sreg = s.sreg.set i x := rfl
@[simp] theorem State.writeS_status (s : State) (i : SReg) (x : Word) : (s.writeS i x).status = s.status := rfl
@[simp] theorem State.writeS_errWord (s : State) (i : SReg) (x : Word) : (s.writeS i x).errWord = s.errWord := rfl
@[simp] theorem State.writeS_errAddr (s : State) (i : SReg) (x : Word) : (s.writeS i x).errAddr = s.errAddr := rfl
@[simp] theorem State.writeS_cmdCnt (s : State) (i : SReg) (x : Word) : (s.writeS i x).cmdCnt = s.cmdCnt := rfl
@[simp] theorem State.writeS_mem (s : State) (i : SReg) (x : Word) : (s.writeS i x).mem = s.mem := rfl
@[simp] theorem State.writeS_backed (s : State) (i : SReg) (x : Word) : (s.writeS i x).backed = s.backed := rfl
@[simp] theorem State.writeS_port (s : State) (i : SReg) (x : Word) : (s.writeS i x).port = s.port := rfl
@[simp] theorem State.writeS_freeCount (s : State) (i : SReg) (x : Word) : (s.writeS i x).freeCount = s.freeCount := rfl

/-! ### writeAllV -/

@[simp] theorem State.writeAllV_vreg (s : State) (f : VReg → Vec) : (s.writeAllV f).vreg = Vector.ofFn f := rfl
@[simp] theorem State.writeAllV_rreg (s : State) (f : VReg → Vec) : (s.writeAllV f).rreg = s.rreg := rfl
@[simp] theorem State.writeAllV_preg (s : State) (f : VReg → Vec) : (s.writeAllV f).preg = s.preg := rfl
@[simp] theorem State.writeAllV_sreg (s : State) (f : VReg → Vec) : (s.writeAllV f).sreg = s.sreg := rfl
@[simp] theorem State.writeAllV_status (s : State) (f : VReg → Vec) : (s.writeAllV f).status = s.status := rfl
@[simp] theorem State.writeAllV_errWord (s : State) (f : VReg → Vec) : (s.writeAllV f).errWord = s.errWord := rfl
@[simp] theorem State.writeAllV_errAddr (s : State) (f : VReg → Vec) : (s.writeAllV f).errAddr = s.errAddr := rfl
@[simp] theorem State.writeAllV_cmdCnt (s : State) (f : VReg → Vec) : (s.writeAllV f).cmdCnt = s.cmdCnt := rfl
@[simp] theorem State.writeAllV_mem (s : State) (f : VReg → Vec) : (s.writeAllV f).mem = s.mem := rfl
@[simp] theorem State.writeAllV_backed (s : State) (f : VReg → Vec) : (s.writeAllV f).backed = s.backed := rfl
@[simp] theorem State.writeAllV_port (s : State) (f : VReg → Vec) : (s.writeAllV f).port = s.port := rfl
@[simp] theorem State.writeAllV_freeCount (s : State) (f : VReg → Vec) : (s.writeAllV f).freeCount = s.freeCount := rfl

/-! ### store -/

@[simp] theorem State.store_vreg (s : State) (cells : List Host.Cell) : (s.store cells).vreg = s.vreg := rfl
@[simp] theorem State.store_rreg (s : State) (cells : List Host.Cell) : (s.store cells).rreg = s.rreg := rfl
@[simp] theorem State.store_preg (s : State) (cells : List Host.Cell) : (s.store cells).preg = s.preg := rfl
@[simp] theorem State.store_sreg (s : State) (cells : List Host.Cell) : (s.store cells).sreg = s.sreg := rfl
@[simp] theorem State.store_status (s : State) (cells : List Host.Cell) : (s.store cells).status = s.status := rfl
@[simp] theorem State.store_errWord (s : State) (cells : List Host.Cell) : (s.store cells).errWord = s.errWord := rfl
@[simp] theorem State.store_errAddr (s : State) (cells : List Host.Cell) : (s.store cells).errAddr = s.errAddr := rfl
@[simp] theorem State.store_cmdCnt (s : State) (cells : List Host.Cell) : (s.store cells).cmdCnt = s.cmdCnt := rfl
@[simp] theorem State.store_mem (s : State) (cells : List Host.Cell) : (s.store cells).mem = s.mem.writeAll cells := rfl
@[simp] theorem State.store_backed (s : State) (cells : List Host.Cell) : (s.store cells).backed = s.backed := rfl
@[simp] theorem State.store_port (s : State) (cells : List Host.Cell) : (s.store cells).port = s.port := rfl
@[simp] theorem State.store_freeCount (s : State) (cells : List Host.Cell) : (s.store cells).freeCount = s.freeCount := rfl

/-! ### complete -/

@[simp] theorem State.complete_vreg (s : State) : s.complete.vreg = s.vreg := rfl
@[simp] theorem State.complete_rreg (s : State) : s.complete.rreg = s.rreg := rfl
@[simp] theorem State.complete_preg (s : State) : s.complete.preg = s.preg := rfl
@[simp] theorem State.complete_sreg (s : State) : s.complete.sreg = s.sreg := rfl
@[simp] theorem State.complete_status (s : State) : s.complete.status = s.status := rfl
@[simp] theorem State.complete_errWord (s : State) : s.complete.errWord = s.errWord := rfl
@[simp] theorem State.complete_errAddr (s : State) : s.complete.errAddr = s.errAddr := rfl
@[simp] theorem State.complete_cmdCnt (s : State) : s.complete.cmdCnt = s.cmdCnt + 1 := rfl
@[simp] theorem State.complete_mem (s : State) : s.complete.mem = s.mem := rfl
@[simp] theorem State.complete_backed (s : State) : s.complete.backed = s.backed := rfl
@[simp] theorem State.complete_port (s : State) : s.complete.port = s.port := rfl
@[simp] theorem State.complete_freeCount (s : State) : s.complete.freeCount = s.freeCount := rfl

/-! ### fresh -/

@[simp] theorem State.fresh_vreg (s : State) : s.fresh.vreg = s.vreg := rfl
@[simp] theorem State.fresh_rreg (s : State) : s.fresh.rreg = s.rreg := rfl
@[simp] theorem State.fresh_preg (s : State) : s.fresh.preg = s.preg := rfl
@[simp] theorem State.fresh_sreg (s : State) : s.fresh.sreg = s.sreg := rfl
@[simp] theorem State.fresh_status (s : State) : s.fresh.status = s.status := rfl
@[simp] theorem State.fresh_errWord (s : State) : s.fresh.errWord = s.errWord := rfl
@[simp] theorem State.fresh_errAddr (s : State) : s.fresh.errAddr = s.errAddr := rfl
@[simp] theorem State.fresh_cmdCnt (s : State) : s.fresh.cmdCnt = s.cmdCnt := rfl
@[simp] theorem State.fresh_mem (s : State) : s.fresh.mem = s.mem := rfl
@[simp] theorem State.fresh_backed (s : State) : s.fresh.backed = s.backed := rfl
@[simp] theorem State.fresh_port (s : State) : s.fresh.port = s.port := rfl
@[simp] theorem State.fresh_freeCount (s : State) : s.fresh.freeCount = s.freeCount + 1 := rfl

/-! ### setTooSmall -/

@[simp] theorem State.setTooSmall_vreg (s : State) : s.setTooSmall.vreg = s.vreg := rfl
@[simp] theorem State.setTooSmall_rreg (s : State) : s.setTooSmall.rreg = s.rreg := rfl
@[simp] theorem State.setTooSmall_preg (s : State) : s.setTooSmall.preg = s.preg := rfl
@[simp] theorem State.setTooSmall_sreg (s : State) : s.setTooSmall.sreg = s.sreg := rfl
@[simp] theorem State.setTooSmall_status (s : State) : s.setTooSmall.status = { s.status with ts := true } := rfl
@[simp] theorem State.setTooSmall_errWord (s : State) : s.setTooSmall.errWord = s.errWord := rfl
@[simp] theorem State.setTooSmall_errAddr (s : State) : s.setTooSmall.errAddr = s.errAddr := rfl
@[simp] theorem State.setTooSmall_cmdCnt (s : State) : s.setTooSmall.cmdCnt = s.cmdCnt := rfl
@[simp] theorem State.setTooSmall_mem (s : State) : s.setTooSmall.mem = s.mem := rfl
@[simp] theorem State.setTooSmall_backed (s : State) : s.setTooSmall.backed = s.backed := rfl
@[simp] theorem State.setTooSmall_port (s : State) : s.setTooSmall.port = s.port := rfl
@[simp] theorem State.setTooSmall_freeCount (s : State) : s.setTooSmall.freeCount = s.freeCount := rfl

/-! ### clearTooSmall -/

@[simp] theorem State.clearTooSmall_vreg (s : State) : s.clearTooSmall.vreg = s.vreg := rfl
@[simp] theorem State.clearTooSmall_rreg (s : State) : s.clearTooSmall.rreg = s.rreg := rfl
@[simp] theorem State.clearTooSmall_preg (s : State) : s.clearTooSmall.preg = s.preg := rfl
@[simp] theorem State.clearTooSmall_sreg (s : State) : s.clearTooSmall.sreg = s.sreg := rfl
@[simp] theorem State.clearTooSmall_status (s : State) : s.clearTooSmall.status = { s.status with ts := false } := rfl
@[simp] theorem State.clearTooSmall_errWord (s : State) : s.clearTooSmall.errWord = s.errWord := rfl
@[simp] theorem State.clearTooSmall_errAddr (s : State) : s.clearTooSmall.errAddr = s.errAddr := rfl
@[simp] theorem State.clearTooSmall_cmdCnt (s : State) : s.clearTooSmall.cmdCnt = s.cmdCnt := rfl
@[simp] theorem State.clearTooSmall_mem (s : State) : s.clearTooSmall.mem = s.mem := rfl
@[simp] theorem State.clearTooSmall_backed (s : State) : s.clearTooSmall.backed = s.backed := rfl
@[simp] theorem State.clearTooSmall_port (s : State) : s.clearTooSmall.port = s.port := rfl
@[simp] theorem State.clearTooSmall_freeCount (s : State) : s.clearTooSmall.freeCount = s.freeCount := rfl

/-! ### deliver -/

@[simp] theorem State.deliver_vreg (s : State) (w : Word) : (s.deliver w).vreg = s.vreg := rfl
@[simp] theorem State.deliver_rreg (s : State) (w : Word) : (s.deliver w).rreg = s.rreg := rfl
@[simp] theorem State.deliver_preg (s : State) (w : Word) : (s.deliver w).preg = s.preg := rfl
@[simp] theorem State.deliver_sreg (s : State) (w : Word) : (s.deliver w).sreg = s.sreg := rfl
@[simp] theorem State.deliver_status (s : State) (w : Word) : (s.deliver w).status = s.status := rfl
@[simp] theorem State.deliver_errWord (s : State) (w : Word) : (s.deliver w).errWord = s.errWord := rfl
@[simp] theorem State.deliver_errAddr (s : State) (w : Word) : (s.deliver w).errAddr = s.errAddr := rfl
@[simp] theorem State.deliver_cmdCnt (s : State) (w : Word) : (s.deliver w).cmdCnt = s.cmdCnt := rfl
@[simp] theorem State.deliver_mem (s : State) (w : Word) : (s.deliver w).mem = s.mem := rfl
@[simp] theorem State.deliver_backed (s : State) (w : Word) : (s.deliver w).backed = s.backed := rfl
@[simp] theorem State.deliver_port (s : State) (w : Word) : (s.deliver w).port = .command w :: s.port := rfl
@[simp] theorem State.deliver_freeCount (s : State) (w : Word) : (s.deliver w).freeCount = s.freeCount := rfl

/-! ### raiseIllegal -/

@[simp] theorem State.raiseIllegal_vreg (s : State) (w : Word) : (s.raise .illegalCommand w).vreg = s.vreg := rfl
@[simp] theorem State.raiseIllegal_rreg (s : State) (w : Word) : (s.raise .illegalCommand w).rreg = s.rreg := rfl
@[simp] theorem State.raiseIllegal_preg (s : State) (w : Word) : (s.raise .illegalCommand w).preg = s.preg := rfl
@[simp] theorem State.raiseIllegal_sreg (s : State) (w : Word) : (s.raise .illegalCommand w).sreg = s.sreg := rfl
@[simp] theorem State.raiseIllegal_status (s : State) (w : Word) : (s.raise .illegalCommand w).status = { s.status with ill := true } := rfl
@[simp] theorem State.raiseIllegal_errWord (s : State) (w : Word) : (s.raise .illegalCommand w).errWord = if s.halted then s.errWord else w := rfl
@[simp] theorem State.raiseIllegal_errAddr (s : State) (w : Word) : (s.raise .illegalCommand w).errAddr = s.errAddr := rfl
@[simp] theorem State.raiseIllegal_cmdCnt (s : State) (w : Word) : (s.raise .illegalCommand w).cmdCnt = s.cmdCnt := rfl
@[simp] theorem State.raiseIllegal_mem (s : State) (w : Word) : (s.raise .illegalCommand w).mem = s.mem := rfl
@[simp] theorem State.raiseIllegal_backed (s : State) (w : Word) : (s.raise .illegalCommand w).backed = s.backed := rfl
@[simp] theorem State.raiseIllegal_port (s : State) (w : Word) : (s.raise .illegalCommand w).port = s.port := rfl
@[simp] theorem State.raiseIllegal_freeCount (s : State) (w : Word) : (s.raise .illegalCommand w).freeCount = s.freeCount := rfl

/-! ### raiseMemError -/

@[simp] theorem State.raiseMemError_vreg (s : State) (a w : Word) : (s.raise (.memError a) w).vreg = s.vreg := rfl
@[simp] theorem State.raiseMemError_rreg (s : State) (a w : Word) : (s.raise (.memError a) w).rreg = s.rreg := rfl
@[simp] theorem State.raiseMemError_preg (s : State) (a w : Word) : (s.raise (.memError a) w).preg = s.preg := rfl
@[simp] theorem State.raiseMemError_sreg (s : State) (a w : Word) : (s.raise (.memError a) w).sreg = s.sreg := rfl
@[simp] theorem State.raiseMemError_status (s : State) (a w : Word) : (s.raise (.memError a) w).status = { s.status with merr := true } := rfl
@[simp] theorem State.raiseMemError_errWord (s : State) (a w : Word) : (s.raise (.memError a) w).errWord = if s.halted then s.errWord else w := rfl
@[simp] theorem State.raiseMemError_errAddr (s : State) (a w : Word) : (s.raise (.memError a) w).errAddr = if s.halted then s.errAddr else a := rfl
@[simp] theorem State.raiseMemError_cmdCnt (s : State) (a w : Word) : (s.raise (.memError a) w).cmdCnt = s.cmdCnt := rfl
@[simp] theorem State.raiseMemError_mem (s : State) (a w : Word) : (s.raise (.memError a) w).mem = s.mem := rfl
@[simp] theorem State.raiseMemError_backed (s : State) (a w : Word) : (s.raise (.memError a) w).backed = s.backed := rfl
@[simp] theorem State.raiseMemError_port (s : State) (a w : Word) : (s.raise (.memError a) w).port = s.port := rfl
@[simp] theorem State.raiseMemError_freeCount (s : State) (a w : Word) : (s.raise (.memError a) w).freeCount = s.freeCount := rfl

/-! ### afterReset -/

@[simp] theorem State.afterReset_status (s : State) : s.afterReset.status = ⟨false, false, false⟩ := rfl
@[simp] theorem State.afterReset_errWord (s : State) : s.afterReset.errWord = 0 := rfl
@[simp] theorem State.afterReset_errAddr (s : State) : s.afterReset.errAddr = 0 := rfl
@[simp] theorem State.afterReset_cmdCnt (s : State) : s.afterReset.cmdCnt = 0 := rfl
@[simp] theorem State.afterReset_mem (s : State) : s.afterReset.mem = s.mem := rfl
@[simp] theorem State.afterReset_backed (s : State) : s.afterReset.backed = s.backed := rfl
@[simp] theorem State.afterReset_port (s : State) : s.afterReset.port = s.port := rfl
@[simp] theorem State.afterReset_freeCount (s : State) : s.afterReset.freeCount = s.freeCount + 1 := rfl

/-! ### storeSome -/

@[simp] theorem State.storeSome_vreg (s : State) (cells : List Host.Cell) : (s.storeSome cells).vreg = s.vreg := rfl
@[simp] theorem State.storeSome_rreg (s : State) (cells : List Host.Cell) : (s.storeSome cells).rreg = s.rreg := rfl
@[simp] theorem State.storeSome_preg (s : State) (cells : List Host.Cell) : (s.storeSome cells).preg = s.preg := rfl
@[simp] theorem State.storeSome_sreg (s : State) (cells : List Host.Cell) : (s.storeSome cells).sreg = s.sreg := rfl
@[simp] theorem State.storeSome_status (s : State) (cells : List Host.Cell) : (s.storeSome cells).status = s.status := rfl
@[simp] theorem State.storeSome_errWord (s : State) (cells : List Host.Cell) : (s.storeSome cells).errWord = s.errWord := rfl
@[simp] theorem State.storeSome_errAddr (s : State) (cells : List Host.Cell) : (s.storeSome cells).errAddr = s.errAddr := rfl
@[simp] theorem State.storeSome_cmdCnt (s : State) (cells : List Host.Cell) : (s.storeSome cells).cmdCnt = s.cmdCnt := rfl
@[simp] theorem State.storeSome_backed (s : State) (cells : List Host.Cell) : (s.storeSome cells).backed = s.backed := rfl
@[simp] theorem State.storeSome_port (s : State) (cells : List Host.Cell) : (s.storeSome cells).port = s.port := rfl
@[simp] theorem State.storeSome_freeCount (s : State) (cells : List Host.Cell) : (s.storeSome cells).freeCount = s.freeCount := rfl

/-! ### rotateUp -/

@[simp] theorem State.rotateUp_rreg (s : State) (h : DoubleGroup) (k : Nat) : (s.rotateUp h k).rreg = s.rreg := rfl
@[simp] theorem State.rotateUp_preg (s : State) (h : DoubleGroup) (k : Nat) : (s.rotateUp h k).preg = s.preg := rfl
@[simp] theorem State.rotateUp_sreg (s : State) (h : DoubleGroup) (k : Nat) : (s.rotateUp h k).sreg = s.sreg := rfl
@[simp] theorem State.rotateUp_status (s : State) (h : DoubleGroup) (k : Nat) : (s.rotateUp h k).status = s.status := rfl
@[simp] theorem State.rotateUp_errWord (s : State) (h : DoubleGroup) (k : Nat) : (s.rotateUp h k).errWord = s.errWord := rfl
@[simp] theorem State.rotateUp_errAddr (s : State) (h : DoubleGroup) (k : Nat) : (s.rotateUp h k).errAddr = s.errAddr := rfl
@[simp] theorem State.rotateUp_cmdCnt (s : State) (h : DoubleGroup) (k : Nat) : (s.rotateUp h k).cmdCnt = s.cmdCnt := rfl
@[simp] theorem State.rotateUp_mem (s : State) (h : DoubleGroup) (k : Nat) : (s.rotateUp h k).mem = s.mem := rfl
@[simp] theorem State.rotateUp_backed (s : State) (h : DoubleGroup) (k : Nat) : (s.rotateUp h k).backed = s.backed := rfl
@[simp] theorem State.rotateUp_port (s : State) (h : DoubleGroup) (k : Nat) : (s.rotateUp h k).port = s.port := rfl
@[simp] theorem State.rotateUp_freeCount (s : State) (h : DoubleGroup) (k : Nat) : (s.rotateUp h k).freeCount = s.freeCount := rfl

/-! ### spoilDouble -/

@[simp] theorem State.spoilDouble_rreg (s : State) (h : DoubleGroup) : (s.spoilDouble h).rreg = s.rreg := rfl
@[simp] theorem State.spoilDouble_preg (s : State) (h : DoubleGroup) : (s.spoilDouble h).preg = s.preg := rfl
@[simp] theorem State.spoilDouble_sreg (s : State) (h : DoubleGroup) : (s.spoilDouble h).sreg = s.sreg := rfl
@[simp] theorem State.spoilDouble_status (s : State) (h : DoubleGroup) : (s.spoilDouble h).status = s.status := rfl
@[simp] theorem State.spoilDouble_errWord (s : State) (h : DoubleGroup) : (s.spoilDouble h).errWord = s.errWord := rfl
@[simp] theorem State.spoilDouble_errAddr (s : State) (h : DoubleGroup) : (s.spoilDouble h).errAddr = s.errAddr := rfl
@[simp] theorem State.spoilDouble_cmdCnt (s : State) (h : DoubleGroup) : (s.spoilDouble h).cmdCnt = s.cmdCnt := rfl
@[simp] theorem State.spoilDouble_mem (s : State) (h : DoubleGroup) : (s.spoilDouble h).mem = s.mem := rfl
@[simp] theorem State.spoilDouble_backed (s : State) (h : DoubleGroup) : (s.spoilDouble h).backed = s.backed := rfl
@[simp] theorem State.spoilDouble_port (s : State) (h : DoubleGroup) : (s.spoilDouble h).port = s.port := rfl
@[simp] theorem State.spoilDouble_freeCount (s : State) (h : DoubleGroup) : (s.spoilDouble h).freeCount = s.freeCount := rfl

/-! ### Reads after writes of registers -/

theorem State.readV_writeV (s : State) (i j : VReg) (x : Vec) :
    (s.writeV i x).readV j = if i = j then x else s.readV j := by
  simp only [State.readV, State.writeV, Fin.getElem_fin, Vector.getElem_set, Fin.ext_iff]

@[simp] theorem State.readV_writeV_self (s : State) (i : VReg) (x : Vec) :
    (s.writeV i x).readV i = x := by
  simp [State.readV_writeV]

theorem State.readV_writeV_of_ne (s : State) (i j : VReg) (x : Vec) (h : j ≠ i) :
    (s.writeV i x).readV j = s.readV j := by
  simp [State.readV_writeV, h.symm]

theorem State.readR_writeR (s : State) (i j : RReg) (x : PairedRow) :
    (s.writeR i x).readR j = if i = j then x else s.readR j := by
  simp only [State.readR, State.writeR, Fin.getElem_fin, Vector.getElem_set, Fin.ext_iff]

@[simp] theorem State.readR_writeR_self (s : State) (i : RReg) (x : PairedRow) :
    (s.writeR i x).readR i = x := by
  simp [State.readR_writeR]

theorem State.readR_writeR_of_ne (s : State) (i j : RReg) (x : PairedRow) (h : j ≠ i) :
    (s.writeR i x).readR j = s.readR j := by
  simp [State.readR_writeR, h.symm]

theorem State.readP_writeP (s : State) (i j : PReg) (x : Pred) :
    (s.writeP i x).readP j = if i = j then x else s.readP j := by
  simp only [State.readP, State.writeP, Fin.getElem_fin, Vector.getElem_set, Fin.ext_iff]

@[simp] theorem State.readP_writeP_self (s : State) (i : PReg) (x : Pred) :
    (s.writeP i x).readP i = x := by
  simp [State.readP_writeP]

theorem State.readP_writeP_of_ne (s : State) (i j : PReg) (x : Pred) (h : j ≠ i) :
    (s.writeP i x).readP j = s.readP j := by
  simp [State.readP_writeP, h.symm]

theorem State.readS_writeS (s : State) (i j : SReg) (x : Word) :
    (s.writeS i x).readS j = if i = j then x else s.readS j := by
  simp only [State.readS, State.writeS, Fin.getElem_fin, Vector.getElem_set, Fin.ext_iff]

@[simp] theorem State.readS_writeS_self (s : State) (i : SReg) (x : Word) :
    (s.writeS i x).readS i = x := by
  simp [State.readS_writeS]

theorem State.readS_writeS_of_ne (s : State) (i j : SReg) (x : Word) (h : j ≠ i) :
    (s.writeS i x).readS j = s.readS j := by
  simp [State.readS_writeS, h.symm]

@[simp] theorem State.readV_writeAllV (s : State) (f : VReg → Vec) (i : VReg) :
    (s.writeAllV f).readV i = f i := by
  simp [State.readV, State.writeAllV]

@[simp] theorem State.readR_writeV (s : State) (i : VReg) (x : Vec) (j : RReg) :
    (s.writeV i x).readR j = s.readR j := rfl
@[simp] theorem State.readP_writeV (s : State) (i : VReg) (x : Vec) (j : PReg) :
    (s.writeV i x).readP j = s.readP j := rfl
@[simp] theorem State.readS_writeV (s : State) (i : VReg) (x : Vec) (j : SReg) :
    (s.writeV i x).readS j = s.readS j := rfl
@[simp] theorem State.readV_writeR (s : State) (i : RReg) (x : PairedRow) (j : VReg) :
    (s.writeR i x).readV j = s.readV j := rfl
@[simp] theorem State.readP_writeR (s : State) (i : RReg) (x : PairedRow) (j : PReg) :
    (s.writeR i x).readP j = s.readP j := rfl
@[simp] theorem State.readS_writeR (s : State) (i : RReg) (x : PairedRow) (j : SReg) :
    (s.writeR i x).readS j = s.readS j := rfl
@[simp] theorem State.readV_writeP (s : State) (i : PReg) (x : Pred) (j : VReg) :
    (s.writeP i x).readV j = s.readV j := rfl
@[simp] theorem State.readR_writeP (s : State) (i : PReg) (x : Pred) (j : RReg) :
    (s.writeP i x).readR j = s.readR j := rfl
@[simp] theorem State.readS_writeP (s : State) (i : PReg) (x : Pred) (j : SReg) :
    (s.writeP i x).readS j = s.readS j := rfl
@[simp] theorem State.readV_writeS (s : State) (i : SReg) (x : Word) (j : VReg) :
    (s.writeS i x).readV j = s.readV j := rfl
@[simp] theorem State.readR_writeS (s : State) (i : SReg) (x : Word) (j : RReg) :
    (s.writeS i x).readR j = s.readR j := rfl
@[simp] theorem State.readP_writeS (s : State) (i : SReg) (x : Word) (j : PReg) :
    (s.writeS i x).readP j = s.readP j := rfl
@[simp] theorem State.readR_writeAllV (s : State) (f : VReg → Vec) (j : RReg) :
    (s.writeAllV f).readR j = s.readR j := rfl
@[simp] theorem State.readP_writeAllV (s : State) (f : VReg → Vec) (j : PReg) :
    (s.writeAllV f).readP j = s.readP j := rfl
@[simp] theorem State.readS_writeAllV (s : State) (f : VReg → Vec) (j : SReg) :
    (s.writeAllV f).readS j = s.readS j := rfl
@[simp] theorem State.readV_store (s : State) (cells : List Host.Cell) (j : VReg) :
    (s.store cells).readV j = s.readV j := rfl
@[simp] theorem State.readR_store (s : State) (cells : List Host.Cell) (j : RReg) :
    (s.store cells).readR j = s.readR j := rfl
@[simp] theorem State.readP_store (s : State) (cells : List Host.Cell) (j : PReg) :
    (s.store cells).readP j = s.readP j := rfl
@[simp] theorem State.readS_store (s : State) (cells : List Host.Cell) (j : SReg) :
    (s.store cells).readS j = s.readS j := rfl
@[simp] theorem State.readV_complete (s : State) (j : VReg) :
    s.complete.readV j = s.readV j := rfl
@[simp] theorem State.readR_complete (s : State) (j : RReg) :
    s.complete.readR j = s.readR j := rfl
@[simp] theorem State.readP_complete (s : State) (j : PReg) :
    s.complete.readP j = s.readP j := rfl
@[simp] theorem State.readS_complete (s : State) (j : SReg) :
    s.complete.readS j = s.readS j := rfl
@[simp] theorem State.readV_fresh (s : State) (j : VReg) :
    s.fresh.readV j = s.readV j := rfl
@[simp] theorem State.readR_fresh (s : State) (j : RReg) :
    s.fresh.readR j = s.readR j := rfl
@[simp] theorem State.readP_fresh (s : State) (j : PReg) :
    s.fresh.readP j = s.readP j := rfl
@[simp] theorem State.readS_fresh (s : State) (j : SReg) :
    s.fresh.readS j = s.readS j := rfl
@[simp] theorem State.readV_setTooSmall (s : State) (j : VReg) :
    s.setTooSmall.readV j = s.readV j := rfl
@[simp] theorem State.readR_setTooSmall (s : State) (j : RReg) :
    s.setTooSmall.readR j = s.readR j := rfl
@[simp] theorem State.readP_setTooSmall (s : State) (j : PReg) :
    s.setTooSmall.readP j = s.readP j := rfl
@[simp] theorem State.readS_setTooSmall (s : State) (j : SReg) :
    s.setTooSmall.readS j = s.readS j := rfl
@[simp] theorem State.readV_clearTooSmall (s : State) (j : VReg) :
    s.clearTooSmall.readV j = s.readV j := rfl
@[simp] theorem State.readR_clearTooSmall (s : State) (j : RReg) :
    s.clearTooSmall.readR j = s.readR j := rfl
@[simp] theorem State.readP_clearTooSmall (s : State) (j : PReg) :
    s.clearTooSmall.readP j = s.readP j := rfl
@[simp] theorem State.readS_clearTooSmall (s : State) (j : SReg) :
    s.clearTooSmall.readS j = s.readS j := rfl
@[simp] theorem State.readV_deliver (s : State) (w : Word) (j : VReg) :
    (s.deliver w).readV j = s.readV j := rfl
@[simp] theorem State.readR_deliver (s : State) (w : Word) (j : RReg) :
    (s.deliver w).readR j = s.readR j := rfl
@[simp] theorem State.readP_deliver (s : State) (w : Word) (j : PReg) :
    (s.deliver w).readP j = s.readP j := rfl
@[simp] theorem State.readS_deliver (s : State) (w : Word) (j : SReg) :
    (s.deliver w).readS j = s.readS j := rfl
@[simp] theorem State.readV_raiseIllegal (s : State) (w : Word) (j : VReg) :
    (s.raise .illegalCommand w).readV j = s.readV j := rfl
@[simp] theorem State.readR_raiseIllegal (s : State) (w : Word) (j : RReg) :
    (s.raise .illegalCommand w).readR j = s.readR j := rfl
@[simp] theorem State.readP_raiseIllegal (s : State) (w : Word) (j : PReg) :
    (s.raise .illegalCommand w).readP j = s.readP j := rfl
@[simp] theorem State.readS_raiseIllegal (s : State) (w : Word) (j : SReg) :
    (s.raise .illegalCommand w).readS j = s.readS j := rfl
@[simp] theorem State.readV_raiseMemError (s : State) (a w : Word) (j : VReg) :
    (s.raise (.memError a) w).readV j = s.readV j := rfl
@[simp] theorem State.readR_raiseMemError (s : State) (a w : Word) (j : RReg) :
    (s.raise (.memError a) w).readR j = s.readR j := rfl
@[simp] theorem State.readP_raiseMemError (s : State) (a w : Word) (j : PReg) :
    (s.raise (.memError a) w).readP j = s.readP j := rfl
@[simp] theorem State.readS_raiseMemError (s : State) (a w : Word) (j : SReg) :
    (s.raise (.memError a) w).readS j = s.readS j := rfl
@[simp] theorem State.readV_storeSome (s : State) (cells : List Host.Cell) (j : VReg) :
    (s.storeSome cells).readV j = s.readV j := rfl
@[simp] theorem State.readR_storeSome (s : State) (cells : List Host.Cell) (j : RReg) :
    (s.storeSome cells).readR j = s.readR j := rfl
@[simp] theorem State.readP_storeSome (s : State) (cells : List Host.Cell) (j : PReg) :
    (s.storeSome cells).readP j = s.readP j := rfl
@[simp] theorem State.readS_storeSome (s : State) (cells : List Host.Cell) (j : SReg) :
    (s.storeSome cells).readS j = s.readS j := rfl
@[simp] theorem State.readR_rotateUp (s : State) (h : DoubleGroup) (k : Nat) (j : RReg) :
    (s.rotateUp h k).readR j = s.readR j := rfl
@[simp] theorem State.readP_rotateUp (s : State) (h : DoubleGroup) (k : Nat) (j : PReg) :
    (s.rotateUp h k).readP j = s.readP j := rfl
@[simp] theorem State.readS_rotateUp (s : State) (h : DoubleGroup) (k : Nat) (j : SReg) :
    (s.rotateUp h k).readS j = s.readS j := rfl
@[simp] theorem State.readR_spoilDouble (s : State) (h : DoubleGroup) (j : RReg) :
    (s.spoilDouble h).readR j = s.readR j := rfl
@[simp] theorem State.readP_spoilDouble (s : State) (h : DoubleGroup) (j : PReg) :
    (s.spoilDouble h).readP j = s.readP j := rfl
@[simp] theorem State.readS_spoilDouble (s : State) (h : DoubleGroup) (j : SReg) :
    (s.spoilDouble h).readS j = s.readS j := rfl

/-! ### The platform and HALT after each update -/

@[simp] theorem State.memValid_writeV (s : State) (i : VReg) (x : Vec) (addr : Nat) :
    (s.writeV i x).memValid addr = s.memValid addr := rfl
@[simp] theorem State.memValid_writeR (s : State) (i : RReg) (x : PairedRow) (addr : Nat) :
    (s.writeR i x).memValid addr = s.memValid addr := rfl
@[simp] theorem State.memValid_writeP (s : State) (i : PReg) (x : Pred) (addr : Nat) :
    (s.writeP i x).memValid addr = s.memValid addr := rfl
@[simp] theorem State.memValid_writeS (s : State) (i : SReg) (x : Word) (addr : Nat) :
    (s.writeS i x).memValid addr = s.memValid addr := rfl
@[simp] theorem State.memValid_writeAllV (s : State) (f : VReg → Vec) (addr : Nat) :
    (s.writeAllV f).memValid addr = s.memValid addr := rfl
@[simp] theorem State.memValid_store (s : State) (cells : List Host.Cell) (addr : Nat) :
    (s.store cells).memValid addr = s.memValid addr := rfl
@[simp] theorem State.memValid_complete (s : State) (addr : Nat) :
    s.complete.memValid addr = s.memValid addr := rfl
@[simp] theorem State.memValid_fresh (s : State) (addr : Nat) :
    s.fresh.memValid addr = s.memValid addr := rfl
@[simp] theorem State.memValid_setTooSmall (s : State) (addr : Nat) :
    s.setTooSmall.memValid addr = s.memValid addr := rfl
@[simp] theorem State.memValid_clearTooSmall (s : State) (addr : Nat) :
    s.clearTooSmall.memValid addr = s.memValid addr := rfl
@[simp] theorem State.memValid_deliver (s : State) (w : Word) (addr : Nat) :
    (s.deliver w).memValid addr = s.memValid addr := rfl
@[simp] theorem State.memValid_raiseIllegal (s : State) (w : Word) (addr : Nat) :
    (s.raise .illegalCommand w).memValid addr = s.memValid addr := rfl
@[simp] theorem State.memValid_raiseMemError (s : State) (a w : Word) (addr : Nat) :
    (s.raise (.memError a) w).memValid addr = s.memValid addr := rfl
@[simp] theorem State.memValid_afterReset (s : State) (addr : Nat) :
    s.afterReset.memValid addr = s.memValid addr := rfl
@[simp] theorem State.memValid_storeSome (s : State) (cells : List Host.Cell) (addr : Nat) :
    (s.storeSome cells).memValid addr = s.memValid addr := rfl
@[simp] theorem State.memValid_rotateUp (s : State) (h : DoubleGroup) (k : Nat) (addr : Nat) :
    (s.rotateUp h k).memValid addr = s.memValid addr := rfl
@[simp] theorem State.memValid_spoilDouble (s : State) (h : DoubleGroup) (addr : Nat) :
    (s.spoilDouble h).memValid addr = s.memValid addr := rfl
@[simp] theorem State.halted_writeV (s : State) (i : VReg) (x : Vec) : (s.writeV i x).halted = s.halted := rfl
@[simp] theorem State.halted_writeR (s : State) (i : RReg) (x : PairedRow) : (s.writeR i x).halted = s.halted := rfl
@[simp] theorem State.halted_writeP (s : State) (i : PReg) (x : Pred) : (s.writeP i x).halted = s.halted := rfl
@[simp] theorem State.halted_writeS (s : State) (i : SReg) (x : Word) : (s.writeS i x).halted = s.halted := rfl
@[simp] theorem State.halted_writeAllV (s : State) (f : VReg → Vec) : (s.writeAllV f).halted = s.halted := rfl
@[simp] theorem State.halted_store (s : State) (cells : List Host.Cell) : (s.store cells).halted = s.halted := rfl
@[simp] theorem State.halted_complete (s : State) : s.complete.halted = s.halted := rfl
@[simp] theorem State.halted_fresh (s : State) : s.fresh.halted = s.halted := rfl
@[simp] theorem State.halted_deliver (s : State) (w : Word) : (s.deliver w).halted = s.halted := rfl
@[simp] theorem State.halted_storeSome (s : State) (cells : List Host.Cell) : (s.storeSome cells).halted = s.halted := rfl
@[simp] theorem State.halted_rotateUp (s : State) (h : DoubleGroup) (k : Nat) : (s.rotateUp h k).halted = s.halted := rfl
@[simp] theorem State.halted_spoilDouble (s : State) (h : DoubleGroup) : (s.spoilDouble h).halted = s.halted := rfl

@[simp] theorem State.halted_setTooSmall (s : State) : s.setTooSmall.halted = s.halted := rfl

@[simp] theorem State.halted_clearTooSmall (s : State) : s.clearTooSmall.halted = s.halted := rfl

@[simp] theorem State.halted_raiseIllegal (s : State) (w : Word) :
    (s.raise .illegalCommand w).halted = true := rfl

@[simp] theorem State.halted_raiseMemError (s : State) (a w : Word) :
    (s.raise (.memError a) w).halted = true := by
  simp [State.halted, Status.halt, State.raise]

@[simp] theorem State.halted_afterReset (s : State) : s.afterReset.halted = false := rfl

/-- A block that is not halted has neither halting error recorded (rule R32). -/
theorem State.not_halted_iff (s : State) :
    s.halted = false ↔ s.status.ill = false ∧ s.status.merr = false := by
  simp [State.halted, Status.halt]

end Sys2Proof.Machine
end

