-- ==== Sys2Proof/Laws/Memory.lean ====
section
/-! SUPPORT. Memory: what a byte reads as after a write, and that every operation keeps the canonical
form. -/

namespace Sys2Proof.Machine

/-! ### One write -/

theorem Memory.read_erase_self (m : Memory) (a : Nat) : (m.erase a).read a = unlistedByte := by
  induction m with
  | nil => rfl
  | cons c m ih =>
    obtain ⟨x, y⟩ := c
    by_cases h : x = a
    · simpa [Memory.erase, h] using ih
    · have hx : (x != a) = true := by simpa using h
      simp only [Memory.erase, List.filter_cons, hx, ↓reduceIte, Memory.read, h]
      exact ih

theorem Memory.read_erase_of_ne (m : Memory) (a c : Nat) (h : c ≠ a) :
    (m.erase a).read c = m.read c := by
  induction m with
  | nil => rfl
  | cons d m ih =>
    obtain ⟨x, y⟩ := d
    by_cases hx : x = a
    · have hc : ¬ a = c := fun e => h e.symm
      simp only [Memory.erase, List.filter_cons, hx, bne_self_eq_false, Bool.false_eq_true, ↓reduceIte,
        Memory.read, hc]
      exact ih
    · have hx' : (x != a) = true := by simpa using hx
      simp only [Memory.erase, List.filter_cons, hx', ↓reduceIte, Memory.read]
      split
      · rfl
      · exact ih

theorem Memory.read_insert_self (a : Nat) (b : Byte) (m : Memory) (h : ∀ c ∈ m, c.1 ≠ a) :
    (Memory.insert a b m).read a = b := by
  induction m with
  | nil => simp [Memory.insert, Memory.read]
  | cons d m ih =>
    obtain ⟨x, y⟩ := d
    have hx : x ≠ a := h (x, y) (by simp)
    simp only [Memory.insert]
    split
    · simp [Memory.read]
    · simp only [Memory.read, hx, ↓reduceIte]
      exact ih fun c hc => h c (by simp [hc])

theorem Memory.read_insert_of_ne (a c : Nat) (b : Byte) (m : Memory) (h : c ≠ a) :
    (Memory.insert a b m).read c = m.read c := by
  induction m with
  | nil => simp [Memory.insert, Memory.read, h.symm]
  | cons d m ih =>
    obtain ⟨x, y⟩ := d
    simp only [Memory.insert]
    split
    · simp [Memory.read, h.symm]
    · simp only [Memory.read, ih]

theorem Memory.ne_of_mem_erase (m : Memory) (a : Nat) : ∀ c ∈ m.erase a, c.1 ≠ a := by
  intro c hc
  simpa [Memory.erase] using (List.mem_filter.mp hc).2

/-- A byte reads as what was written to it last, and every other byte as before. -/
theorem Memory.read_write (m : Memory) (a c : Nat) (b : Byte) :
    (m.write a b).read c = if c = a then b else m.read c := by
  unfold Memory.write
  by_cases hb : b = unlistedByte <;> by_cases hc : c = a
  · simp [hb, hc, Memory.read_erase_self]
  · simp [hb, hc, Memory.read_erase_of_ne]
  · simp only [hb, ↓reduceIte, hc]
    exact Memory.read_insert_self a b _ (Memory.ne_of_mem_erase m a)
  · simp only [hb, ↓reduceIte, hc]
    rw [Memory.read_insert_of_ne _ _ _ _ hc, Memory.read_erase_of_ne _ _ _ hc]

/-! ### A list of writes -/

theorem Memory.writeAll_cons (m : Memory) (c : Host.Cell) (cells : List Host.Cell) :
    m.writeAll (c :: cells) = (m.write c.1 c.2).writeAll cells := rfl

/-- A byte that no cell names reads as before. -/
theorem Memory.read_writeAll_of_notMem (cells : List Host.Cell) (m : Memory) (a : Nat)
    (h : ∀ c ∈ cells, c.1 ≠ a) : (m.writeAll cells).read a = m.read a := by
  induction cells generalizing m with
  | nil => rfl
  | cons c cells ih =>
    have hc : ¬ a = c.1 := fun e => h c (by simp) e.symm
    rw [Memory.writeAll_cons, ih _ fun d hd => h d (by simp [hd]), Memory.read_write, if_neg hc]

/-- A byte reads as the cells say, when all cells that name it agree. -/
theorem Memory.read_writeAll_of_mem (cells : List Host.Cell) (m : Memory) (a : Nat) (b : Byte)
    (hmem : (a, b) ∈ cells) (hall : ∀ c ∈ cells, c.1 = a → c.2 = b) :
    (m.writeAll cells).read a = b := by
  induction cells generalizing m with
  | nil => simp at hmem
  | cons c cells ih =>
    rw [Memory.writeAll_cons]
    by_cases hin : (a, b) ∈ cells
    · exact ih _ hin fun d hd => hall d (by simp [hd])
    · have hc : c = (a, b) := by
        rcases List.mem_cons.mp hmem with h | h
        · exact h.symm
        · exact absurd h hin
      have hrest : ∀ d ∈ cells, d.1 ≠ a := by
        intro d hd he
        apply hin
        have h2 : d.2 = b := hall d (by simp [hd]) he
        have hd' : d = (a, b) := Prod.ext he h2
        rw [← hd']
        exact hd
      rw [Memory.read_writeAll_of_notMem _ _ _ hrest, hc, Memory.read_write, if_pos rfl]

/-- A byte reads as before or as some cell that names it says. -/
theorem Memory.read_writeAll_cases (cells : List Host.Cell) (m : Memory) (a : Nat) :
    (m.writeAll cells).read a = m.read a ∨ ∃ c ∈ cells, c.1 = a ∧ (m.writeAll cells).read a = c.2 := by
  induction cells generalizing m with
  | nil => exact .inl rfl
  | cons c cells ih =>
    rw [Memory.writeAll_cons]
    rcases ih (m.write c.1 c.2) with h | ⟨d, hd, h1, h2⟩
    · rw [h, Memory.read_write]
      by_cases hc : a = c.1
      · exact .inr ⟨c, by simp, hc.symm, by simp [hc]⟩
      · exact .inl (by simp [hc])
    · exact .inr ⟨d, by simp [hd], h1, h2⟩

/-! ### The canonical form -/

/-- The canonical form, as a proposition. -/
theorem Memory.wf_iff (m : Memory) : m.wf = true ↔
    m.Pairwise (fun c d => c.1 < d.1) ∧ ∀ c ∈ m, c.1 < 2 ^ 32 ∧ c.2 ≠ unlistedByte := by
  simp [Memory.wf, List.all_eq_true]

theorem Memory.erase_wf {m : Memory} (h : m.wf = true) (a : Nat) : (m.erase a).wf = true := by
  rw [Memory.wf_iff] at h ⊢
  refine ⟨h.1.filter _, fun c hc => h.2 c (List.mem_filter.mp hc).1⟩

theorem Memory.mem_insert {a : Nat} {b : Byte} {m : Memory} {c : Host.Cell}
    (h : c ∈ Memory.insert a b m) : c = (a, b) ∨ c ∈ m := by
  induction m with
  | nil => simpa [Memory.insert] using h
  | cons d m ih =>
    simp only [Memory.insert] at h
    split at h
    · simpa using h
    · rcases List.mem_cons.mp h with h | h
      · exact .inr (by simp [h])
      · rcases ih h with h | h
        · exact .inl h
        · exact .inr (by simp [h])

theorem Memory.insert_wf {m : Memory} (h : m.wf = true) {a : Nat} {b : Byte} (ha : a < 2 ^ 32)
    (hb : b ≠ unlistedByte) (hne : ∀ c ∈ m, c.1 ≠ a) : (Memory.insert a b m).wf = true := by
  rw [Memory.wf_iff] at h ⊢
  refine ⟨?_, fun c hc => ?_⟩
  · induction m with
    | nil => simp [Memory.insert]
    | cons d m ih =>
      obtain ⟨hp, hall⟩ := h
      rw [List.pairwise_cons] at hp
      simp only [Memory.insert]
      split
      · rename_i hlt
        refine List.pairwise_cons.mpr ⟨fun c hc => ?_, List.pairwise_cons.mpr hp⟩
        rcases List.mem_cons.mp hc with hc | hc
        · rw [hc]; exact hlt
        · exact lt_trans hlt (hp.1 c hc)
      · rename_i hge
        have hd : d.1 ≠ a := hne d (by simp)
        refine List.pairwise_cons.mpr ⟨fun c hc => ?_, ?_⟩
        · rcases Memory.mem_insert hc with hc | hc
          · rw [hc]; simp only at hge ⊢; omega
          · exact hp.1 c hc
        · exact ih ⟨hp.2, fun c hc => hall c (by simp [hc])⟩ fun c hc => hne c (by simp [hc])
  · rcases Memory.mem_insert hc with hc | hc
    · rw [hc]; exact ⟨ha, hb⟩
    · exact h.2 c hc

/-- A write inside the address space keeps the canonical form. -/
theorem Memory.write_wf {m : Memory} (h : m.wf = true) {a : Nat} (ha : a < 2 ^ 32) (b : Byte) :
    (m.write a b).wf = true := by
  unfold Memory.write
  split
  · exact Memory.erase_wf h a
  · rename_i hb
    exact Memory.insert_wf (Memory.erase_wf h a) ha hb (Memory.ne_of_mem_erase m a)

/-- A list of writes inside the address space keeps the canonical form. -/
theorem Memory.writeAll_wf {m : Memory} (h : m.wf = true) {cells : List Host.Cell}
    (hc : ∀ c ∈ cells, c.1 < 2 ^ 32) : (m.writeAll cells).wf = true := by
  induction cells generalizing m with
  | nil => exact h
  | cons c cells ih =>
    rw [Memory.writeAll_cons]
    exact ih (Memory.write_wf h (hc c (by simp)) c.2) fun d hd => hc d (by simp [hd])

/-- Two canonical memories that read alike everywhere are the same data. -/
theorem Memory.eq_of_read_eq {m n : Memory} (hm : m.wf = true) (hn : n.wf = true)
    (h : ∀ a : Nat, m.read a = n.read a) : m = n := by
  have hlt : ∀ (c : Host.Cell) (l : Memory), Memory.wf (c :: l) = true →
      ∀ a : Nat, a < c.1 → Memory.read (c :: l) a = unlistedByte := by
    intro c l hw a ha
    rw [Memory.wf_iff] at hw
    have hnone : ∀ (l : Memory), (∀ d ∈ l, d.1 ≠ a) → Memory.read l a = unlistedByte := by
      intro l
      induction l with
      | nil => intro _; rfl
      | cons d l ih =>
        intro hd
        have h1 := hd d (by simp)
        simp only [Memory.read, h1, ↓reduceIte]
        exact ih fun e he => hd e (by simp [he])
    refine hnone _ fun d hd => ?_
    rcases List.mem_cons.mp hd with hd | hd
    · rw [hd]; omega
    · have := (List.pairwise_cons.mp hw.1).1 d hd; omega
  have htail : ∀ (c : Host.Cell) (l : Memory), Memory.wf (c :: l) = true → Memory.wf l = true ∧
      ∀ a : Nat, a ≤ c.1 → Memory.read l a = unlistedByte := by
    intro c l hw
    have hw' := (Memory.wf_iff _).mp hw
    have hl : Memory.wf l = true :=
      (Memory.wf_iff _).mpr ⟨(List.pairwise_cons.mp hw'.1).2, fun d hd => hw'.2 d (by simp [hd])⟩
    refine ⟨hl, fun a ha => ?_⟩
    cases l with
    | nil => rfl
    | cons d l =>
      have := (List.pairwise_cons.mp hw'.1).1 d (by simp)
      exact hlt d l hl a (by omega)
  induction m generalizing n with
  | nil =>
    cases n with
    | nil => rfl
    | cons d n =>
      have h1 := h d.1
      have h2 := ((Memory.wf_iff _).mp hn).2 d (by simp)
      simp [Memory.read] at h1
      exact absurd h1.symm h2.2
  | cons c m ih =>
    cases n with
    | nil =>
      have h1 := h c.1
      have h2 := ((Memory.wf_iff _).mp hm).2 c (by simp)
      simp [Memory.read] at h1
      exact absurd h1 h2.2
    | cons d n =>
      have hc2 := ((Memory.wf_iff _).mp hm).2 c (by simp)
      have hd2 := ((Memory.wf_iff _).mp hn).2 d (by simp)
      have hcd : c.1 = d.1 := by
        rcases lt_trichotomy c.1 d.1 with hl | he | hl
        · have h1 := h c.1
          rw [hlt d n hn c.1 hl] at h1
          simp [Memory.read] at h1
          exact absurd h1 hc2.2
        · exact he
        · have h1 := h d.1
          rw [hlt c m hm d.1 hl] at h1
          simp [Memory.read] at h1
          exact absurd h1.symm hd2.2
      have hb : c.2 = d.2 := by
        have h1 := h c.1
        simp [Memory.read, hcd] at h1
        exact h1
      have hcd' : c = d := Prod.ext hcd hb
      obtain ⟨hm', hmr⟩ := htail c m hm
      obtain ⟨hn', hnr⟩ := htail d n hn
      rw [hcd', ih hm' hn' fun a => ?_]
      by_cases ha : a ≤ c.1
      · rw [hmr a ha, hnr a (by omega)]
      · have h1 := h a
        have hca : ¬ c.1 = a := by omega
        have hda : ¬ d.1 = a := by omega
        simpa [Memory.read, hca, hda] using h1

/-! ### Addresses of accesses are inside the address space -/

theorem byteAddr_lt (a : Word) (k : Nat) : byteAddr a k < 2 ^ 32 := (a + BitVec.ofNat 32 k).isLt

theorem mem_span {a : Word} {n x : Nat} : x ∈ span a n ↔ ∃ k < n, byteAddr a k = x := by
  simp [span]

theorem mem_span_lt {a : Word} {n x : Nat} (h : x ∈ span a n) : x < 2 ^ 32 := by
  obtain ⟨k, -, rfl⟩ := mem_span.mp h
  exact byteAddr_lt a k

/-- Two of `n ≤ 2^32` bytes of one access lie at one address only if they are the same byte. -/
theorem byteAddr_inj {a : Word} {k l : Nat} (hk : k < 2 ^ 32) (hl : l < 2 ^ 32)
    (h : byteAddr a k = byteAddr a l) : k = l := by
  simp only [byteAddr, BitVec.toNat_add, BitVec.toNat_ofNat] at h
  have := a.isLt
  omega

end Sys2Proof.Machine
end

