-- ==== Sys2Proof/Laws/Ops.lean ====
section
/-! SUPPORT. What each shared operation can do, said once: the two kinds of memory error, the open
writes, the accesses of 16 bytes, lane groups and their rotation. -/

namespace Sys2Proof.Machine

/-! ### Footprints and memory errors -/

theorem State.mem_invalid {s : State} {fp : List Nat} {a : Nat} :
    a ∈ s.invalid fp ↔ a ∈ fp ∧ s.memValid a = false := by
  simp [State.invalid]

theorem State.invalid_eq_nil {s : State} {fp : List Nat} :
    s.invalid fp = [] ↔ ∀ a ∈ fp, s.memValid a = true := by
  simp [State.invalid, List.filter_eq_nil_iff]

/-- The recorded address is one of the invalid ones (rule R34). -/
theorem State.errorAddr_mem (s : State) (bad : List Nat) (h : bad ≠ []) :
    ∃ a ∈ bad, s.errorAddr bad = BitVec.ofNat 32 a := by
  have hl : 0 < bad.length := List.length_pos_iff.mpr h
  have hk : Config.freeErrAddr s.freeCount % bad.length < bad.length := Nat.mod_lt _ hl
  refine ⟨bad[Config.freeErrAddr s.freeCount % bad.length], List.getElem_mem hk, ?_⟩
  simp [State.errorAddr, hk]

/-- A precise command with a valid footprint completes in `done` (rule R56). -/
theorem State.precise_valid {s : State} (w : Word) {fp : List Nat} (done : State)
    (h : ∀ a ∈ fp, s.memValid a = true) : s.precise w fp done = .next done.complete := by
  simp [State.precise, State.invalid_eq_nil.mpr h]

/-- A precise command with an invalid address changes nothing but the error's record (rule R182). -/
theorem State.precise_invalid {s : State} (w : Word) {fp : List Nat} (done : State)
    (h : ∃ a ∈ fp, s.memValid a = false) :
    ∃ a ∈ fp, s.memValid a = false ∧
      s.precise w fp done = .next (s.raise (.memError (BitVec.ofNat 32 a)) w).fresh := by
  obtain ⟨b, hb, hv⟩ := h
  have hmem : b ∈ s.invalid fp := State.mem_invalid.mpr ⟨hb, hv⟩
  obtain ⟨a, ha, he⟩ := s.errorAddr_mem (s.invalid fp) (List.ne_nil_of_mem hmem)
  obtain ⟨ha1, ha2⟩ := State.mem_invalid.mp ha
  refine ⟨a, ha1, ha2, ?_⟩
  unfold State.precise
  split
  · rename_i hnil
    simp [hnil] at hmem
  · rw [he]

/-- A precise command completes or records one invalid address of its footprint. -/
theorem State.precise_cases (s : State) (w : Word) (fp : List Nat) (done : State) :
    ((∀ a ∈ fp, s.memValid a = true) ∧ s.precise w fp done = .next done.complete) ∨
      ∃ a ∈ fp, s.memValid a = false ∧
        s.precise w fp done = .next (s.raise (.memError (BitVec.ofNat 32 a)) w).fresh := by
  by_cases h : ∀ a ∈ fp, s.memValid a = true
  · exact .inl ⟨h, State.precise_valid w done h⟩
  · refine .inr (State.precise_invalid w done ?_)
    simpa using h

/-- An engine command with a valid footprint writes all its cells (rule R56). -/
theorem State.imprecise_valid {s : State} (w : Word) {fp : List Nat} (cells : List Host.Cell)
    (done spoilt : State → State) (h : ∀ a ∈ fp, s.memValid a = true) :
    s.imprecise w fp cells done spoilt = .next (done (s.store cells)).complete := by
  simp [State.imprecise, State.invalid_eq_nil.mpr h]

/-- An engine command with an invalid address writes an open subset of its cells (rule R182). -/
theorem State.imprecise_invalid {s : State} (w : Word) {fp : List Nat} (cells : List Host.Cell)
    (done spoilt : State → State) (h : ∃ a ∈ fp, s.memValid a = false) :
    ∃ a ∈ fp, s.memValid a = false ∧
      s.imprecise w fp cells done spoilt =
        .next ((spoilt (s.storeSome cells)).raise (.memError (BitVec.ofNat 32 a)) w).fresh := by
  obtain ⟨b, hb, hv⟩ := h
  have hmem : b ∈ s.invalid fp := State.mem_invalid.mpr ⟨hb, hv⟩
  obtain ⟨a, ha, he⟩ := s.errorAddr_mem (s.invalid fp) (List.ne_nil_of_mem hmem)
  obtain ⟨ha1, ha2⟩ := State.mem_invalid.mp ha
  refine ⟨a, ha1, ha2, ?_⟩
  unfold State.imprecise
  split
  · rename_i hnil
    simp [hnil] at hmem
  · rw [he]

/-- An engine command completes or records one invalid address of its footprint. -/
theorem State.imprecise_cases (s : State) (w : Word) (fp : List Nat) (cells : List Host.Cell)
    (done spoilt : State → State) :
    ((∀ a ∈ fp, s.memValid a = true) ∧
        s.imprecise w fp cells done spoilt = .next (done (s.store cells)).complete) ∨
      ∃ a ∈ fp, s.memValid a = false ∧
        s.imprecise w fp cells done spoilt =
          .next ((spoilt (s.storeSome cells)).raise (.memError (BitVec.ofNat 32 a)) w).fresh := by
  by_cases h : ∀ a ∈ fp, s.memValid a = true
  · exact .inl ⟨h, State.imprecise_valid w cells done spoilt h⟩
  · refine .inr (State.imprecise_invalid w cells done spoilt ?_)
    simpa using h

/-- Only addresses of the address space are valid (rules R50, R55). -/
theorem State.lt_of_memValid {s : State} {a : Nat} (h : s.memValid a = true) : a < 2 ^ 32 := by
  simp only [State.memValid, Bool.and_eq_true, decide_eq_true_eq] at h
  exact h.1

/-! ### Memory after stores -/

/-- After an open store a byte reads as before, or as a cell with that valid address says (rule R182). -/
theorem State.read_storeSome (s : State) (cells : List Host.Cell) (a : Nat) :
    (s.storeSome cells).mem.read a = s.mem.read a ∨
      ∃ c ∈ cells, c.1 = a ∧ s.memValid a = true ∧ (s.storeSome cells).mem.read a = c.2 := by
  rcases Memory.read_writeAll_cases
      (cells.filter fun c => s.memValid c.1 && Config.performed s.freeCount c.1) s.mem a with
    h | ⟨c, hc, h1, h2⟩
  · exact .inl h
  · obtain ⟨hc1, hc2⟩ := List.mem_filter.mp hc
    simp only [Bool.and_eq_true] at hc2
    exact .inr ⟨c, hc1, h1, h1 ▸ hc2.1, h2⟩

/-- A store of cells inside the address space keeps the canonical form. -/
theorem State.store_wf {s : State} (h : s.mem.wf = true) {cells : List Host.Cell}
    (hc : ∀ c ∈ cells, c.1 < 2 ^ 32) : (s.store cells).mem.wf = true :=
  Memory.writeAll_wf h hc

/-- An open store keeps the canonical form. -/
theorem State.storeSome_wf {s : State} (h : s.mem.wf = true) (cells : List Host.Cell) :
    (s.storeSome cells).mem.wf = true := by
  refine Memory.writeAll_wf h fun c hc => ?_
  have := (List.mem_filter.mp hc).2
  simp only [Bool.and_eq_true] at this
  exact State.lt_of_memValid this.1

/-! ### Accesses of 16 bytes -/

/-- Byte lane `k` of a 16-byte read is the byte at `a + k` (rule R13). -/
theorem State.byteLane_read16 (s : State) (a : Word) (k : Nat) (h : k < 16) :
    byteLane (s.read16 a) k = s.mem.read (byteAddr a k) := by
  simp [State.read16, State.readByte, byteAddr, h]

theorem mem_cells16 {a : Word} {v : Vec} {c : Host.Cell} :
    c ∈ cells16 a v ↔ ∃ k < 16, c = (byteAddr a k, byteLane v k) := by
  simp [cells16, eq_comm]

/-- A 16-byte write puts byte lane `k` at `a + k` (rule R13). -/
theorem Memory.read_cells16_self (m : Memory) (a : Word) (v : Vec) (k : Nat) (h : k < 16) :
    (m.writeAll (cells16 a v)).read (byteAddr a k) = byteLane v k := by
  refine Memory.read_writeAll_of_mem _ _ _ _ (mem_cells16.mpr ⟨k, h, rfl⟩) fun c hc he => ?_
  obtain ⟨l, hl, rfl⟩ := mem_cells16.mp hc
  rw [byteAddr_inj (by omega) (by omega) he]

/-- A 16-byte write leaves every other byte as it was. -/
theorem Memory.read_cells16_other (m : Memory) (a : Word) (v : Vec) (x : Nat) (h : x ∉ span a 16) :
    (m.writeAll (cells16 a v)).read x = m.read x := by
  refine Memory.read_writeAll_of_notMem _ _ _ fun c hc he => ?_
  obtain ⟨l, hl, rfl⟩ := mem_cells16.mp hc
  exact h (mem_span.mpr ⟨l, hl, he⟩)

/-! ### Descriptors of one EXTRACT -/

/-- The patch of a descriptor is valid when each of its 63 pixels lies at a valid address (rule R55). -/
theorem State.patchValid_iff {s : State} {j : ExtractJob} {ox oy : Nat} :
    s.patchValid j ox oy = true ↔
      ∀ r < 7, ∀ c < 9, s.memValid (j.pixelAddr (ox + c) (oy + r)).toNat = true := by
  simp [State.patchValid, Config.params]

/-- A descriptor with a valid patch is written as its census (rules R151, R157). -/
theorem State.descriptorCells_of_valid {s : State} {j : ExtractJob} {ox oy : Nat}
    (h : s.patchValid j ox oy = true) :
    s.descriptorCells j ox oy = descCells (j.descAddr ox oy) (census (j.pix s.mem) ox oy) := by
  simp [State.descriptorCells, h]

/-- A descriptor is written to its four bytes and nowhere else, whatever its value (rule R159). -/
theorem State.addr_of_mem_descriptorCells {s : State} {j : ExtractJob} {ox oy : Nat} {c : Host.Cell}
    (h : c ∈ s.descriptorCells j ox oy) : ∃ t < 4, byteAddr (j.descAddr ox oy) t = c.1 := by
  unfold State.descriptorCells at h
  split at h
  · simp only [descCells, List.mem_map, List.mem_range] at h
    obtain ⟨t, ht, rfl⟩ := h
    exact ⟨t, ht, rfl⟩
  · obtain ⟨a, ha, rfl⟩ := List.mem_map.mp h
    exact mem_span.mp ha

/-- Every write of the walk is one of a descriptor that the walk evaluates (rules R156, R157). -/
theorem State.mem_walkCells {s : State} {j : ExtractJob} {c : Host.Cell} :
    c ∈ s.walkCells j ↔
      ∃ o ∈ walk Config.params j.wOut j.hOut, c ∈ s.descriptorCells j o.1 o.2 := by
  simp only [State.walkCells, List.mem_flatMap]

/-! ### Lane groups -/

@[simp] theorem groupReg_val (g : Group) (m : Nat) (h : m < 4) : (groupReg g m).val = 4 * g.val + m := by
  have := g.isLt
  simp only [groupReg, Fin.val_ofNat]
  omega

@[simp] theorem doubleReg_val (h : DoubleGroup) (k : Nat) (hk : k < 8) :
    (doubleReg h k).val = 8 * h.val + k := by
  have := h.isLt
  simp only [doubleReg, Fin.val_ofNat]
  omega

theorem inDouble_doubleReg (h : DoubleGroup) (k : Nat) (hk : k < 8) :
    inDouble h (doubleReg h k) = true := by
  simp only [inDouble, doubleReg_val h k hk, beq_iff_eq]
  omega

theorem inGroup_groupReg (g : Group) (m : Nat) (hm : m < 4) : inGroup g (groupReg g m) = true := by
  simp only [inGroup, groupReg_val g m hm, beq_iff_eq]
  omega

/-- A register of a lane group lies in the double lane group that holds the group (rule R12). -/
theorem inDouble_groupReg (h : DoubleGroup) (g : Group) (m : Nat) (hm : m < 4) :
    inDouble h (groupReg g m) = decide (g.val / 2 = h.val) := by
  simp only [inDouble, groupReg_val g m hm, beq_eq_decide]
  congr 1
  apply propext
  omega

/-- Rotation moves lane `j` to lane `(j + k) mod 32` (rules R133, R174). -/
theorem State.doubleLane_rotateUp (s : State) (h : DoubleGroup) (k : Nat) (hk : k ≤ 32) (j : Nat)
    (hj : j < 32) : (s.rotateUp h k).doubleLane h j = s.doubleLane h ((j + 32 - k) % 32) := by
  have h1 : j / 4 < 8 := by omega
  have h2 : j % 4 < 4 := by omega
  have h3 : 4 * ((8 * h.val + j / 4) % 8) + j % 4 + 32 - k = j + 32 - k := by omega
  unfold State.rotateUp
  rw [State.doubleLane, State.readV_writeAllV, if_pos (inDouble_doubleReg h _ h1),
    doubleReg_val h _ h1, wordLane_ofWords _ _ h2, h3]

/-- Rotation leaves every register outside the double lane group as it was (rules R133, R174). -/
theorem State.readV_rotateUp_of_not (s : State) (h : DoubleGroup) (k : Nat) (i : VReg)
    (hi : inDouble h i = false) : (s.rotateUp h k).readV i = s.readV i := by
  simp [State.rotateUp, hi]

/-- The lanes of a group that is apart from `H(h)` do not move (rule R135). -/
theorem State.groupLane_rotateUp (s : State) (h : DoubleGroup) (k : Nat) (g : Group)
    (hg : g.val / 2 ≠ h.val) (i : Nat) (hi : i < 16) :
    (s.rotateUp h k).groupLane g i = s.groupLane g i := by
  have h1 : i / 4 < 4 := by omega
  unfold State.groupLane
  rw [State.readV_rotateUp_of_not]
  rw [inDouble_groupReg h g _ h1]
  simp [hg]

/-- Spoiling leaves every register outside the double lane group as it was (rule R182). -/
theorem State.readV_spoilDouble_of_not (s : State) (h : DoubleGroup) (i : VReg)
    (hi : inDouble h i = false) : (s.spoilDouble h).readV i = s.readV i := by
  simp [State.spoilDouble, hi]

end Sys2Proof.Machine
end

