-- ==== Sys2Proof/Laws/PerInstr.lean ====
section
/-! SUPPORT. What holds of every command's encoding, one lemma per constructor. -/

namespace Sys2Proof

/-- The encoding of the command meets the mask and match of a row of the opcode table, and that row
reads the command back from it (rules R74, R76). -/
def Laws.RowReadsBack.Statement (i : Instr) : Prop :=
  ∃ r ∈ opcodeTable, r.accepts (encode i) = true ∧ r.read (encode i) = i

/-- The fields of the command are well formed (rule R72). -/
def Laws.FieldsWellFormed.Statement (i : Instr) : Prop := i.fields.wellFormed = true

theorem Laws.nibble_mod (m : Nat) (d : Fin m) (hm : m ≤ 16) : (nibble d.val).toNat % m = d.val := by
  rw [nibble_toNat (by omega), Nat.mod_eq_of_lt d.isLt]

theorem Laws.read_f1 (m : Nat) [NeZero m] (hm : m ∣ 16) (d : Fin m) (x : Fields) (h : x.f1 = nibble d.val) :
    operandAt m 20 x.word = d :=
  Fin.ext (by rw [operandAt_f1 m hm, h, Laws.nibble_mod m d (Nat.le_of_dvd (by decide) hm)])

theorem Laws.read_f2 (m : Nat) [NeZero m] (hm : m ∣ 16) (d : Fin m) (x : Fields) (h : x.f2 = nibble d.val) :
    operandAt m 16 x.word = d :=
  Fin.ext (by rw [operandAt_f2 m hm, h, Laws.nibble_mod m d (Nat.le_of_dvd (by decide) hm)])

theorem Laws.read_f3 (m : Nat) [NeZero m] (hm : m ∣ 16) (d : Fin m) (x : Fields) (h : x.f3 = nibble d.val) :
    operandAt m 12 x.word = d :=
  Fin.ext (by rw [operandAt_f3 m hm, h, Laws.nibble_mod m d (Nat.le_of_dvd (by decide) hm)])

theorem Laws.read_f4 (m : Nat) [NeZero m] (hm : m ∣ 16) (d : Fin m) (x : Fields) (h : x.f4 = nibble d.val) :
    operandAt m 8 x.word = d :=
  Fin.ext (by rw [operandAt_f4 m hm, h, Laws.nibble_mod m d (Nat.le_of_dvd (by decide) hm)])

theorem Laws.read_f5 (m : Nat) [NeZero m] (hm : m ∣ 16) (d : Fin m) (x : Fields) (h : x.f5 = nibble d.val) :
    operandAt m 4 x.word = d :=
  Fin.ext (by rw [operandAt_f5 m hm, h, Laws.nibble_mod m d (Nat.le_of_dvd (by decide) hm)])

theorem Laws.read_f6 (m : Nat) [NeZero m] (hm : m ∣ 16) (d : Fin m) (x : Fields) (h : x.f6 = nibble d.val) :
    operandAt m 0 x.word = d :=
  Fin.ext (by rw [operandAt_f6 m hm, h, Laws.nibble_mod m d (Nat.le_of_dvd (by decide) hm)])

/-- The must-be-zero bits of the narrow fields (rule R72). -/
theorem Laws.mask_f_group (g : Fin 4) : nibble g.val &&& 12#4 = 0#4 := by revert g; decide

theorem Laws.mask_f_bit (h : Fin 2) : nibble h.val &&& 14#4 = 0#4 := by revert h; decide

theorem Laws.mask_f_bitIndex (b : Fin 8) : nibble b.val &&& 8#4 = 0#4 := by revert b; decide

theorem Laws.mask_f_flag (e : Bool) : nibble e.toNat &&& 14#4 = 0#4 := by revert e; decide

theorem Laws.mask_f_off (off : Fin 32) : nibble (off.val / 16) &&& 14#4 = 0#4 := by revert off; decide

theorem Laws.isGroup_nibble (g : Fin 4) : Fields.isGroup (nibble g.val) = true := by revert g; decide

theorem Laws.isBit_nibble (h : Fin 2) : Fields.isBit (nibble h.val) = true := by revert h; decide

theorem Laws.isBitIndex_nibble (b : Fin 8) : Fields.isBitIndex (nibble b.val) = true := by revert b; decide

theorem Laws.isBit_flag (e : Bool) : Fields.isBit (nibble e.toNat) = true := by revert e; decide

theorem Laws.isBit_off (off : Fin 32) : Fields.isBit (nibble (off.val / 16)) = true := by revert off; decide

theorem Laws.RowReadsBack.setlo (d : SReg) (imm16 : BitVec 16) : Statement (.setlo d imm16) := by
  refine ⟨opcodeTable[0], List.getElem_mem _, (Row.accepts_iff _ _).mpr ?_, ?_⟩
  · rw [encode, Fields.cut_word]
    simp [Instr.fields, Fields.and, Fields.cut, opcodeTable]
  · show Instr.setlo (operandAt 16 20 (encode (.setlo d imm16))) ((encode (.setlo d imm16)).extractLsb' 0 16) = _
    rw [encode, Laws.read_f1 16 (by decide) d _ rfl]
    exact congrArg _ (imm_roundtrip _ _ _ _)

theorem Laws.RowReadsBack.sethi (d : SReg) (imm16 : BitVec 16) : Statement (.sethi d imm16) := by
  refine ⟨opcodeTable[1], List.getElem_mem _, (Row.accepts_iff _ _).mpr ?_, ?_⟩
  · rw [encode, Fields.cut_word]
    simp [Instr.fields, Fields.and, Fields.cut, opcodeTable]
  · show Instr.sethi (operandAt 16 20 (encode (.sethi d imm16))) ((encode (.sethi d imm16)).extractLsb' 0 16) = _
    rw [encode, Laws.read_f1 16 (by decide) d _ rfl]
    exact congrArg _ (imm_roundtrip _ _ _ _)

theorem Laws.RowReadsBack.vclr (d : VReg) : Statement (.vclr d) := by
  refine ⟨opcodeTable[2], List.getElem_mem _, (Row.accepts_iff _ _).mpr ?_, ?_⟩
  · rw [encode, Fields.cut_word]
    simp [Instr.fields, Fields.and, Fields.cut, opcodeTable]
  · show Instr.vclr (operandAt 16 20 (encode (.vclr d))) = _
    rw [encode, Laws.read_f1 16 (by decide) d _ rfl]

theorem Laws.RowReadsBack.clrst : Statement (.clrst) := by
  refine ⟨opcodeTable[3], List.getElem_mem _, (Row.accepts_iff _ _).mpr ?_, ?_⟩
  · rw [encode, Fields.cut_word]
    simp [Instr.fields, Fields.and, Fields.cut, opcodeTable]
  · rfl

theorem Laws.RowReadsBack.ldpr (d : RReg) (a p : SReg) : Statement (.ldpr d a p) := by
  refine ⟨opcodeTable[4], List.getElem_mem _, (Row.accepts_iff _ _).mpr ?_, ?_⟩
  · rw [encode, Fields.cut_word]
    simp [Instr.fields, Fields.and, Fields.cut, opcodeTable]
  · show Instr.ldpr (operandAt 16 20 (encode (.ldpr d a p)))
      (operandAt 16 16 (encode (.ldpr d a p)))
      (operandAt 16 12 (encode (.ldpr d a p))) = _
    rw [encode, Laws.read_f1 16 (by decide) d _ rfl,
      Laws.read_f2 16 (by decide) a _ rfl,
      Laws.read_f3 16 (by decide) p _ rfl]

theorem Laws.RowReadsBack.ldv (d : VReg) (a p : SReg) (n : Fin 16) : Statement (.ldv d a p n) := by
  refine ⟨opcodeTable[5], List.getElem_mem _, (Row.accepts_iff _ _).mpr ?_, ?_⟩
  · rw [encode, Fields.cut_word]
    simp [Instr.fields, Fields.and, Fields.cut, opcodeTable]
  · show Instr.ldv (operandAt 16 20 (encode (.ldv d a p n)))
      (operandAt 16 16 (encode (.ldv d a p n)))
      (operandAt 16 12 (encode (.ldv d a p n)))
      (operandAt 16 8 (encode (.ldv d a p n))) = _
    rw [encode, Laws.read_f1 16 (by decide) d _ rfl,
      Laws.read_f2 16 (by decide) a _ rfl,
      Laws.read_f3 16 (by decide) p _ rfl,
      Laws.read_f4 16 (by decide) n _ rfl]

theorem Laws.RowReadsBack.std (a : VReg) (d p : SReg) (n : Fin 16) : Statement (.std a d p n) := by
  refine ⟨opcodeTable[6], List.getElem_mem _, (Row.accepts_iff _ _).mpr ?_, ?_⟩
  · rw [encode, Fields.cut_word]
    simp [Instr.fields, Fields.and, Fields.cut, opcodeTable]
  · show Instr.std (operandAt 16 20 (encode (.std a d p n)))
      (operandAt 16 16 (encode (.std a d p n)))
      (operandAt 16 12 (encode (.std a d p n)))
      (operandAt 16 8 (encode (.std a d p n))) = _
    rw [encode, Laws.read_f1 16 (by decide) a _ rfl,
      Laws.read_f2 16 (by decide) d _ rfl,
      Laws.read_f3 16 (by decide) p _ rfl,
      Laws.read_f4 16 (by decide) n _ rfl]

theorem Laws.RowReadsBack.cmppr (d : PReg) (a b : RReg) : Statement (.cmppr d a b) := by
  refine ⟨opcodeTable[7], List.getElem_mem _, (Row.accepts_iff _ _).mpr ?_, ?_⟩
  · rw [encode, Fields.cut_word]
    simp [Instr.fields, Fields.and, Fields.cut, opcodeTable]
  · show Instr.cmppr (operandAt 16 20 (encode (.cmppr d a b)))
      (operandAt 16 16 (encode (.cmppr d a b)))
      (operandAt 16 12 (encode (.cmppr d a b))) = _
    rw [encode, Laws.read_f1 16 (by decide) d _ rfl,
      Laws.read_f2 16 (by decide) a _ rfl,
      Laws.read_f3 16 (by decide) b _ rfl]

theorem Laws.RowReadsBack.selb (d a : VReg) (p : PReg) (b : Fin 8) : Statement (.selb d a p b) := by
  refine ⟨opcodeTable[8], List.getElem_mem _, (Row.accepts_iff _ _).mpr ?_, ?_⟩
  · rw [encode, Fields.cut_word]
    simp [Instr.fields, Fields.and, Fields.cut, opcodeTable, Laws.mask_f_bitIndex]
  · show Instr.selb (operandAt 16 20 (encode (.selb d a p b)))
      (operandAt 16 16 (encode (.selb d a p b)))
      (operandAt 16 12 (encode (.selb d a p b)))
      (operandAt 8 8 (encode (.selb d a p b))) = _
    rw [encode, Laws.read_f1 16 (by decide) d _ rfl,
      Laws.read_f2 16 (by decide) a _ rfl,
      Laws.read_f3 16 (by decide) p _ rfl,
      Laws.read_f4 8 (by decide) b _ rfl]

theorem Laws.RowReadsBack.trpr (a b : RReg) : Statement (.trpr a b) := by
  refine ⟨opcodeTable[9], List.getElem_mem _, (Row.accepts_iff _ _).mpr ?_, ?_⟩
  · rw [encode, Fields.cut_word]
    simp [Instr.fields, Fields.and, Fields.cut, opcodeTable]
  · show Instr.trpr (operandAt 16 20 (encode (.trpr a b)))
      (operandAt 16 16 (encode (.trpr a b))) = _
    rw [encode, Laws.read_f1 16 (by decide) a _ rfl,
      Laws.read_f2 16 (by decide) b _ rfl]

theorem Laws.RowReadsBack.roll (d a : RReg) (x : Fin 4) : Statement (.roll d a x) := by
  refine ⟨opcodeTable[10], List.getElem_mem _, (Row.accepts_iff _ _).mpr ?_, ?_⟩
  · rw [encode, Fields.cut_word]
    simp [Instr.fields, Fields.and, Fields.cut, opcodeTable, Laws.mask_f_group]
  · show Instr.roll (operandAt 16 20 (encode (.roll d a x)))
      (operandAt 16 16 (encode (.roll d a x)))
      (operandAt 4 12 (encode (.roll d a x))) = _
    rw [encode, Laws.read_f1 16 (by decide) d _ rfl,
      Laws.read_f2 16 (by decide) a _ rfl,
      Laws.read_f3 4 (by decide) x _ rfl]

theorem Laws.RowReadsBack.zip (g : Group) : Statement (.zip g) := by
  refine ⟨opcodeTable[11], List.getElem_mem _, (Row.accepts_iff _ _).mpr ?_, ?_⟩
  · rw [encode, Fields.cut_word]
    simp [Instr.fields, Fields.and, Fields.cut, opcodeTable, Laws.mask_f_group]
  · show Instr.zip (operandAt 4 20 (encode (.zip g))) = _
    rw [encode, Laws.read_f1 4 (by decide) g _ rfl]

theorem Laws.RowReadsBack.pcxor (d : VReg) (gl : Group) (gr : DoubleGroup) (off : Fin 32) : Statement (.pcxor d gl gr off) := by
  refine ⟨opcodeTable[12], List.getElem_mem _, (Row.accepts_iff _ _).mpr ?_, ?_⟩
  · rw [encode, Fields.cut_word]
    simp [Instr.fields, Fields.and, Fields.cut, opcodeTable, Laws.mask_f_group, Laws.mask_f_bit, Laws.mask_f_off]
  · show Instr.pcxor (operandAt 16 20 (encode (.pcxor d gl gr off))) (operandAt 4 16 (encode (.pcxor d gl gr off)))
      (operandAt 2 12 (encode (.pcxor d gl gr off))) (operandAt 32 0 (encode (.pcxor d gl gr off))) = _
    have hoff : operandAt 32 0 (encode (.pcxor d gl gr off)) = off := by
      apply Fin.ext
      rw [encode, operandAt_off]
      simp only [Instr.fields]
      revert off
      decide
    rw [hoff, encode, Laws.read_f1 16 (by decide) d _ rfl, Laws.read_f2 4 (by decide) gl _ rfl,
      Laws.read_f3 2 (by decide) gr _ rfl]

theorem Laws.RowReadsBack.shup (gr : DoubleGroup) : Statement (.shup gr) := by
  refine ⟨opcodeTable[13], List.getElem_mem _, (Row.accepts_iff _ _).mpr ?_, ?_⟩
  · rw [encode, Fields.cut_word]
    simp [Instr.fields, Fields.and, Fields.cut, opcodeTable, Laws.mask_f_bit]
  · show Instr.shup (operandAt 2 20 (encode (.shup gr))) = _
    rw [encode, Laws.read_f1 2 (by decide) gr _ rfl]

theorem Laws.RowReadsBack.extract (src w h sp dst dp : SReg) : Statement (.extract src w h sp dst dp) := by
  refine ⟨opcodeTable[14], List.getElem_mem _, (Row.accepts_iff _ _).mpr ?_, ?_⟩
  · rw [encode, Fields.cut_word]
    simp [Instr.fields, Fields.and, Fields.cut, opcodeTable]
  · show Instr.extract (operandAt 16 20 (encode (.extract src w h sp dst dp)))
      (operandAt 16 16 (encode (.extract src w h sp dst dp)))
      (operandAt 16 12 (encode (.extract src w h sp dst dp)))
      (operandAt 16 8 (encode (.extract src w h sp dst dp)))
      (operandAt 16 4 (encode (.extract src w h sp dst dp)))
      (operandAt 16 0 (encode (.extract src w h sp dst dp))) = _
    rw [encode, Laws.read_f1 16 (by decide) src _ rfl,
      Laws.read_f2 16 (by decide) w _ rfl,
      Laws.read_f3 16 (by decide) h _ rfl,
      Laws.read_f4 16 (by decide) sp _ rfl,
      Laws.read_f5 16 (by decide) dst _ rfl,
      Laws.read_f6 16 (by decide) dp _ rfl]

theorem Laws.RowReadsBack.aggr (d p : SReg) (gl : Group) (gr : DoubleGroup) (e : Bool) : Statement (.aggr d p gl gr e) := by
  refine ⟨opcodeTable[15], List.getElem_mem _, (Row.accepts_iff _ _).mpr ?_, ?_⟩
  · rw [encode, Fields.cut_word]
    simp [Instr.fields, Fields.and, Fields.cut, opcodeTable, Laws.mask_f_group, Laws.mask_f_bit, Laws.mask_f_flag]
  · show Instr.aggr (operandAt 16 20 (encode (.aggr d p gl gr e))) (operandAt 16 16 (encode (.aggr d p gl gr e)))
      (operandAt 4 12 (encode (.aggr d p gl gr e))) (operandAt 2 8 (encode (.aggr d p gl gr e)))
      ((encode (.aggr d p gl gr e)).getLsbD 4) = _
    have he : (encode (.aggr d p gl gr e)).getLsbD 4 = e := by
      rw [encode, flag_f5]
      simp only [Instr.fields]
      revert e
      decide
    rw [he, encode, Laws.read_f1 16 (by decide) d _ rfl, Laws.read_f2 16 (by decide) p _ rfl,
      Laws.read_f3 4 (by decide) gl _ rfl, Laws.read_f4 2 (by decide) gr _ rfl]

theorem Laws.FieldsWellFormed.setlo (d : SReg) (imm16 : BitVec 16) : Statement (.setlo d imm16) := by
  rfl

theorem Laws.FieldsWellFormed.sethi (d : SReg) (imm16 : BitVec 16) : Statement (.sethi d imm16) := by
  rfl

theorem Laws.FieldsWellFormed.vclr (d : VReg) : Statement (.vclr d) := by
  rfl

theorem Laws.FieldsWellFormed.clrst : Statement (.clrst) := by
  rfl

theorem Laws.FieldsWellFormed.ldpr (d : RReg) (a p : SReg) : Statement (.ldpr d a p) := by
  rfl

theorem Laws.FieldsWellFormed.ldv (d : VReg) (a p : SReg) (n : Fin 16) : Statement (.ldv d a p n) := by
  rfl

theorem Laws.FieldsWellFormed.std (a : VReg) (d p : SReg) (n : Fin 16) : Statement (.std a d p n) := by
  rfl

theorem Laws.FieldsWellFormed.cmppr (d : PReg) (a b : RReg) : Statement (.cmppr d a b) := by
  rfl

theorem Laws.FieldsWellFormed.selb (d a : VReg) (p : PReg) (b : Fin 8) : Statement (.selb d a p b) := by
  simp [Laws.FieldsWellFormed.Statement, Instr.fields, Fields.wellFormed, Laws.isBitIndex_nibble]

theorem Laws.FieldsWellFormed.trpr (a b : RReg) : Statement (.trpr a b) := by
  rfl

theorem Laws.FieldsWellFormed.roll (d a : RReg) (x : Fin 4) : Statement (.roll d a x) := by
  simp [Laws.FieldsWellFormed.Statement, Instr.fields, Fields.wellFormed, Laws.isGroup_nibble]

theorem Laws.FieldsWellFormed.zip (g : Group) : Statement (.zip g) := by
  simp [Laws.FieldsWellFormed.Statement, Instr.fields, Fields.wellFormed, Laws.isGroup_nibble]

theorem Laws.FieldsWellFormed.pcxor (d : VReg) (gl : Group) (gr : DoubleGroup) (off : Fin 32) : Statement (.pcxor d gl gr off) := by
  simp [Laws.FieldsWellFormed.Statement, Instr.fields, Fields.wellFormed, Laws.isGroup_nibble, Laws.isBit_nibble, Laws.isBit_off]

theorem Laws.FieldsWellFormed.shup (gr : DoubleGroup) : Statement (.shup gr) := by
  simp [Laws.FieldsWellFormed.Statement, Instr.fields, Fields.wellFormed, Laws.isBit_nibble]

theorem Laws.FieldsWellFormed.extract (src w h sp dst dp : SReg) : Statement (.extract src w h sp dst dp) := by
  rfl

theorem Laws.FieldsWellFormed.aggr (d p : SReg) (gl : Group) (gr : DoubleGroup) (e : Bool) : Statement (.aggr d p gl gr e) := by
  simp [Laws.FieldsWellFormed.Statement, Instr.fields, Fields.wellFormed, Laws.isGroup_nibble, Laws.isBit_nibble, Laws.isBit_flag]

end Sys2Proof
end

