-- ==== Sys2Proof/Tests/Slice0.lean ====
section
/-! SUPPORT. Named checks of the model against words and values of the spec (spec/95_test_vectors.md,
spec/30_encoding.md), and for every statement with hypotheses a state that meets them. -/

open Sys2Proof Sys2Proof.Machine

namespace Sys2Proof.Tests

set_option maxRecDepth 100000

/-! ### Decoding: words written out field by field from rules R71, R76 (vectors of section 2.1) -/

theorem test_decode_setlo : decode (0x01#8 ++ 7#4 ++ 0#4 ++ 0x0008#16) = some (.setlo 7 0x0008#16) := by decide
theorem test_decode_sethi : decode (0x02#8 ++ 0#4 ++ 0#4 ++ 0xFFFF#16) = some (.sethi 0 0xFFFF#16) := by decide
theorem test_decode_vclr : decode (0x03#8 ++ 3#4 ++ 0#20) = some (.vclr 3) := by decide
theorem test_decode_clrst : decode (0x04#8 ++ 0#24) = some .clrst := by decide
theorem test_decode_ldpr : decode (0x10#8 ++ 0#4 ++ 1#4 ++ 7#4 ++ 0#12) = some (.ldpr 0 1 7) := by decide
theorem test_decode_ldv : decode (0x11#8 ++ 2#4 ++ 0#4 ++ 1#4 ++ 2#4 ++ 0#8) = some (.ldv 2 0 1 2) := by decide
theorem test_decode_std : decode (0x12#8 ++ 2#4 ++ 8#4 ++ 9#4 ++ 2#4 ++ 0#8) = some (.std 2 8 9 2) := by decide
theorem test_decode_cmppr : decode (0x20#8 ++ 0#4 ++ 2#4 ++ 5#4 ++ 0#12) = some (.cmppr 0 2 5) := by decide
theorem test_decode_selb : decode (0x21#8 ++ 1#4 ++ 1#4 ++ 0#4 ++ 3#4 ++ 0#8) = some (.selb 1 1 0 3) := by decide
theorem test_decode_trpr : decode (0x22#8 ++ 0#4 ++ 6#4 ++ 0#16) = some (.trpr 0 6) := by decide
theorem test_decode_roll : decode (0x23#8 ++ 0#4 ++ 0#4 ++ 1#4 ++ 0#12) = some (.roll 0 0 1) := by decide
theorem test_decode_zip : decode (0x24#8 ++ 3#4 ++ 0#20) = some (.zip 3) := by decide
theorem test_decode_pcxor :
    decode (0x30#8 ++ 4#4 ++ 3#4 ++ 1#4 ++ 0#4 ++ 0#3 ++ 31#5) = some (.pcxor 4 3 1 31) := by decide
theorem test_decode_shup : decode (0x31#8 ++ 1#4 ++ 0#20) = some (.shup 1) := by decide
theorem test_decode_extract :
    decode (0x40#8 ++ 0#4 ++ 1#4 ++ 2#4 ++ 3#4 ++ 4#4 ++ 5#4) = some (.extract 0 1 2 3 4 5) := by decide
theorem test_decode_aggr :
    decode (0x41#8 ++ 15#4 ++ 14#4 ++ 3#4 ++ 1#4 ++ 1#4 ++ 0#4) = some (.aggr 15 14 3 1 true) := by decide

/-- The 28 illegal words of section 2.1: an unassigned opcode, or one must-be-zero bit set. -/
def illegalWords : List Word :=
  [0x00000000, 0xFFFFFFFF, 0x05000000, 0x13000000, 0x25000000, 0x32000000, 0x42000000, 0x01710008,
    0x03300001, 0x04000001, 0x04100000, 0x10017001, 0x11201201, 0x12289210] ++
  [0x20025100, 0x21110B00, 0x22061000, 0x23004000, 0x24400000, 0x24010000, 0x30401020, 0x30441010,
    0x30402010, 0x31200000, 0x41010120, 0x41010111, 0x4101C110, 0x41010210]

theorem test_decode_refuses_illegal_words : (illegalWords.all fun w => decode w == none) = true := by decide

/-- The legal words of section 2.1. -/
def legalWords : List Word :=
  [0x10017000, 0x20025000, 0x21110300, 0x22060000, 0x23001000, 0x24000000, 0x24300000, 0x12289200,
    0x30401010, 0x3043101F] ++
  [0x31100000, 0x01700008, 0x0200FFFF, 0x03300000, 0x11201200, 0x04000000, 0x40012345, 0x40FFFFFF,
    0x41010110, 0x41FF3110]

theorem test_decode_accepts_legal_words : (legalWords.all fun w => (decode w).isSome) = true := by decide

/-- The encoder against words of section 2.1. -/
theorem test_encode_words :
    encode (.ldpr 0 1 7) = 0x10017000#32 ∧ encode (.cmppr 0 2 5) = 0x20025000#32 ∧
    encode (.selb 1 1 0 3) = 0x21110300#32 ∧ encode (.std 2 8 9 2) = 0x12289200#32 ∧
    encode (.pcxor 4 3 1 31) = 0x3043101F#32 ∧ encode (.setlo 7 0x0008#16) = 0x01700008#32 ∧
    encode (.extract 0 1 2 3 4 5) = 0x40012345#32 ∧ encode (.aggr 15 15 3 1 true) = 0x41FF3110#32 := by
  decide

/-- Assembler text of section 2.1 (rule R79). -/
theorem test_asm : (Instr.std 2 8 9 2).asm = "STD V2, S8, S9, 2" ∧
    (Instr.pcxor 4 3 1 31).asm = "PCXOR V4, G3, H1, 31" := by decide

/-- The expansions of LI of section 2.4 (rule R81). -/
theorem test_expandLI : (expandLI 4 0x00020000#32).map encode = [0x01400000#32, 0x02400002#32] ∧
    (expandLI 4 0x4000#32).map encode = [0x01404000#32] := by decide

/-! ### WellFormed: each check refuses an ill-formed term -/

/-- One parameter record for each clause of rule R9 that it breaks, in the order of the rule. -/
def invalidParams : List Params :=
  [{ Config.params with featureW := 8 }, { Config.params with featureH := 6 },
    { Config.params with vStep := 3, vPatch := 9, vBlock := 33 },
    { Config.params with vStep := 0, vPatch := 6, vBlock := 0 }, { Config.params with vPatch := 9 }] ++
  [{ Config.params with hPatch := 15 }, { Config.params with hPatch := 25 },
    { Config.params with hBlock := 16 }, { Config.params with vBlock := 6 },
    { Config.params with hBlock := 33 }, { Config.params with vBlock := 33 }]

theorem test_params_valid : Config.params.valid = true := by decide

theorem test_invalid_params_refused : ∀ p ∈ invalidParams, p.valid = false := by decide

theorem test_illegal_words_not_wellFormed :
    (illegalWords.all fun w => !(Fields.cut w).wellFormed) = true := by decide

theorem test_legal_words_wellFormed :
    (legalWords.all fun w => (Fields.cut w).wellFormed) = true := by decide

theorem test_narrow_fields : Fields.isGroup 3#4 = true ∧ Fields.isGroup 4#4 = false ∧
    Fields.isBit 1#4 = true ∧ Fields.isBit 2#4 = false ∧ Fields.isBitIndex 7#4 = true ∧
    Fields.isBitIndex 8#4 = false := by decide

/-! ### Helpers -/

/-- The command answers a next state of which `p` holds. -/
def Gives (o : Outcome) (p : State → Bool) : Bool :=
  match o with
  | .next t => p t
  | .fault _ => false
  | .refused _ => false

/-- The sixteen byte lanes, lane 0 first. -/
def lanes (v : Vec) : List Byte := (List.range 16).map (byteLane v)

/-- The four word lanes, lane 0 first. -/
def wordLanes (v : Vec) : List Word := (List.range 4).map (wordLane v)

/-- The vector register of sixteen bytes, lane 0 first. -/
def vec (bytes : List Byte) : Vec := ofBytes fun k => bytes.getD k 0

/-- The state with bytes at an address. -/
def poke (s : State) (a : Nat) (bytes : List Byte) : State :=
  s.store ((List.range bytes.length).map fun k => (a + k, bytes.getD k 0))

/-- `n` bytes of memory. -/
def peek (s : State) (a n : Nat) : List Byte := (List.range n).map fun k => s.mem.read (a + k)

/-- Scalar registers `S0, S1, ...` of the reset state set to words. -/
def scalars (ws : List Word) : State :=
  { State.reset with sreg := Vector.ofFn fun i => ws.getD i.val 0 }

/-- The platform of section 2.8: addresses 0x1000 to 0x4FFF are valid. -/
def windowed (s : State) : State := { s with backed := [⟨0x1000, 0x4000⟩] }

/-- The state with the host about to do `es`. -/
def facing (s : State) (es : List HostEvent) : State := { s with port := es }

/-- Memory of section 2.2. -/
def row0 : List Byte := [0x00, 0x08, 0x1A, 0x36, 0x5C, 0x8C, 0xC6, 0x0A, 0x58, 0xB0, 0x12, 0x7E, 0xF4, 0x74, 0xFE, 0x92]
def row1 : List Byte := [0x30, 0xD8, 0x8A, 0x46, 0x0C, 0xDC, 0xB6, 0x9A, 0x88, 0x80, 0x82, 0x8E, 0xA4, 0xC4, 0xEE, 0x22]
def row2 : List Byte := [0x60, 0xA8, 0xFA, 0x56, 0xBC, 0x2C, 0xA6, 0x2A, 0xB8, 0x50, 0xF2, 0x9E, 0x54, 0x14, 0xDE, 0xB2]
def row3 : List Byte := [0x90, 0x78, 0x6A, 0x66, 0x6C, 0x7C, 0x96, 0xBA, 0xE8, 0x20, 0x62, 0xAE, 0x04, 0x64, 0xCE, 0x42]

/-- The state of section 2.2 after its two LDPR: `R0`, `R1`. -/
def rows : State := (State.reset.writeR 0 ⟨vec row0, vec row1⟩).writeR 1 ⟨vec row2, vec row3⟩

/-! ### Support commands (section 2.4) -/

theorem test_setlo_no_sign_extension :
    Gives (exec (.setlo 7 0xFFFF#16) (State.reset.writeS 7 0xDEADBEEF#32))
      (fun t => t.readS 7 == 0x0000FFFF#32 && t.cmdCnt == 1) = true := by decide

theorem test_sethi_keeps_low_half :
    Gives (exec (.sethi 0 0x0001#16) (State.reset.writeS 0 0x00001234#32))
      (fun t => t.readS 0 == 0x00011234#32) = true := by decide

theorem test_vclr :
    Gives (exec (.vclr 3) ((State.reset.writeV 3 (vec row1)).writeV 4 (vec row2)))
      (fun t => lanes (t.readV 3) == List.replicate 16 0 && t.readV 4 == vec row2) = true := by decide

theorem test_clrst : Gives (exec .clrst State.reset.setTooSmall)
    (fun t => t.readControl 0 == 0 && t.readControl 3 == 1) = true := by decide

/-- `STATUS = 0x0000000A` (halted): CLRST is discarded. -/
theorem test_clrst_discarded_when_halted :
    runCommand 0x04000000#32 (State.reset.raise .illegalCommand 0x24400000#32) =
      .next (State.reset.raise .illegalCommand 0x24400000#32) := rfl

/-! ### Transfers (sections 2.2, 2.4, 2.8) -/

/-- `LDPR R2, S0, S3` with pitch 8: overlapping halves. -/
theorem test_ldpr_pitch_8 :
    Gives (exec (.ldpr 2 0 3) (poke (poke (scalars [0x100, 16, 0x120, 8]) 0x100 row0) 0x110 row1))
      (fun t => lanes (t.readR 2).lo == row0 && lanes (t.readR 2).hi ==
        [0x58, 0xB0, 0x12, 0x7E, 0xF4, 0x74, 0xFE, 0x92, 0x30, 0xD8, 0x8A, 0x46, 0x0C, 0xDC, 0xB6, 0x9A]) = true := by
  decide

/-- The far half of a load at 0xFFFFFFF8 with pitch 16 is read from address 8. -/
theorem test_ldpr_wraps :
    Gives (exec (.ldpr 3 4 1) (poke (scalars [0, 16, 0, 0, 0xFFFFFFF8]) 0 row0))
      (fun t => lanes (t.readR 3).lo == List.replicate 8 0 ++ row0.take 8 &&
        lanes (t.readR 3).hi == row0.drop 8 ++ List.replicate 8 0) = true := by decide

theorem test_ldv_row_2 :
    Gives (exec (.ldv 2 0 1 2) (poke (scalars [0x100, 16]) 0x120 row2))
      (fun t => lanes (t.readV 2) == row2) = true := by decide

/-- Section 2.8: LDV at 0x4FF8 raises a precise `MemError`. -/
theorem test_ldv_memError :
    Gives (exec (.ldv 1 2 1 0) (windowed (scalars [0, 16, 0x4FF8])))
      (fun t => t.readControl 0 == 0x0000000C#32 && t.readControl 1 == 0x11121000#32 &&
        t.readControl 3 == 0 && t.vreg == State.reset.vreg) = true := by decide

/-- `STD V2, S8, S9, 2` writes `0x4020 .. 0x402F`. -/
theorem test_std_row_2 :
    Gives (exec (.std 2 0 1 2) ((scalars [0x4000, 16]).writeV 2 (vec row3)))
      (fun t => peek t 0x4020 16 == row3 && t.mem.length == 16) = true := by decide

/-- `S8 = 0xFFFFFFF0`, pitch 16, row 1: the address wraps to 0. -/
theorem test_std_wraps :
    Gives (exec (.std 2 0 1 1) ((scalars [0xFFFFFFF0, 16]).writeV 2 (vec row3)))
      (fun t => peek t 0 16 == row3 && t.mem.wf) = true := by decide

/-! ### Census lane operations (section 2.2) -/

theorem test_cmppr_bracket : Gives (exec (.cmppr 1 0 1) rows) (fun t => t.readP 1 == 0x0D9F#16) = true ∧
    Gives (exec (.cmppr 2 1 0) rows) (fun t => t.readP 2 == 0x72E2#16) = true := by decide

theorem test_cmppr_self : Gives (exec (.cmppr 0 0 0) rows) (fun t => t.readP 0 == 0x2DAF#16) = true ∧
    Gives (exec (.cmppr 3 1 1) rows) (fun t => t.readP 3 == 0x29A9#16) = true := by decide

theorem test_selb_bit_7 :
    Gives (exec (.selb 1 0 4 7)
        ((State.reset.writeV 0 (vec (List.replicate 8 0xFF))).writeP 4 0xA5C3#16))
      (fun t => lanes (t.readV 1) == [0xFF, 0xFF, 0x7F, 0x7F, 0x7F, 0x7F, 0xFF, 0xFF, 0x80, 0x00, 0x80, 0x00,
        0x00, 0x80, 0x00, 0x80]) = true := by decide

theorem test_trpr : Gives (exec (.trpr 0 1) rows)
    (fun t => t.readR 0 == ⟨vec row0, vec row3⟩ && t.readR 1 == ⟨vec row2, vec row1⟩) = true := by decide

theorem test_trpr_self : Gives (exec (.trpr 1 1) rows) (fun t => t.rreg == rows.rreg) = true := by decide

/-- `ROLL R2, R2, 1` on the register after `ROLL R2, R2, 0`. -/
theorem test_roll_x1 :
    Gives (exec (.roll 2 2 1) (State.reset.writeR 2
        ⟨vec [0x08, 0x1A, 0x36, 0x5C, 0x8C, 0xC6, 0x0A, 0x58, 0xB0, 0x12, 0x7E, 0xF4, 0x74, 0xFE, 0x92, 0x30],
          vec [0x0A, 0x58, 0xB0, 0x12, 0x7E, 0xF4, 0x74, 0xFE, 0x92, 0x30, 0xD8, 0x8A, 0x46, 0x0C, 0xDC, 0xB6]⟩))
      (fun t => lanes (t.readR 2).lo ==
          [0x1A, 0x36, 0x5C, 0x8C, 0xC6, 0x0A, 0x58, 0xB0, 0x12, 0x7E, 0xF4, 0x74, 0xFE, 0x92, 0x30, 0xD8] &&
        lanes (t.readR 2).hi ==
          [0xC6, 0x0A, 0x58, 0xB0, 0x12, 0x7E, 0xF4, 0x74, 0xFE, 0x92, 0x30, 0xD8, 0x8A, 0x46, 0x0C, 0xDC]) = true := by
  decide

/-- `ZIP G1` with `V[4+m].b[i] = 16m + i`. -/
theorem test_zip_G1 :
    Gives (exec (.zip 1) { State.reset with
        vreg := Vector.ofFn fun r => ofBytes fun i => BitVec.ofNat 8 (16 * (r.val % 4) + i) })
      (fun t => wordLanes (t.readV 4) == [0x30201000, 0x31211101, 0x32221202, 0x33231303] &&
        wordLanes (t.readV 7) == [0x3C2C1C0C, 0x3D2D1D0D, 0x3E2E1E0E, 0x3F2F1F0F] &&
        lanes (t.readV 3) == lanes (t.readV 11)) = true := by decide

/-! ### Aggregation lane operations (section 2.3): `left` in `G(0)`, `right` in `H(1)` -/

def leftWords : List Word :=
  [0x1E3779B1, 0x3C6EF362, 0x5AA66D13, 0x78DDE6C4, 0x17156075, 0x354CDA26, 0x538453D7, 0x71BBCD88,
    0x0FF34739, 0x2E2AC0EA, 0x4C623A9B, 0x6A99B44C, 0x08D12DFD, 0x2708A7AE, 0x4540215F, 0x63779B10]

def rightWords : List Word :=
  [0x11C35F41, 0x17AF29AC, 0x1D9AF417, 0x2386BE82, 0x297288ED, 0x2F5E5358, 0x354A1DC3, 0x3B35E82E,
    0x4121B299, 0x470D7D04, 0x4CF9476F, 0x52E511DA, 0x58D0DC45, 0x5EBCA6B0, 0x64A8711B, 0x6A943B86] ++
  [0x708005F1, 0x766BD05C, 0x7C579AC7, 0x02436532, 0x082F2F9D, 0x0E1AFA08, 0x1406C473, 0x19F28EDE,
    0x1FDE5949, 0x25CA23B4, 0x2BB5EE1F, 0x31A1B88A, 0x378D82F5, 0x3D794D60, 0x436517CB, 0x4950E236]

/-- The state with `left` in `G(0)` and `right` in `H(1)`. -/
def descriptors (s : State) (left right : List Word) : State :=
  { s with
    vreg := Vector.ofFn fun r => ofWords fun c =>
      if r.val < 4 then left.getD (4 * r.val + c) 0
      else if 8 ≤ r.val then right.getD (4 * (r.val - 8) + c) 0 else 0 }

theorem test_pcxor_off_17 :
    Gives (exec (.pcxor 4 0 1 17) (descriptors State.reset leftWords rightWords))
      (fun t => lanes (t.readV 4) == [0x11, 0x0D, 0x0B, 0x10, 0x11, 0x0D, 0x10, 0x0F, 0x0E, 0x12, 0x0E, 0x10,
        0x0E, 0x0F, 0x0B, 0x0E]) = true := by decide

/-- `off = 31` wraps: lane 0 pairs `left[0]` with `right[31]`. -/
theorem test_pcxor_off_31 :
    Gives (exec (.pcxor 4 0 1 31) (descriptors State.reset leftWords rightWords))
      (fun t => lanes (t.readV 4) == [0x13, 0x10, 0x0F, 0x0F, 0x14, 0x10, 0x0F, 0x0E, 0x11, 0x12, 0x13, 0x0E,
        0x0F, 0x17, 0x15, 0x12]) = true := by decide

theorem test_shup_H1 :
    Gives (exec (.shup 1) (descriptors State.reset leftWords rightWords))
      (fun t => wordLanes (t.readV 8) == [0x4950E236, 0x11C35F41, 0x17AF29AC, 0x1D9AF417] &&
        wordLanes (t.readV 12) == [0x6A943B86, 0x708005F1, 0x766BD05C, 0x7C579AC7] &&
        wordLane (t.readV 15) 3 == 0x436517CB && wordLane (t.readV 3) 3 == 0x63779B10) = true := by decide

/-! ### EXTRACT (sections 2.5, 2.6, program P4) -/

/-- `10*r + c` and `(c*c + 3*r*r + c*r) mod 17` of section 2.5. -/
theorem test_census_patches :
    census (fun c r => BitVec.ofNat 8 (10 * r + c)) 0 0 = 0x33B3B3B3#32 ∧
      census (fun c r => BitVec.ofNat 8 ((c * c + 3 * r * r + c * r) % 17)) 0 0 = 0x65E39D39#32 := by decide

/-- The walk of a 41 by 11 image (section 2.6). -/
theorem test_stepOrigins_41_11 : stepOrigins Config.params 33 5 =
    [(0, 0), (16, 0), (0, 2), (16, 2), (0, 3), (16, 3), (17, 0), (17, 2), (17, 3)] := by decide

/-- Descriptors (0,0), (15,0), (0,1) and (15,1) of the test image (program P4). -/
theorem test_census_P4 :
    let pix := fun x y => BitVec.ofNat 8 (37 * x + 101 * y + 13 * x * y + 7 * x * x)
    census pix 0 0 = 0x302AA3B9#32 ∧ census pix 15 0 = 0x5A2375D8#32 ∧
      census pix 0 1 = 0x03A45443#32 ∧ census pix 15 1 = 0x56AA2F45#32 := by decide

/-- A 24 by 8 image at 0x1000, pitch 32, with pixel (4,6) = 255 and (15,7) = 1, all others 0: descriptor
(0,0) is 0x80 (section 2.5); bit 7 of (11,1) compares (15,1) with (15,7). Nothing is written past the 128 bytes at 0x4000. -/
theorem test_extract_24_8 :
    Gives (exec (.extract 0 1 2 3 4 5)
        { scalars [0x1000, 24, 8, 32, 0x4000, 0] with mem := [(0x10C4, 255), (0x10EF, 1)] })
      (fun t => peek t 0x4000 4 == [0x80, 0, 0, 0] &&
        peek t 0x406C 4 == [0x80, 0, 0, 0] && t.mem.all (fun c => decide (c.1 < 0x4080)) &&
        t.readControl 0 == 0 && t.readControl 3 == 1) = true := by decide

/-- By U5 and log 25: with only the first image row backed no patch is valid, so the descriptor's bytes
are free; with the whole image backed the patch is valid. -/
theorem test_patchValid :
    let j : ExtractJob := ⟨0x1000, 24, 8, 32, 0x4000, 0⟩
    ({ State.reset with backed := [⟨0x1000, 32⟩, ⟨0x4000, 128⟩] } : State).patchValid j 0 0 = false ∧
      ({ State.reset with backed := [⟨0x1000, 256⟩] } : State).patchValid j 15 1 = true := by decide

/-- Section 2.8: undersized, `TS` set, no `MemError` although `dst` is invalid. -/
theorem test_extract_undersized :
    Gives (exec (.extract 0 1 2 3 4 5) (windowed (scalars [0x1000, 23, 8, 32, 0x9000, 0])))
      (fun t => t.readControl 0 == 1 && t.readControl 3 == 1 && t.mem == []) = true := by decide

/-! ### AGGR (section 2.7) -/

/-- `right[j] = (1 << (j mod 16)) - 1`, `left = 0`: rows 0, 1 and 15 show the index direction. -/
theorem test_cost_index_direction :
    let s := descriptors State.reset [] ((List.range 32).map fun j => BitVec.ofNat 32 (2 ^ (j % 16) - 1))
    (List.range 16).map (s.cost 0 1 false 0) = [0, 1, 2, 3, 4, 5, 6, 7, 8, 9, 10, 11, 12, 13, 14, 15] ∧
      (List.range 16).map (s.cost 0 1 false 1) = [15, 0, 1, 2, 3, 4, 5, 6, 7, 8, 9, 10, 11, 12, 13, 14] ∧
      (List.range 16).map (s.cost 0 1 true 1) = [0, 0, 1, 2, 3, 4, 5, 6, 7, 8, 9, 10, 11, 12, 13, 14] ∧
      (List.range 16).map (s.cost 0 1 false 15) = [1, 2, 3, 4, 5, 6, 7, 8, 9, 10, 11, 12, 13, 14, 15, 0] := by
  decide

/-- By rules R172, R174 and R175, with `left` zero: `right[15]` meets the entries `px = dsp - 1`, which
the edge mask clears, and `right[17]`, five 1 bits, the entries `px = dsp + 1`, which it keeps; the
lanes `right[12..15]` move from `V11` to `V12`. -/
theorem test_aggr_edge :
    Gives (exec (.aggr 0 1 0 1 true) (descriptors (scalars [0x5000, 32]) []
        (List.replicate 15 0 ++ [0x7FFFFFFF, 0, 0x1F])))
      (fun t => peek t 0x5000 3 == [0, 5, 0] && peek t 0x5060 6 == [0, 0, 0, 0, 5, 0] &&
        peek t 0x51E0 16 == List.replicate 16 0 && wordLanes (t.readV 11) == [0, 0, 0, 0] &&
        wordLanes (t.readV 12) == [0, 0, 0, 0x7FFFFFFF] && wordLanes (t.readV 13) == [0, 0x1F, 0, 0] &&
        t.cmdCnt == 1) = true := by decide

/-! ### The step, reset and the control port -/

/-- Each row's word is the first command to run after reset. -/
theorem test_first_command_after_reset :
    ∀ w ∈ [0x01700008, 0x0200FFFF, 0x03300000, 0x04000000, 0x10017000, 0x11201200, 0x12289200, 0x20025000,
        0x21110300, 0x22060000, 0x23001000, 0x24300000, 0x3043101F, 0x31100000, 0x40012345,
        0x41010110],
      Gives (step (State.reset.withFetchWord 32 w)) (fun t => t.cmdCnt == 1 && t.port == []) = true := by decide

/-- The variant of program P6: `IllegalCommand`, then VCLR is discarded. -/
theorem test_illegal_word_halts :
    Gives (step (facing State.reset [.command 0x24400000#32]))
      (fun t => t.readControl 0 == 0x0000000A#32 && t.readControl 1 == 0x24400000#32 &&
        t.readControl 2 == 0 && t.readControl 3 == 0) = true := by decide

/-- `CFG0` and `CFG1` read the constants of rule R36, an index above 5 reads 0 (rule R30). -/
theorem test_control_port : State.reset.readControl 4 = 0x01021010#32 ∧
    State.reset.readControl 5 = 0x20200818#32 ∧ State.reset.readControl 6 = 0#32 := by decide

/-- The reset memory has the canonical form. -/
theorem test_reset_memory_canonical : State.reset.mem.wf = true := by decide

/-! ### Witnesses: each shows a state and operands that meet all hypotheses of the statement it names -/

/-! Statements whose only hypothesis is a block that is not halted; every operand is free. -/

theorem witness_SetloWritesZeroExtendedImmediate : State.reset.halted = false := rfl
theorem witness_SethiReplacesHighHalf : State.reset.halted = false := rfl
theorem witness_VclrZeroesOneVector : State.reset.halted = false := rfl
theorem witness_ClrstClearsOnlyTooSmall : State.reset.halted = false := rfl
theorem witness_LoadImmediateExpansionLoadsWord : State.reset.halted = false := rfl
theorem witness_CmpprComparesNearWithFar : State.reset.halted = false := rfl
theorem witness_SelbReplacesOneBitOfEveryLane : State.reset.halted = false := rfl
theorem witness_TrprExchangesFarHalves : State.reset.halted = false := rfl
theorem witness_TrprIsAnInvolutionAndABracket : State.reset.halted = false := rfl
theorem witness_RollMovesBothHalvesOutward : State.reset.halted = false := rfl
theorem witness_ZipTransposesTheGroup : State.reset.halted = false := rfl
theorem witness_PcxorCountsSixteenLanes : State.reset.halted = false := rfl
theorem witness_ShupRotatesTheRing : State.reset.halted = false := rfl
theorem witness_EveryCommandCompletesOrRecordsMemError : State.reset.halted = false := rfl

/-! Transfers: a valid footprint that ends at the last valid address, and one that passes it. -/

theorem witness_LdprLoadsBothHalves_valid :
    let s := windowed (scalars [0x4FE0, 16])
    s.halted = false ∧ Valid16 s (s.readS 0) ∧ Valid16 s (s.readS 0 + s.readS 1) := by
  unfold Valid16; decide

theorem witness_LdprLoadsBothHalves_invalid :
    let s := windowed (scalars [0x4FF0, 16])
    s.halted = false ∧ ¬(Valid16 s (s.readS 0) ∧ Valid16 s (s.readS 0 + s.readS 1)) := by
  unfold Valid16; decide

theorem witness_LdvLoadsOneRow_valid :
    let s := windowed (scalars [0x4F00, 16])
    s.halted = false ∧ Valid16 s (s.readS 0 + BitVec.ofNat 32 (15 : Fin 16).val * s.readS 1) := by
  unfold Valid16; decide

theorem witness_LdvLoadsOneRow_invalid :
    let s := windowed (scalars [0x4F01, 16])
    s.halted = false ∧ ¬Valid16 s (s.readS 0 + BitVec.ofNat 32 (15 : Fin 16).val * s.readS 1) := by
  unfold Valid16; decide

theorem witness_StdStoresOneRegister_valid :
    let s := windowed (scalars [0x1000, 16])
    s.halted = false ∧ Valid16 s (s.readS 0 + BitVec.ofNat 32 (0 : Fin 16).val * s.readS 1) := by
  unfold Valid16; decide

theorem witness_StdStoresOneRegister_invalid :
    let s := windowed (scalars [0x0FFF, 16])
    s.halted = false ∧ ¬Valid16 s (s.readS 0 + BitVec.ofNat 32 (0 : Fin 16).val * s.readS 1) := by
  unfold Valid16; decide

/-! The window law: the load, offsets 0 and 3 before a roll, offset 4, comparisons at offsets 0 and 4. -/

/-- The row whose byte `k` is `k`. -/
def countingRow (k : Nat) : Byte := BitVec.ofNat 8 k

/-- A register that holds the counting row at offset `x` from index 0. -/
def holding (x : Nat) : PairedRow :=
  ⟨ofBytes fun k => countingRow (x + k), ofBytes fun k => countingRow (8 - x + k)⟩

theorem witness_RollWindowLawHolds_load :
    let s := windowed (scalars [0x4FE8, 8])
    s.halted = false ∧ s.readS 1 = 8 ∧ Valid16 s (s.readS 0) ∧ Valid16 s (s.readS 0 + s.readS 1) := by
  unfold Valid16; decide

theorem witness_RollWindowLawHolds_roll :
    (State.reset.writeR 0 (holding 0)).halted = false ∧
      HoldsRow countingRow 0 (0 : Fin 4).val ((State.reset.writeR 0 (holding 0)).readR 0) ∧
      HoldsRow countingRow 0 (3 : Fin 4).val ((State.reset.writeR 0 (holding 3)).readR 0) := by
  unfold HoldsRow; decide

theorem witness_RollWindowLawHolds_centre : HoldsRow countingRow 0 4 (holding 4) := by
  unfold HoldsRow; decide

theorem witness_RollWindowLawHolds_compare :
    (State.reset.writeR 0 (holding 0)).halted = false ∧ 0 ≤ 4 ∧ 4 ≤ 4 ∧
      HoldsRow countingRow 0 0 ((State.reset.writeR 0 (holding 0)).readR 0) ∧
      HoldsRow countingRow 0 4 ((State.reset.writeR 0 (holding 4)).readR 0) := by
  unfold HoldsRow; decide

/-! Aggregation: the left group apart from the ring, and the first and last row of the sweep. -/

theorem witness_ShupShiftsThePcxorOffset : State.reset.halted = false ∧ GroupApart 0 1 := by
  unfold GroupApart; decide

theorem witness_SweepRowIsTheCostPatchRow :
    State.reset.halted = false ∧ GroupApart 1 1 ∧ 0 < 4 ∧ 1 ≤ 4 ∧ 4 ≤ 4 ∧ GroupApart 3 0 ∧ 3 < 4 ∧ 1 ≤ 1 := by
  unfold GroupApart; decide

/-- Rows that touch and end at the last valid address. -/
theorem witness_AggrWritesPatchAndRotates :
    let s := windowed (scalars [0x4F00, 16])
    s.halted = false ∧ AggrRowsApart s 0 1 ∧ AggrRowsValid s 0 1 := by
  unfold AggrRowsApart AggrRowsValid; decide

/-- Rows that end at address 2^32. -/
theorem witness_AggrPitchConditionSuffices :
    let s := scalars [0xFFFFFF00, 16]
    16 ≤ (s.readS 1).toNat ∧ (s.readS 0).toNat + 15 * (s.readS 1).toNat + 16 ≤ 2 ^ 32 := by decide

theorem witness_CostIsAHammingDistance :
    let s := descriptors State.reset leftWords rightWords
    15 < 16 ∧ 0 < 16 ∧ (s.groupLane 0 0).getLsbD 31 = false ∧
      (s.doubleLane 1 (0 + 16 - 15)).getLsbD 31 = false := by decide

theorem witness_AggrOverlappingRowsComplete :
    let s := scalars [0x5000, 15]
    s.halted = false ∧ ¬AggrRowsApart s 0 1 ∧ AggrRowsValid s 0 1 ∧
      (∀ i < 16, (s.rowAddr 0 1 i).toNat + 16 ≤ 2 ^ 32) ∧ 0x5000 ∈ s.aggrFootprint 0 1 := by
  unfold AggrRowsApart AggrRowsValid; decide

/-- Rows that pass address 2^32. -/
theorem witness_AggrOverlappingRowsComplete_wrap :
    let s := scalars [0xFFFFFFF8, 16]
    s.halted = false ∧ ¬AggrRowsApart s 0 1 ∧ AggrRowsValid s 0 1 := by
  unfold AggrRowsApart AggrRowsValid; decide

/-- The state of section 2.8: rows 8 to 15 are invalid. -/
theorem witness_AggrMemErrorIsImprecise :
    let s := windowed (scalars [0x4F80, 16])
    s.halted = false ∧ ¬AggrRowsValid s 0 1 := by
  unfold AggrRowsValid; decide

/-! EXTRACT: the smallest image, each side one below it, a broken contract, an invalid output. -/

theorem witness_ExtractUndersizedSetsTooSmall :
    let s := scalars [0x1000, 23, 7, 32, 0x4000, 0]
    s.halted = false ∧ ((s.readS 1).toNat < 24 ∨ (s.readS 4).toNat < 8) ∧
      ((s.readS 4).toNat < 24 ∨ (s.readS 2).toNat < 8) := by decide

/-- The smallest image, its output right behind it and up to the last valid address. -/
theorem witness_ExtractWritesTheDescriptorField :
    let s := windowed (scalars [0x4EC0, 24, 8, 24, 0x4F80, 0])
    s.halted = false ∧ (s.extractJob 0 1 2 3 4 5).Clean s := by
  unfold ExtractJob.Clean ExtractJob.CleanUpTo; decide

/-- The same image with an output pitch of 32. -/
theorem witness_ExtractTwiceIsExtractOnce :
    let s := scalars [0x1000, 24, 8, 32, 0x4000, 32]
    s.halted = false ∧ (s.extractJob 0 1 2 3 4 5).Clean s := by
  unfold ExtractJob.Clean ExtractJob.CleanUpTo; decide

theorem witness_TilingCoversExactlyTheOutput :
    Config.params.valid = true ∧ Config.params.hStep ≤ 16 ∧ Config.params.vStep ≤ 2 := by decide

/-- Source pitch 23, below the width: the source ends at 0x1000 + 7 * 23 + 24 = 0x10B9, the output begins
there. -/
theorem witness_ExtractAcceptsNarrowSourcePitch :
    let s := scalars [0x1000, 24, 8, 23, 0x10B9, 0]
    s.halted = false ∧ (s.extractJob 0 1 2 3 4 5).CleanNarrow s := by
  unfold ExtractJob.CleanNarrow ExtractJob.CleanUpTo; decide

/-- Output and source in one place, so the contract is broken. -/
theorem witness_ExtractOutsideContractCompletes :
    let s := scalars [0x1000, 24, 8, 24, 0x1000, 0]
    s.halted = false ∧ 24 ≤ (s.readS 1).toNat ∧ 8 ≤ (s.readS 2).toNat ∧
      (s.extractJob 0 1 2 3 4 5).contract = false ∧
      (∀ a ∈ (s.extractJob 0 1 2 3 4 5).footprint, s.memValid a = true) := by decide

/-- Source pitch 0, below the width: the first clause of rule R154 is broken. -/
theorem witness_ExtractOutsideContractCompletes_narrow :
    let s := scalars [0x1000, 24, 8, 0, 0x4000, 0]
    s.halted = false ∧ 24 ≤ (s.readS 1).toNat ∧ 8 ≤ (s.readS 2).toNat ∧
      (∀ a ∈ (s.extractJob 0 1 2 3 4 5).footprint, s.memValid a = true) := by decide

/-- The state of section 2.8: the output region passes the last valid address. -/
theorem witness_ExtractMemErrorIsImprecise :
    let s := windowed (scalars [0x1000, 24, 8, 32, 0x4FC0, 0])
    s.halted = false ∧ 24 ≤ (s.readS 1).toNat ∧ 8 ≤ (s.readS 2).toNat ∧
      ∃ a ∈ (s.extractJob 0 1 2 3 4 5).footprint, s.memValid a = false :=
  ⟨by decide, by decide, by decide, 0x5000, by decide, by decide⟩

/-! Decoding and the step. -/

theorem witness_LegalWordIsItsCommandsEncoding : decode 0x3043101F#32 = some (.pcxor 4 3 1 31) := by decide

theorem witness_StepRunsTheDecodedCommand :
    let s := facing State.reset [.command 0x04000000#32]
    s.port = .command 0x04000000#32 :: [] ∧ s.halted = false ∧ decode 0x04000000#32 = some .clrst := by decide

theorem witness_IdleBlockKeepsItsState : State.reset.port = [] := rfl

theorem witness_IllegalWordHaltsPrecisely :
    let s := facing State.reset [.command 0xFFFFFFFF#32]
    s.port = .command 0xFFFFFFFF#32 :: [] ∧ s.halted = false ∧
      ∀ r ∈ opcodeTable, 0xFFFFFFFF#32 &&& r.mask ≠ r.pattern := by decide

/-- The block halted by an illegal word, with the host about to do `es`. -/
def haltedBlock (es : List HostEvent) : State :=
  facing (State.reset.raise .illegalCommand 0x24400000#32) es

theorem witness_HaltedBlockDiscardsEveryWord_word :
    (haltedBlock [.command 0x04000000#32]).port = .command 0x04000000#32 :: [] ∧
      (haltedBlock [.command 0x04000000#32]).halted = true := by decide

theorem witness_HaltedBlockDiscardsEveryWord_reset :
    (haltedBlock [.reset]).halted = true ∧
      ∃ t, step (haltedBlock [.reset]) = .next t ∧ t.halted = false :=
  ⟨rfl, _, rfl, rfl⟩

theorem witness_HaltedBlockDiscardsEveryWord_stays :
    (haltedBlock [.command 0x04000000#32]).halted = true ∧
      ∃ t, step (haltedBlock [.command 0x04000000#32]) = .next t ∧ t.halted = true :=
  ⟨rfl, _, rfl, rfl⟩

/-- LDV with an invalid address. -/
theorem witness_OnlyFiveCommandsRaiseMemError :
    (windowed State.reset).halted = false ∧
      ∃ t, exec (.ldv 0 0 0 0) (windowed State.reset) = .next t ∧ t.halted = true :=
  ⟨rfl, _, rfl, rfl⟩

theorem witness_EachFileIsWrittenByItsCommandsOnly_P :
    ∃ t, exec (.cmppr 0 0 1) rows = .next t ∧ ¬KeepsP rows t :=
  ⟨_, rfl, fun h => absurd (h 0) (by decide)⟩

theorem witness_EachFileIsWrittenByItsCommandsOnly_R :
    ∃ t, exec (.trpr 0 1) rows = .next t ∧ ¬KeepsR rows t :=
  ⟨_, rfl, fun h => absurd (h 0) (by decide)⟩

theorem witness_EachFileIsWrittenByItsCommandsOnly_S :
    ∃ t, exec (.setlo 0 1#16) rows = .next t ∧ ¬KeepsS rows t :=
  ⟨_, rfl, fun h => absurd (h 0) (by decide)⟩

theorem witness_EachFileIsWrittenByItsCommandsOnly_V :
    let s := State.reset.writeV 0 1
    ∃ t, exec (.vclr 0) s = .next t ∧ ¬KeepsV s t :=
  ⟨_, rfl, fun h => absurd (h 0) (by decide)⟩

theorem witness_EachFileIsWrittenByItsCommandsOnly_mem :
    let s := State.reset.writeV 0 1
    ∃ t, exec (.std 0 0 0 0) s = .next t ∧ ¬KeepsMem s t :=
  ⟨_, rfl, fun h => absurd (h 0) (by decide)⟩

theorem witness_EachFileIsWrittenByItsCommandsOnly_TS :
    ∃ t, exec (.extract 0 0 0 0 0 0) State.reset = .next t ∧ t.status.ts ≠ State.reset.status.ts :=
  ⟨_, rfl, by decide⟩

/-! The invariant, reset and host writes. -/

/-- A running block and a block halted by a memory error both meet the invariant, and both step. -/
theorem witness_EveryStepKeepsTheInvariant :
    (facing State.reset [.command 0x11000000#32]).Inv ∧
      ∃ t, step (facing State.reset [.command 0x11000000#32]) = .next t := by
  refine ⟨?_, _, rfl⟩
  unfold State.Inv; decide

theorem witness_EveryStepKeepsTheInvariant_halted :
    let s := (windowed State.reset).raise (.memError 0x5000#32) 0x11000000#32
    s.Inv ∧ ∃ t, step s = .next t := by
  refine ⟨?_, _, rfl⟩
  unfold State.Inv; decide

theorem witness_ResetEventsLeaveTheResetState :
    (haltedBlock [.reset]).port = .reset :: [] ∧
      (facing State.reset [.resetDuring 0x41010110#32]).port = .resetDuring 0x41010110#32 :: [] := by decide

theorem witness_ControlPortReadsTheSixRegisters : 6 ≤ 6 := by decide

theorem witness_StatusWordHasItsFourBits : 4 ≤ 4 := by decide

theorem witness_HostWriteReachesBackedMemory :
    let s := facing (windowed State.reset) [.hostWrite 0x4FFF#32 7#8]
    let u := facing (windowed State.reset) [.hostWrite 0x5000#32 7#8]
    s.port = .hostWrite 0x4FFF#32 7#8 :: [] ∧ s.memValid (0x4FFF#32).toNat = true ∧
      u.port = .hostWrite 0x5000#32 7#8 :: [] ∧ u.memValid (0x5000#32).toNat = false := by decide

end Sys2Proof.Tests
end

/-! PROOFS. The parameter record against its validity rule, and the population count that the costs
are made of. -/

namespace Sys2Proof.Machine

/-! ### The parameter record -/

/-- Settles O54: the clauses of rule R9 are arithmetic on the fixed numbers of rule R8. -/
theorem parametersAreValid : Obligations.ParametersAreValid := by
  unfold Obligations.ParametersAreValid
  decide

/-! ### The population count (rule R13) -/

/-- The count is the size of the set of 1 bits. -/
theorem popcount32_eq_card (w : Word) :
    popcount32 w = ((Finset.range 32).filter fun k => w.getLsbD k = true).card := by
  have hlist : ((Finset.range 32).filter fun k => w.getLsbD k = true).card =
      ((List.range 32).filter fun k => decide (w.getLsbD k = true)).length := rfl
  rw [hlist, popcount32, List.countP_eq_length_filter]
  simp only [Bool.decide_eq_true]

/-- The 1 bits of an exclusive or are the positions in which its operands differ. -/
theorem popcount32_xor_eq_card (a b : Word) :
    popcount32 (a ^^^ b) = ((Finset.range 32).filter fun k => a.getLsbD k ≠ b.getLsbD k).card := by
  rw [popcount32_eq_card]
  congr 1
  refine Finset.filter_congr fun k _ => ?_
  rw [BitVec.getLsbD_xor, Bool.xor_iff_ne]

/-- Only the zero word has no 1 bit. -/
theorem popcount32_eq_zero_iff (w : Word) : popcount32 w = 0 ↔ w = 0 := by
  rw [popcount32, List.countP_eq_zero]
  constructor
  · intro h
    refine BitVec.eq_of_getLsbD_eq fun k hk => ?_
    have hbit := h k (List.mem_range.mpr hk)
    simpa using hbit
  · rintro rfl k -
    simp

/-- The Hamming distance of two words is 0 exactly when they are equal. -/
theorem popcount32_xor_eq_zero_iff (a b : Word) : popcount32 (a ^^^ b) = 0 ↔ a = b := by
  rw [popcount32_eq_zero_iff]
  exact BitVec.xor_eq_zero_iff

/-- A word with bit 31 clear has its 1 bits among the lower 31 positions. -/
theorem popcount32_le_of_top_clear {w : Word} (h : w.getLsbD 31 = false) : popcount32 w ≤ 31 := by
  have hsub : ((Finset.range 32).filter fun k => w.getLsbD k = true) ⊆ Finset.range 31 := by
    intro k hk
    obtain ⟨hlt, hbit⟩ := Finset.mem_filter.mp hk
    have hne : k ≠ 31 := by
      rintro rfl
      rw [h] at hbit
      exact Bool.false_ne_true hbit
    rw [Finset.mem_range] at hlt ⊢
    omega
  calc popcount32 w = ((Finset.range 32).filter fun k => w.getLsbD k = true).card := popcount32_eq_card w
    _ ≤ (Finset.range 31).card := Finset.card_le_card hsub
    _ = 31 := Finset.card_range 31

/-! ### The cost (rules R172, R175) -/

/-- Without the edge mask the cost is the population count of the exclusive or: the byte loses nothing. -/
@[simp] theorem State.toNat_cost_unmasked (s : State) (gl : Group) (gr : DoubleGroup) (dsp px : Nat) :
    (s.cost gl gr false dsp px).toNat =
      popcount32 (s.groupLane gl px ^^^ s.doubleLane gr (px + 16 - dsp)) :=
  toNat_popcount_byte _

/-- The edge mask puts 0 left of column `dsp` and changes nothing elsewhere. -/
theorem State.cost_masked (s : State) (gl : Group) (gr : DoubleGroup) (dsp px : Nat) :
    s.cost gl gr true dsp px = if px < dsp then 0 else s.cost gl gr false dsp px := by
  by_cases h : px < dsp <;> simp [State.cost, h]

/-- A cost of 0 without the edge mask means equal descriptors. -/
theorem State.cost_unmasked_eq_zero_iff (s : State) (gl : Group) (gr : DoubleGroup) (dsp px : Nat) :
    s.cost gl gr false dsp px = 0 ↔ s.groupLane gl px = s.doubleLane gr (px + 16 - dsp) := by
  rw [← popcount32_xor_eq_zero_iff, ← State.toNat_cost_unmasked, ← BitVec.toNat_inj]
  rfl

/-- Settles O23: the cost is the population count of the exclusive or, which counts the positions in
which the two descriptors differ. -/
theorem costIsAHammingDistance : Obligations.CostIsAHammingDistance := by
  unfold Obligations.CostIsAHammingDistance
  refine ⟨popcount32_eq_card, fun s gl gr dsp px _ _ => ⟨?_, s.cost_unmasked_eq_zero_iff gl gr dsp px, ?_, ?_,
    s.cost_masked gl gr dsp px⟩⟩
  case refine_1 =>
    rw [State.toNat_cost_unmasked, popcount32_xor_eq_card]
  case refine_2 =>
    rw [State.toNat_cost_unmasked]
    exact popcount32_le _
  case refine_3 =>
    intro hl hr
    rw [State.toNat_cost_unmasked]
    apply popcount32_le_of_top_clear
    rw [BitVec.getLsbD_xor, hl, hr, Bool.xor_false]

end Sys2Proof.Machine

/-! PROOFS. What a command can answer, said once for all sixteen, and what follows from it for every step:
the invariant, completion or `MemError`, the frame of each file. Then the control port. -/

namespace Sys2Proof.Machine

/-! ### What a command can answer -/

/-- A draw of free values is used up when an engine's contract is broken (logs 9, 11, 17). -/
def State.drawUnless (s : State) (contract : Bool) : State :=
  { s with freeCount := s.freeCount + if contract then 0 else 1 }

theorem State.drawUnless_eq (s : State) (contract : Bool) :
    s.drawUnless contract = if contract then s else s.fresh := by
  cases contract <;> rfl

@[simp] theorem State.drawUnless_vreg (s : State) (contract : Bool) : (s.drawUnless contract).vreg = s.vreg := rfl
@[simp] theorem State.drawUnless_rreg (s : State) (contract : Bool) : (s.drawUnless contract).rreg = s.rreg := rfl
@[simp] theorem State.drawUnless_preg (s : State) (contract : Bool) : (s.drawUnless contract).preg = s.preg := rfl
@[simp] theorem State.drawUnless_sreg (s : State) (contract : Bool) : (s.drawUnless contract).sreg = s.sreg := rfl
@[simp] theorem State.drawUnless_status (s : State) (contract : Bool) : (s.drawUnless contract).status = s.status := rfl
@[simp] theorem State.drawUnless_errWord (s : State) (contract : Bool) : (s.drawUnless contract).errWord = s.errWord := rfl
@[simp] theorem State.drawUnless_errAddr (s : State) (contract : Bool) : (s.drawUnless contract).errAddr = s.errAddr := rfl
@[simp] theorem State.drawUnless_cmdCnt (s : State) (contract : Bool) : (s.drawUnless contract).cmdCnt = s.cmdCnt := rfl
@[simp] theorem State.drawUnless_mem (s : State) (contract : Bool) : (s.drawUnless contract).mem = s.mem := rfl
@[simp] theorem State.drawUnless_backed (s : State) (contract : Bool) : (s.drawUnless contract).backed = s.backed := rfl
@[simp] theorem State.drawUnless_port (s : State) (contract : Bool) : (s.drawUnless contract).port = s.port := rfl
@[simp] theorem State.readV_drawUnless (s : State) (contract : Bool) (j : VReg) :
    (s.drawUnless contract).readV j = s.readV j := rfl
@[simp] theorem State.readR_drawUnless (s : State) (contract : Bool) (j : RReg) :
    (s.drawUnless contract).readR j = s.readR j := rfl
@[simp] theorem State.readP_drawUnless (s : State) (contract : Bool) (j : PReg) :
    (s.drawUnless contract).readP j = s.readP j := rfl
@[simp] theorem State.readS_drawUnless (s : State) (contract : Bool) (j : SReg) :
    (s.drawUnless contract).readS j = s.readS j := rfl

/-- The footprint a command is tested on (rule R56): none for the eleven that touch no memory and for an
EXTRACT of an undersized image (rule R153). -/
def footprintOf (i : Instr) (s : State) : List Nat :=
  match i with
  | .ldpr _ a p => ldprFootprint (s.readS a) (s.readS a + s.readS p)
  | .ldv _ a p n => span (s.rowAddr a p n.val) 16
  | .std _ d p n => span (s.rowAddr d p n.val) 16
  | .extract src w h sp dst dp =>
    let j := s.extractJob src w h sp dst dp
    if j.tooSmall then [] else j.footprint
  | .aggr d p _ _ _ => s.aggrFootprint d p
  | _ => []

/-- The state a command has made when it is about to be counted. -/
def doneState (i : Instr) (s : State) : State :=
  match i with
  | .setlo d imm16 => s.writeS d (imm16.setWidth 32)
  | .sethi d imm16 => s.writeS d (imm16 ++ (s.readS d).extractLsb' 0 16)
  | .vclr d => s.writeV d 0
  | .clrst => s.clearTooSmall
  | .ldpr d a p => s.writeR d ⟨s.read16 (s.readS a), s.read16 (s.readS a + s.readS p)⟩
  | .ldv d a p n => s.writeV d (s.read16 (s.rowAddr a p n.val))
  | .std a d p n => s.store (s.stdCells a d p n)
  | .cmppr d a b => s.writeP d (compareRows (s.readR a) (s.readR b))
  | .selb d a p b => s.writeV d (selectBit (s.readV a) (s.readP p) b.val)
  | .trpr a b =>
    (s.writeR a ⟨(s.readR a).lo, (s.readR b).hi⟩).writeR b ⟨(s.readR b).lo, (s.readR a).hi⟩
  | .roll d a x => s.writeR d (rollOutward (s.readR a) x.val)
  | .zip g => s.writeAllV fun i => if inGroup g i then s.zipped g (i.val % 4) else s.readV i
  | .pcxor d gl gr off => s.writeV d (s.xorCounts gl gr off.val)
  | .shup gr => s.rotateUp gr 1
  | .extract src w h sp dst dp =>
    let j := s.extractJob src w h sp dst dp
    if j.tooSmall then s.setTooSmall else (s.store (s.extractCells j)).drawUnless j.contract
  | .aggr d p gl gr e =>
    ((s.store (s.aggrCells d p gl gr e)).rotateUp gr 4).drawUnless (s.aggrContract d p)

/-- The state a command has made when its `MemError` is about to be recorded: only the engines are
imprecise (rules R56, R182, U5). -/
def spoiltState (i : Instr) (s : State) : State :=
  match i with
  | .extract src w h sp dst dp => s.storeSome (s.extractCells (s.extractJob src w h sp dst dp))
  | .aggr d p gl gr e => (s.storeSome (s.aggrCells d p gl gr e)).spoilDouble gr
  | _ => s

/-- The inversion lemma of `exec`: a command with a valid footprint completes, any other records one
invalid address of it (rules R35, R56, R182). -/
theorem exec_cases (i : Instr) (s : State) :
    ((∀ a ∈ footprintOf i s, s.memValid a = true) ∧ exec i s = .next (doneState i s).complete) ∨
      ∃ a ∈ footprintOf i s, s.memValid a = false ∧
        exec i s = .next ((spoiltState i s).raise (.memError (BitVec.ofNat 32 a)) (encode i)).fresh := by
  cases i with
  | ldpr d a p => exact s.precise_cases _ _ _
  | ldv d a p n => exact s.precise_cases _ _ _
  | std a d p n => exact s.precise_cases _ _ _
  | extract src w h sp dst dp =>
    by_cases hsmall : (s.extractJob src w h sp dst dp).tooSmall = true
    · simp [exec, execExtract, footprintOf, doneState, hsmall]
    · simp only [exec, execExtract, footprintOf, doneState, hsmall, Bool.false_eq_true, if_false,
        State.drawUnless_eq]
      exact s.imprecise_cases _ _ _ _ _
  | aggr d p gl gr e =>
    simp only [exec, execAggr, doneState, State.drawUnless_eq]
    exact s.imprecise_cases _ _ _ _ _
  | _ => exact .inl ⟨by simp [footprintOf], rfl⟩

/-- What holds of both shapes of a command's answer holds of the answer. -/
theorem of_exec {i : Instr} {s t : State} {Q : State → Prop} (h : exec i s = .next t)
    (done : Q (doneState i s).complete)
    (failed : ∀ a w, Q ((spoiltState i s).raise (.memError a) w).fresh) : Q t := by
  rcases exec_cases i s with ⟨-, he⟩ | ⟨a, -, -, he⟩ <;> rw [he] at h <;> cases h
  · exact done
  · exact failed _ _

/-- EXTRACT on a small image sets `TS`, on any other it only writes memory and may use up a draw. -/
theorem of_doneState_extract {src w h sp dst dp : SReg} {s : State} {Q : State → Prop}
    (small : Q s.setTooSmall) (written : ∀ cells contract, Q ((s.store cells).drawUnless contract)) :
    Q (doneState (.extract src w h sp dst dp) s) := by
  simp only [doneState]
  split
  · exact small
  · exact written _ _

/-! ### The control registers and the platform before the last effect -/

/-- All that a command leaves alone until it is counted or its `MemError` is recorded: the halting error
bits, the error registers, `CMDCNT` and the platform (rules R27, R33 to R35, R55). -/
structure KeepsControl (s u : State) : Prop where
  ill : u.status.ill = s.status.ill
  merr : u.status.merr = s.status.merr
  errWord : u.errWord = s.errWord
  errAddr : u.errAddr = s.errAddr
  cmdCnt : u.cmdCnt = s.cmdCnt
  backed : u.backed = s.backed

theorem KeepsControl.halted {s u : State} (k : KeepsControl s u) : u.halted = s.halted := by
  simp only [State.halted, Status.halt, k.ill, k.merr]

theorem KeepsControl.memValid {s u : State} (k : KeepsControl s u) (a : Nat) :
    u.memValid a = s.memValid a := by
  simp only [State.memValid, k.backed]

theorem doneState_keepsControl (i : Instr) (s : State) : KeepsControl s (doneState i s) := by
  cases i with
  | extract src w h sp dst dp =>
    exact of_doneState_extract (Q := KeepsControl s) ⟨rfl, rfl, rfl, rfl, rfl, rfl⟩
      fun _ _ => ⟨rfl, rfl, rfl, rfl, rfl, rfl⟩
  | _ => constructor <;> simp [doneState]

theorem spoiltState_keepsControl (i : Instr) (s : State) : KeepsControl s (spoiltState i s) := by
  cases i with
  | extract | aggr => constructor <;> simp [spoiltState]
  | _ => exact ⟨rfl, rfl, rfl, rfl, rfl, rfl⟩

/-! ### Addresses of footprints and of writes are inside the address space -/

theorem State.lt_of_mem_aggrFootprint {s : State} {d p : SReg} {a : Nat}
    (h : a ∈ s.aggrFootprint d p) : a < 2 ^ 32 := by
  obtain ⟨o, -, rfl⟩ := List.mem_map.mp h
  exact byteAddr_lt _ _

theorem ExtractJob.lt_of_mem_region {j : ExtractJob} {a : Nat} (h : a ∈ j.region) : a < 2 ^ 32 := by
  obtain ⟨oy, -, hrow⟩ := List.mem_flatMap.mp h
  obtain ⟨ox, -, hspan⟩ := List.mem_flatMap.mp hrow
  exact mem_span_lt hspan

theorem ExtractJob.lt_of_mem_footprint {j : ExtractJob} {a : Nat} (h : a ∈ j.footprint) :
    a < 2 ^ 32 := by
  rcases List.mem_append.mp h with hread | hwrite
  · obtain ⟨y, -, hrow⟩ := List.mem_flatMap.mp hread
    obtain ⟨x, -, rfl⟩ := List.mem_map.mp hrow
    exact (j.pixelAddr x y).isLt
  · exact ExtractJob.lt_of_mem_region hwrite

theorem lt_of_mem_footprintOf {i : Instr} {s : State} {a : Nat} (h : a ∈ footprintOf i s) :
    a < 2 ^ 32 := by
  cases i with
  | ldpr d r p => exact (List.mem_append.mp h).elim mem_span_lt mem_span_lt
  | ldv d r p n => exact mem_span_lt h
  | std r d p n => exact mem_span_lt h
  | extract src w h' sp dst dp =>
    simp only [footprintOf] at h
    split at h
    · cases h
    · exact ExtractJob.lt_of_mem_footprint h
  | aggr d p gl gr e => exact State.lt_of_mem_aggrFootprint h
  | _ => cases h

/-- `ERRADDR` loses nothing of the address it records (rule R34). -/
theorem toNat_of_mem_footprintOf {i : Instr} {s : State} {a : Nat} (h : a ∈ footprintOf i s) :
    (BitVec.ofNat 32 a).toNat = a := by
  rw [BitVec.toNat_ofNat, Nat.mod_eq_of_lt (lt_of_mem_footprintOf h)]

theorem State.lt_of_mem_aggrCells {s : State} {d p : SReg} {gl : Group} {gr : DoubleGroup} {e : Bool}
    {c : Host.Cell} (h : c ∈ s.aggrCells d p gl gr e) : c.1 < 2 ^ 32 := by
  unfold State.aggrCells at h
  split at h
  · obtain ⟨o, -, rfl⟩ := List.mem_map.mp h
    exact byteAddr_lt _ _
  · obtain ⟨a, ha, rfl⟩ := List.mem_map.mp h
    exact State.lt_of_mem_aggrFootprint ha

theorem State.lt_of_mem_extractCells {s : State} {j : ExtractJob} {c : Host.Cell}
    (h : c ∈ s.extractCells j) : c.1 < 2 ^ 32 := by
  unfold State.extractCells at h
  split_ifs at h
  case pos => cases h
  case pos =>
    obtain ⟨o, -, ho⟩ := State.mem_walkCells.mp h
    obtain ⟨t, -, ht⟩ := State.addr_of_mem_descriptorCells ho
    exact ht ▸ byteAddr_lt _ _
  case neg =>
    obtain ⟨a, ha, rfl⟩ := List.mem_map.mp h
    exact ExtractJob.lt_of_mem_region ha

/-! ### The invariant (rules R33, R34, R188) -/

theorem doneState_wf (i : Instr) {s : State} (hwf : s.mem.wf = true) :
    (doneState i s).mem.wf = true := by
  cases i with
  | std a d p n =>
    refine State.store_wf hwf fun c hc => ?_
    obtain ⟨k, -, rfl⟩ := mem_cells16.mp hc
    exact byteAddr_lt _ _
  | extract src w h sp dst dp =>
    simp only [doneState]
    split
    · exact hwf
    · exact State.store_wf hwf fun c hc => State.lt_of_mem_extractCells hc
  | aggr d p gl gr e =>
    simpa [doneState] using State.store_wf hwf fun c hc => State.lt_of_mem_aggrCells hc
  | _ => simpa [doneState] using hwf

theorem spoiltState_wf (i : Instr) {s : State} (hwf : s.mem.wf = true) :
    (spoiltState i s).mem.wf = true := by
  cases i with
  | extract src w h sp dst dp => exact State.storeSome_wf hwf _
  | aggr d p gl gr e => simpa [spoiltState] using State.storeSome_wf hwf _
  | _ => exact hwf

/-- The invariant speaks of memory and of what `KeepsControl` keeps, and of nothing else. -/
theorem KeepsControl.inv {s u : State} (k : KeepsControl s u) (hwf : u.mem.wf = true) (h : s.Inv) :
    u.Inv := by
  obtain ⟨-, hword, haddr, hbad, hone⟩ := h
  refine ⟨hwf, ?_, ?_, ?_, ?_⟩
  · rwa [k.halted, k.errWord]
  · rwa [k.merr, k.errAddr]
  · rwa [k.merr, k.errAddr, k.memValid]
  · rwa [k.ill, k.merr]

/-- Counting a command does not touch what the invariant speaks of (rule R35). -/
theorem State.inv_complete {s : State} : s.complete.Inv ↔ s.Inv := Iff.rfl

/-- Nor does a draw (log 17). -/
theorem State.inv_fresh {s : State} : s.fresh.Inv ↔ s.Inv := Iff.rfl

/-- A first `MemError` records an invalid address (rules R34, R182). -/
theorem State.inv_raiseMemError {s : State} {a w : Word} (h : s.Inv) (hrun : s.halted = false)
    (ha : s.memValid a.toNat = false) : (s.raise (.memError a) w).Inv := by
  obtain ⟨hill, -⟩ := s.not_halted_iff.mp hrun
  obtain ⟨hwf, -⟩ := h
  refine ⟨hwf, ?_, ?_, ?_, ?_⟩ <;> simp [hrun, ha, hill]

/-- A first `IllegalCommand` leaves `ERRADDR` zero (rules R34, R181). -/
theorem State.inv_raiseIllegal {s : State} {w : Word} (h : s.Inv) (hrun : s.halted = false) :
    (s.raise .illegalCommand w).Inv := by
  obtain ⟨-, hmerr⟩ := s.not_halted_iff.mp hrun
  obtain ⟨hwf, -, haddr, -, -⟩ := h
  refine ⟨hwf, ?_, haddr, ?_, ?_⟩ <;> simp [hmerr]

/-- The reset values of the control registers meet the invariant (rule R201). -/
theorem State.JustReset.inv {s : State} (h : s.JustReset) (hwf : s.mem.wf = true) : s.Inv := by
  obtain ⟨hstatus, hword, haddr, -⟩ := h
  refine ⟨hwf, fun _ => hword, fun _ => haddr, ?_, ?_⟩ <;> simp [hstatus]

theorem State.inv_afterReset {s : State} (hwf : s.mem.wf = true) : s.afterReset.Inv :=
  State.JustReset.inv (by simp [State.JustReset]) (by simpa using hwf)

/-- A command on a block that is not halted keeps the invariant. -/
theorem exec_inv {i : Instr} {s t : State} (h : s.Inv) (hrun : s.halted = false)
    (he : exec i s = .next t) : t.Inv := by
  have ⟨hwf, _⟩ := h
  rcases exec_cases i s with ⟨-, hdone⟩ | ⟨a, ha, hinvalid, hfail⟩
  · cases hdone.symm.trans he
    exact State.inv_complete.mpr ((doneState_keepsControl i s).inv (doneState_wf i hwf) h)
  · cases hfail.symm.trans he
    have hk := spoiltState_keepsControl i s
    refine State.inv_fresh.mpr (State.inv_raiseMemError (hk.inv (spoiltState_wf i hwf) h) ?_ ?_)
    · rw [hk.halted, hrun]
    · rw [toNat_of_mem_footprintOf ha, hk.memValid, hinvalid]

/-- A delivered word keeps the invariant: discarded, refused or executed (rules R181, R184). -/
theorem runCommand_inv {w : Word} {s t : State} (h : s.Inv) (hr : runCommand w s = .next t) :
    t.Inv := by
  unfold runCommand at hr
  split at hr
  case isTrue => cases hr; exact h
  case isFalse hrun =>
    rw [Bool.not_eq_true] at hrun
    split at hr
    · cases hr; exact State.inv_raiseIllegal h hrun
    · exact exec_inv h hrun hr

theorem runEvent_inv {e : HostEvent} {s t : State} (h : s.Inv) (hr : runEvent e s = .next t) :
    t.Inv := by
  have ⟨hwf, _⟩ := h
  cases e with
  | command w => exact runCommand_inv h hr
  | reset =>
    obtain rfl := Host.Outcome.next.inj hr
    exact State.inv_afterReset hwf
  | resetDuring w =>
    obtain rfl := Host.Outcome.next.inj hr
    exact State.inv_afterReset (State.storeSome_wf hwf _)
  | hostWrite a b =>
    obtain rfl := Host.Outcome.next.inj hr
    split
    · have hcell : ∀ c ∈ [(a.toNat, b)], c.1 < 2 ^ 32 := by simpa using a.isLt
      exact KeepsControl.inv (s := s) ⟨rfl, rfl, rfl, rfl, rfl, rfl⟩ (State.store_wf hwf hcell) h
    · exact h

/-- Settles O47: memory is empty and the control registers are zero. -/
theorem invariantHoldsAtReset : Obligations.InvariantHoldsAtReset :=
  State.JustReset.inv ⟨rfl, rfl, rfl, rfl⟩ rfl

/-- Settles O48: an idle step keeps the state, any other runs one event, and the port is no part of the
invariant. -/
theorem everyStepKeepsTheInvariant : Obligations.EveryStepKeepsTheInvariant := by
  unfold Obligations.EveryStepKeepsTheInvariant
  intro s t h hstep
  unfold step acceptNext at hstep
  split at hstep
  case h_1 => cases hstep; exact h
  case h_2 rest _ => exact runEvent_inv (s := { s with port := rest }) h hstep

/-! ### Completion or MemError (rules R35, R182, R212) -/

/-- Settles O43, by the two cases of `exec_cases`. -/
theorem everyCommandCompletesOrRecordsMemError :
    Obligations.EveryCommandCompletesOrRecordsMemError := by
  unfold Obligations.EveryCommandCompletesOrRecordsMemError
  intro i s hrun
  rcases exec_cases i s with ⟨-, hdone⟩ | ⟨a, ha, hinvalid, hfail⟩
  · have hk := doneState_keepsControl i s
    refine ⟨_, hdone, .inl ⟨?_, ?_, hk.errWord, hk.errAddr⟩⟩
    · rw [State.halted_complete, hk.halted, hrun]
    · rw [State.complete_cmdCnt, hk.cmdCnt]
  · have hk := spoiltState_keepsControl i s
    obtain ⟨hill, -⟩ := s.not_halted_iff.mp hrun
    have hrun' : (spoiltState i s).halted = false := hk.halted.trans hrun
    refine ⟨_, hfail, .inr ⟨rfl, hk.ill.trans hill, hk.cmdCnt, ?_, ?_⟩⟩
    · rw [State.fresh_errWord, State.raiseMemError_errWord, hrun', if_neg Bool.false_ne_true]
    · rw [State.fresh_errAddr, State.raiseMemError_errAddr, hrun', if_neg Bool.false_ne_true,
        toNat_of_mem_footprintOf ha, hinvalid]

/-! ### Who writes which file (rules R22 to R24, R27, R50) -/

section
variable {i : Instr} {s t : State}

/-- EXTRACT writes no register (rules R152, R153). -/
theorem execExtract_keepsRegisters {src w h sp dst dp : SReg}
    (he : exec (.extract src w h sp dst dp) s = .next t) : KeepsRegisters s t := by
  refine of_exec (Q := KeepsRegisters s) he (of_doneState_extract
    (Q := fun u => KeepsRegisters s u.complete) ?_ fun _ _ => ?_) fun _ _ => ?_
  all_goals simp [KeepsRegisters, KeepsV, KeepsR, KeepsP, KeepsS, spoiltState]

theorem exec_keepsP (h : exec i s = .next t) : KeepsP s t ∨ ∃ d a b, i = .cmppr d a b := by
  cases i with
  | cmppr d a b => exact .inr ⟨d, a, b, rfl⟩
  | extract =>
    obtain ⟨-, -, hP, -⟩ := execExtract_keepsRegisters h
    exact .inl hP
  | _ => exact .inl (of_exec (Q := KeepsP s) h (by simp [KeepsP, doneState])
      (by simp [KeepsP, spoiltState]))

theorem exec_keepsR (h : exec i s = .next t) :
    KeepsR s t ∨ (∃ d a p, i = .ldpr d a p) ∨ (∃ a b, i = .trpr a b) ∨ ∃ d a x, i = .roll d a x := by
  cases i with
  | ldpr d a p => exact .inr (.inl ⟨d, a, p, rfl⟩)
  | trpr a b => exact .inr (.inr (.inl ⟨a, b, rfl⟩))
  | roll d a x => exact .inr (.inr (.inr ⟨d, a, x, rfl⟩))
  | extract =>
    obtain ⟨-, hR, -, -⟩ := execExtract_keepsRegisters h
    exact .inl hR
  | _ => exact .inl (of_exec (Q := KeepsR s) h (by simp [KeepsR, doneState])
      (by simp [KeepsR, spoiltState]))

theorem exec_keepsS (h : exec i s = .next t) :
    KeepsS s t ∨ (∃ d v, i = .setlo d v) ∨ ∃ d v, i = .sethi d v := by
  cases i with
  | setlo d v => exact .inr (.inl ⟨d, v, rfl⟩)
  | sethi d v => exact .inr (.inr ⟨d, v, rfl⟩)
  | extract =>
    obtain ⟨-, -, -, hS⟩ := execExtract_keepsRegisters h
    exact .inl hS
  | _ => exact .inl (of_exec (Q := KeepsS s) h (by simp [KeepsS, doneState])
      (by simp [KeepsS, spoiltState]))

theorem exec_keepsV (h : exec i s = .next t) :
    KeepsV s t ∨ (∃ d, i = .vclr d) ∨ (∃ d a p n, i = .ldv d a p n) ∨ (∃ d a p b, i = .selb d a p b) ∨
      (∃ g, i = .zip g) ∨ (∃ d gl gr off, i = .pcxor d gl gr off) ∨ (∃ gr, i = .shup gr) ∨
      ∃ d p gl gr e, i = .aggr d p gl gr e := by
  cases i with
  | vclr | ldv | selb | zip | pcxor | shup | aggr => simp
  | extract =>
    obtain ⟨hV, -, -, -⟩ := execExtract_keepsRegisters h
    exact .inl hV
  | _ => exact .inl (of_exec (Q := KeepsV s) h (by simp [KeepsV, doneState])
      (by simp [KeepsV, spoiltState]))

theorem exec_keepsMem (h : exec i s = .next t) :
    KeepsMem s t ∨ (∃ a d p n, i = .std a d p n) ∨
      (∃ src w h sp dst dp, i = .extract src w h sp dst dp) ∨ ∃ d p gl gr e, i = .aggr d p gl gr e := by
  cases i with
  | std | extract | aggr => simp
  | _ => exact .inl (of_exec (Q := KeepsMem s) h (by simp [KeepsMem, doneState])
      (by simp [KeepsMem, spoiltState]))

theorem exec_keepsTS (h : exec i s = .next t) :
    t.status.ts = s.status.ts ∨ i = .clrst ∨ ∃ src w h sp dst dp, i = .extract src w h sp dst dp := by
  cases i with
  | clrst | extract => simp
  | _ => exact .inl (of_exec (Q := fun u => u.status.ts = s.status.ts) h (by simp [doneState])
      (by simp [spoiltState]))

end

/-- Settles O45: file by file, a command that is not a writer keeps it. -/
theorem eachFileIsWrittenByItsCommandsOnly : Obligations.EachFileIsWrittenByItsCommandsOnly := by
  unfold Obligations.EachFileIsWrittenByItsCommandsOnly
  intro i s t h
  exact ⟨(exec_keepsP h).resolve_left, (exec_keepsR h).resolve_left, (exec_keepsS h).resolve_left,
    (exec_keepsV h).resolve_left, (exec_keepsMem h).resolve_left, (exec_keepsTS h).resolve_left⟩

/-! ### The control read-back port (rules R32, R36) -/

/-- `CFG0` as hardwired (rule R36). -/
@[simp] theorem Config.cfg0_eq : Config.cfg0 = 0x01021010#32 := by decide

/-- `CFG1` as hardwired (rule R36). -/
@[simp] theorem Config.cfg1_eq : Config.cfg1 = 0x20200818#32 := by decide

@[simp] theorem State.readControl_zero (s : State) : s.readControl 0 = s.status.word := rfl

theorem State.readControl_cfg0 (s : State) : s.readControl 4 = 0x01021010#32 := Config.cfg0_eq

theorem State.readControl_cfg1 (s : State) : s.readControl 5 = 0x20200818#32 := Config.cfg1_eq

/-- There is no register from index 6 on (rule R30). -/
theorem State.readControl_of_six_le (s : State) {n : Nat} (h : 6 ≤ n) : s.readControl n = 0 := by
  obtain ⟨k, rfl⟩ := Nat.exists_eq_add_of_le' h
  rfl

/-- Bit `k` of `STATUS` is the `k`-th of its four, and 0 from bit 4 on (rule R32). -/
theorem Status.getLsbD_word (t : Status) (k : Nat) :
    t.word.getLsbD k = [t.ts, t.ill, t.merr, t.halt].getD k false := by
  by_cases hk : k < 32
  · exact getLsbD_ofBits 32 _ k hk
  · rw [BitVec.getLsbD_of_ge _ _ (by omega), List.getD_eq_default]
    simp only [List.length_cons, List.length_nil]
    omega

theorem Status.getLsbD_word_of_four_le (t : Status) {k : Nat} (h : 4 ≤ k) :
    t.word.getLsbD k = false := by
  rw [Status.getLsbD_word, List.getD_eq_default _ _ h]

theorem Status.toNat_word_le (t : Status) : t.word.toNat ≤ 15 := by
  have hlt : t.word.toNat < 2 ^ 4 :=
    Nat.lt_pow_two_of_testBit _ fun k hk => t.getLsbD_word_of_four_le hk
  omega

/-- Settles O52, bit by bit of the `STATUS` word. -/
theorem statusWordHasItsFourBits : Obligations.StatusWordHasItsFourBits := by
  unfold Obligations.StatusWordHasItsFourBits
  intro s
  rw [State.readControl_zero]
  exact ⟨s.status.getLsbD_word 0, s.status.getLsbD_word 1, s.status.getLsbD_word 2,
    s.status.getLsbD_word 3, fun k => s.status.getLsbD_word_of_four_le, s.status.toNat_word_le⟩

/-- Settles O51: the four stored registers by definition, the rest by the lemmas of the port. -/
theorem controlPortReadsTheSixRegisters : Obligations.ControlPortReadsTheSixRegisters := by
  unfold Obligations.ControlPortReadsTheSixRegisters
  refine ⟨fun s => ⟨rfl, rfl, rfl, rfl, s.readControl_cfg0, s.readControl_cfg1,
    fun n => s.readControl_of_six_le⟩, fun s => ?_⟩
  rw [s.readControl_cfg0, s.readControl_cfg1]
  decide

end Sys2Proof.Machine

/-! PROOFS. Memory as commands and the host leave it: what stands after a `MemError`, said once for every
command, the imprecise errors of the two engines, and what one step does with the host's next event. -/

namespace Sys2Proof.Machine

/-! ### Addresses of the AGGR patch, and the size test of EXTRACT -/

/-- The patch entries are the sixteen by sixteen pairs (rule R171). -/
theorem mem_patchEntries {dsp px : Nat} : (dsp, px) ∈ patchEntries ↔ dsp < 16 ∧ px < 16 := by
  simp [patchEntries]

/-- `AggrRowsValid` speaks of exactly the addresses of AGGR's footprint (rules R56, R171). -/
theorem aggrRowsValid_iff {s : State} {d p : SReg} :
    AggrRowsValid s d p ↔ ∀ a ∈ s.aggrFootprint d p, s.memValid a = true := by
  unfold AggrRowsValid State.aggrFootprint
  rw [List.forall_mem_map]
  constructor
  · rintro h ⟨dsp, px⟩ hentry
    obtain ⟨hdsp, hpx⟩ := mem_patchEntries.mp hentry
    exact h dsp hdsp px hpx
  · intro h dsp hdsp px hpx
    exact h (dsp, px) (mem_patchEntries.mpr ⟨hdsp, hpx⟩)

/-- The size test in numbers (rules R8, R153). -/
theorem ExtractJob.tooSmall_eq_false_iff {j : ExtractJob} :
    j.tooSmall = false ↔ 24 ≤ j.width.toNat ∧ 8 ≤ j.height.toNat := by
  simp only [ExtractJob.tooSmall, Bool.or_eq_false_iff, decide_eq_false_iff_not, Nat.not_lt]
  exact Iff.rfl

/-- EXTRACT of an image that passes the size test is tested on the whole footprint (rule R159). -/
theorem footprintOf_extract {s : State} {src w h sp dst dp : SReg}
    (hbig : (s.extractJob src w h sp dst dp).tooSmall = false) :
    footprintOf (.extract src w h sp dst dp) s = (s.extractJob src w h sp dst dp).footprint := by
  simp only [footprintOf, hbig, Bool.false_eq_true, if_false]

/-! ### What stands after a MemError (rules R56, R182, U5) -/

/-- The state in which command `i` has recorded the invalid address `a`. -/
def failedState (i : Instr) (s : State) (a : Nat) : State :=
  ((spoiltState i s).raise (.memError (BitVec.ofNat 32 a)) (encode i)).fresh

/-- A command with an invalid address in its footprint answers its failed state for such an address. -/
theorem exec_eq_failedState {i : Instr} {s : State}
    (hbad : ∃ a ∈ footprintOf i s, s.memValid a = false) :
    ∃ a ∈ footprintOf i s, s.memValid a = false ∧ exec i s = .next (failedState i s a) := by
  refine (exec_cases i s).resolve_left fun ⟨hvalid, _⟩ => ?_
  obtain ⟨a, ha, hinvalid⟩ := hbad
  exact Bool.false_ne_true (hinvalid.symm.trans (hvalid a ha))

@[simp] theorem spoiltState_status (i : Instr) (s : State) : (spoiltState i s).status = s.status := by
  cases i <;> rfl

@[simp] theorem spoiltState_port (i : Instr) (s : State) : (spoiltState i s).port = s.port := by
  cases i <;> rfl

/-- The control registers after a `MemError` on a block that was not halted (rule R182). -/
theorem failedState_recordsMemError {i : Instr} {s : State} {a : Nat} (hrun : s.halted = false)
    (ha : a ∈ footprintOf i s) (hinvalid : s.memValid a = false) :
    RecordsMemError i (footprintOf i s) s (failedState i s a) := by
  have hk := spoiltState_keepsControl i s
  have hrun' : (spoiltState i s).halted = false := hk.halted.trans hrun
  have haddr : (failedState i s a).errAddr.toNat = a := by
    simp only [failedState, State.fresh_errAddr, State.raiseMemError_errAddr, hrun',
      Bool.false_eq_true, if_false]
    exact toNat_of_mem_footprintOf ha
  refine ⟨?_, ?_, ⟨a, ha, hinvalid, haddr⟩, hk.cmdCnt, hk.backed, ?_⟩
  · simp [failedState]
  · simp [failedState, hrun']
  · simp [failedState]

/-- Recording the error does not touch memory. -/
theorem failedState_mem (i : Instr) (s : State) (a : Nat) :
    (failedState i s a).mem = (spoiltState i s).mem := rfl

/-- Nor does it touch a vector register. -/
theorem readV_failedState (i : Instr) (s : State) (a : Nat) (r : VReg) :
    (failedState i s a).readV r = (spoiltState i s).readV r := rfl

/-- A failed AGGR leaves every vector register outside `H(gr)` as it was. -/
theorem readV_failedState_aggr {d p : SReg} {gl : Group} {gr : DoubleGroup} {e : Bool} {s : State}
    {a : Nat} {r : VReg} (hr : inDouble gr r = false) :
    (failedState (.aggr d p gl gr e) s a).readV r = s.readV r := by
  simp only [readV_failedState, spoiltState]
  rw [State.readV_spoilDouble_of_not _ gr r hr, State.readV_storeSome]

/-- Memory after a `MemError`: a byte reads as before, or at a valid address as one of the command's own
writes says (rule R182, log 8). -/
theorem read_failedState (i : Instr) (s : State) (a x : Nat) :
    (failedState i s a).mem.read x = s.mem.read x ∨ (s.memValid x = true ∧
      ∃ c ∈ commandCells i s, c.1 = x ∧ (failedState i s a).mem.read x = c.2) := by
  have engine (cells : List Host.Cell) : (s.storeSome cells).mem.read x = s.mem.read x ∨
      (s.memValid x = true ∧ ∃ c ∈ cells, c.1 = x ∧ (s.storeSome cells).mem.read x = c.2) :=
    (s.read_storeSome cells x).imp_right fun ⟨c, hc, hx, hvalid, hread⟩ => ⟨hvalid, c, hc, hx, hread⟩
  rw [failedState_mem]
  cases i with
  | extract => exact engine _
  | aggr => exact engine _
  | _ => exact .inl rfl

/-- Settles O33: the recorded error and the memory are those of any failed command, and EXTRACT writes no
register in any case. -/
theorem extractMemErrorIsImprecise : Obligations.ExtractMemErrorIsImprecise := by
  unfold Obligations.ExtractMemErrorIsImprecise
  intro s src w h sp dst dp hrun hw hh hbad
  have hfp : footprintOf (.extract src w h sp dst dp) s = (s.extractJob src w h sp dst dp).footprint :=
    footprintOf_extract (ExtractJob.tooSmall_eq_false_iff.mpr ⟨hw, hh⟩)
  rw [← hfp] at hbad ⊢
  obtain ⟨a, ha, hinvalid, he⟩ := exec_eq_failedState hbad
  exact ⟨_, he, failedState_recordsMemError hrun ha hinvalid, read_failedState _ s a,
    execExtract_keepsRegisters he⟩

/-- Settles O25: as for EXTRACT, and of the registers only `H(gr)` is spoilt. -/
theorem aggrMemErrorIsImprecise : Obligations.AggrMemErrorIsImprecise := by
  unfold Obligations.AggrMemErrorIsImprecise
  intro s d p gl gr e hrun hrows
  have hbad : ∃ a ∈ footprintOf (.aggr d p gl gr e) s, s.memValid a = false := by
    simpa [aggrRowsValid_iff, footprintOf] using hrows
  obtain ⟨a, ha, hinvalid, he⟩ := exec_eq_failedState hbad
  refine ⟨_, he, failedState_recordsMemError hrun ha hinvalid, read_failedState _ s a, ?_, ?_, ?_, ?_⟩
  · exact fun r hr => readV_failedState_aggr hr
  · exact (exec_keepsR he).resolve_right (by simp)
  · exact (exec_keepsP he).resolve_right (by simp)
  · exact (exec_keepsS he).resolve_right (by simp)

/-! ### One step and the host's next event (rules R58, R60, R70) -/

/-- A step takes the oldest event and runs it on the state without it. -/
theorem step_of_port_cons {s : State} {e : HostEvent} {rest : List HostEvent}
    (hport : s.port = e :: rest) : step s = runEvent e { s with port := rest } := by
  simp only [step, acceptNext, hport]

/-- A legal word on a block that is not halted runs its command (rules R184, R185). -/
theorem runCommand_of_decode {s : State} {w : Word} {i : Instr} (hrun : s.halted = false)
    (hdecode : decode w = some i) : runCommand w s = exec i s := by
  simp [runCommand, hrun, hdecode]

/-- Settles O39: the step is the event, the event is the command; the port is no part of `HALT`. -/
theorem stepRunsTheDecodedCommand : Obligations.StepRunsTheDecodedCommand := by
  unfold Obligations.StepRunsTheDecodedCommand
  intro s w rest i hport hrun hdecode
  calc step s = runEvent (.command w) { s with port := rest } := step_of_port_cons hport
    _ = exec i { s with port := rest } := runCommand_of_decode hrun hdecode

/-- A step that takes a host write changes the port, and memory by that byte where the platform backs the
address (rule R60, log 14). -/
theorem step_of_hostWrite {s : State} {a : Word} {b : Byte} {rest : List HostEvent}
    (hport : s.port = .hostWrite a b :: rest) :
    step s = .next { s with
      port := rest
      mem := if s.memValid a.toNat then s.mem.write a.toNat b else s.mem } := by
  rw [step_of_port_cons hport]
  refine congrArg Host.Outcome.next ?_
  by_cases hvalid : s.memValid a.toNat = true
  · rw [if_pos hvalid]
    exact if_pos hvalid
  · rw [if_neg hvalid]
    exact if_neg hvalid

/-- A byte after a write that is made only where `c` holds. -/
theorem Memory.read_write_where (c : Prop) [Decidable c] (m : Memory) (a x : Nat) (b : Byte) :
    (if c then m.write a b else m).read x = if c ∧ x = a then b else m.read x := by
  by_cases hc : c
  · simp only [hc, if_true, true_and, Memory.read_write]
  · simp only [hc, if_false, false_and]

/-- Settles O53: only memory and the port differ, and memory by one byte at most. -/
theorem hostWriteReachesBackedMemory : Obligations.HostWriteReachesBackedMemory := by
  unfold Obligations.HostWriteReachesBackedMemory
  intro s a b rest hport
  have hread := Memory.read_write_where (s.memValid a.toNat = true) s.mem a.toNat
  refine ⟨_, step_of_hostWrite hport, ?_, ?_, ⟨fun _ => rfl, fun _ => rfl, fun _ => rfl, fun _ => rfl⟩,
    rfl, ⟨rfl, rfl⟩, rfl, rfl, rfl⟩
  · exact fun hvalid => (hread _ b).trans (if_pos ⟨hvalid, rfl⟩)
  · rintro x hx
    refine (hread x b).trans (if_neg ?_)
    rintro ⟨hvalid, rfl⟩
    simp [hvalid] at hx

end Sys2Proof.Machine

/-! PROOFS. Encoding: one row per opcode, what the decoder answers, and the round trip in both directions. The
format rules of R72 are the middle: the masks imply them, and every cut that obeys them is the cut of a command. -/

namespace Sys2Proof

/-! ### One row per opcode (rule R74) -/

theorem opcodes_nodup : (opcodeTable.map fun r => (Fields.cut r.pattern).op).Nodup := by decide

/-- Every mask covers the opcode byte, so rows that accept a common word have a common opcode. -/
theorem Row.eq_of_accepts {r q : Row} (hr : r ∈ opcodeTable) (hq : q ∈ opcodeTable) {w : Word}
    (hrw : r.accepts w = true) (hqw : q.accepts w = true) : r = q :=
  List.inj_on_of_nodup_map opcodes_nodup hr hq ((op_of_accepts hr hrw).symm.trans (op_of_accepts hq hqw))

theorem Row.accepts_iff_masked {r : Row} {w : Word} : r.accepts w = true ↔ w &&& r.mask = r.pattern :=
  beq_iff_eq

/-- The place of a row in the table does not matter: decoding is the reading of the row that accepts. -/
theorem decode_eq_some_iff {w : Word} {i : Instr} :
    decode w = some i ↔ ∃ r ∈ opcodeTable, r.accepts w = true ∧ i = r.read w := by
  rw [decode, Option.map_eq_some_iff]
  constructor
  · rintro ⟨r, hfind, rfl⟩
    exact ⟨r, List.mem_of_find?_eq_some hfind, List.find?_some (p := (Row.accepts · w)) hfind, rfl⟩
  · rintro ⟨r, hr, hrw, rfl⟩
    obtain ⟨q, hfind⟩ : ∃ q, opcodeTable.find? (Row.accepts · w) = some q :=
      Option.isSome_iff_exists.mp (List.find?_isSome.mpr ⟨r, hr, hrw⟩)
    have hqw : q.accepts w = true := List.find?_some (p := (Row.accepts · w)) hfind
    have hqr : q = r := Row.eq_of_accepts (List.mem_of_find?_eq_some hfind) hr hqw hrw
    exact ⟨q, hfind, by rw [hqr]⟩

theorem decode_eq_none_iff {w : Word} : decode w = none ↔ ∀ r ∈ opcodeTable, ¬r.accepts w = true := by
  rw [decode, Option.map_eq_none_iff, List.find?_eq_none]

/-- Settles O36: rows differ in the opcode byte, which every mask covers. -/
theorem noTwoRowsMatchOneWord : Obligations.NoTwoRowsMatchOneWord := by
  unfold Obligations.NoTwoRowsMatchOneWord
  simp only [← Row.accepts_iff_masked, ne_eq]
  refine ⟨?_, fun _ _ => decode_eq_some_iff, fun _ => decode_eq_none_iff⟩
  refine (List.pairwise_map.mp opcodes_nodup).imp_of_mem fun hr hq hop w ⟨hrw, hqw⟩ => hop ?_
  rw [Row.eq_of_accepts hr hq hrw hqw]

/-! ### Decode after encode -/

theorem rowReadsBack : ∀ i : Instr, Laws.RowReadsBack.Statement i
  | .setlo d imm16 => Laws.RowReadsBack.setlo d imm16
  | .sethi d imm16 => Laws.RowReadsBack.sethi d imm16
  | .vclr d => Laws.RowReadsBack.vclr d
  | .clrst => Laws.RowReadsBack.clrst
  | .ldpr d a p => Laws.RowReadsBack.ldpr d a p
  | .ldv d a p n => Laws.RowReadsBack.ldv d a p n
  | .std a d p n => Laws.RowReadsBack.std a d p n
  | .cmppr d a b => Laws.RowReadsBack.cmppr d a b
  | .selb d a p b => Laws.RowReadsBack.selb d a p b
  | .trpr a b => Laws.RowReadsBack.trpr a b
  | .roll d a x => Laws.RowReadsBack.roll d a x
  | .zip g => Laws.RowReadsBack.zip g
  | .pcxor d gl gr off => Laws.RowReadsBack.pcxor d gl gr off
  | .shup gr => Laws.RowReadsBack.shup gr
  | .extract src w h sp dst dp => Laws.RowReadsBack.extract src w h sp dst dp
  | .aggr d p gl gr e => Laws.RowReadsBack.aggr d p gl gr e

@[simp] theorem decode_encode (i : Instr) : decode (encode i) = some i := by
  obtain ⟨r, hr, haccepts, hread⟩ := rowReadsBack i
  exact decode_eq_some_iff.mpr ⟨r, hr, haccepts, hread.symm⟩

/-- Settles O34: a row reads the command back, and decoding is that row's reading. -/
theorem decodeOfEncodeIsTheCommand : Obligations.DecodeOfEncodeIsTheCommand := by
  unfold Obligations.DecodeOfEncodeIsTheCommand
  exact decode_encode

/-! ### The masks imply the format rules (rules R72, R76) -/

theorem and_full_mask (f : BitVec 4) : f &&& 15#4 = f := BitVec.and_allOnes

theorem Fields.isGroup_iff_masked (f : BitVec 4) : Fields.isGroup f = true ↔ f &&& 12#4 = 0#4 := by
  revert f; decide

theorem Fields.isBit_iff_masked (f : BitVec 4) : Fields.isBit f = true ↔ f &&& 14#4 = 0#4 := by
  revert f; decide

theorem Fields.isBitIndex_iff_masked (f : BitVec 4) : Fields.isBitIndex f = true ↔ f &&& 8#4 = 0#4 := by
  revert f; decide

/-- The opcode of a row picks the format; the rest of its mask is the format's must-be-zero bits. -/
theorem Row.masked_iff_wellFormed {r : Row} (hr : r ∈ opcodeTable) {x : Fields}
    (hop : x.op = (Fields.cut r.pattern).op) :
    x.and (Fields.cut r.mask) = Fields.cut r.pattern ↔ x.wellFormed = true := by
  obtain ⟨op, f1, f2, f3, f4, f5, f6⟩ := x
  subst hop
  simp only [opcodeTable, List.mem_cons, List.not_mem_nil, or_false] at hr
  rcases hr with rfl | rfl | rfl | rfl | rfl | rfl | rfl | rfl | rfl | rfl | rfl | rfl | rfl | rfl | rfl | rfl
  all_goals
    simp [Fields.and, Fields.cut, Fields.wellFormed, and_full_mask, Fields.isGroup_iff_masked,
      Fields.isBit_iff_masked, Fields.isBitIndex_iff_masked, and_assoc]

theorem Row.wellFormed_of_accepts {r : Row} (hr : r ∈ opcodeTable) {w : Word} (h : r.accepts w = true) :
    (Fields.cut w).wellFormed = true :=
  (Row.masked_iff_wellFormed hr (op_of_accepts hr h)).mp ((Row.accepts_iff r w).mp h)

/-! ### Well-formed fields are the fields of a command (rules R72, R76) -/

@[simp] theorem nibble_toNat_self (f : BitVec 4) : nibble f.toNat = f := by
  rw [nibble, BitVec.ofNat_toNat, BitVec.setWidth_eq]

theorem op_of_toNat {op : BitVec 8} {n : Nat} (h : op.toNat = n) : op = BitVec.ofNat 8 n := by
  rw [← h, BitVec.ofNat_toNat, BitVec.setWidth_eq]

theorem exists_flag {f : BitVec 4} (h : Fields.isBit f = true) : ∃ e : Bool, nibble e.toNat = f := by
  revert f; decide

/-- The offset of format X has its high bit in `f5` and the rest in `f6`. -/
theorem exists_offset {f5 : BitVec 4} (f6 : BitVec 4) (h : Fields.isBit f5 = true) :
    ∃ off : Fin 32, nibble (off.val / 16) = f5 ∧ nibble off.val = f6 := by
  revert f5 f6; decide

/-- The immediate of format I is the low half of the word. -/
theorem exists_imm (x : Fields) : ∃ imm16 : BitVec 16, imm16.extractLsb' 12 4 = x.f3 ∧
    imm16.extractLsb' 8 4 = x.f4 ∧ imm16.extractLsb' 4 4 = x.f5 ∧ imm16.extractLsb' 0 4 = x.f6 := by
  refine ⟨x.word.extractLsb' 0 16, ?_, ?_, ?_, ?_⟩ <;> rw [BitVec.extractLsb'_extractLsb'_of_le (by decide)]
  · exact congrArg Fields.f3 x.cut_word
  · exact congrArg Fields.f4 x.cut_word
  · exact congrArg Fields.f5 x.cut_word
  · exact congrArg Fields.f6 x.cut_word

/-- The command is the one of the opcode, with its operands read from the fields; the bound a narrow operand
needs is the format rule of its field. -/
theorem Fields.exists_instr {x : Fields} (h : x.wellFormed = true) : ∃ i : Instr, i.fields = x := by
  obtain ⟨imm16, e3, e4, e5, e6⟩ := exists_imm x
  obtain ⟨op, f1, f2, f3, f4, f5, f6⟩ := x
  simp only at e3 e4 e5 e6
  simp only [Fields.wellFormed] at h
  split at h <;> rename_i hop
  case h_17 => cases h
  all_goals
    simp only [Bool.and_eq_true, beq_iff_eq, and_assoc] at h
    obtain rfl := op_of_toNat hop
  · exact ⟨.setlo f1.toFin imm16, by simp [Instr.fields, h, e3, e4, e5, e6]⟩
  · exact ⟨.sethi f1.toFin imm16, by simp [Instr.fields, h, e3, e4, e5, e6]⟩
  · exact ⟨.vclr f1.toFin, by simp [Instr.fields, h]⟩
  · exact ⟨.clrst, by simp [Instr.fields, h]⟩
  · exact ⟨.ldpr f1.toFin f2.toFin f3.toFin, by simp [Instr.fields, h]⟩
  · exact ⟨.ldv f1.toFin f2.toFin f3.toFin f4.toFin, by simp [Instr.fields, h]⟩
  · exact ⟨.std f1.toFin f2.toFin f3.toFin f4.toFin, by simp [Instr.fields, h]⟩
  · exact ⟨.cmppr f1.toFin f2.toFin f3.toFin, by simp [Instr.fields, h]⟩
  · exact ⟨.selb f1.toFin f2.toFin f3.toFin ⟨f4.toNat, of_decide_eq_true h.1⟩, by simp [Instr.fields, h]⟩
  · exact ⟨.trpr f1.toFin f2.toFin, by simp [Instr.fields, h]⟩
  · exact ⟨.roll f1.toFin f2.toFin ⟨f3.toNat, of_decide_eq_true h.1⟩, by simp [Instr.fields, h]⟩
  · exact ⟨.zip ⟨f1.toNat, of_decide_eq_true h.1⟩, by simp [Instr.fields, h]⟩
  · obtain ⟨hgl, hgr, hzero, hoff⟩ := h
    obtain ⟨off, e5, e6⟩ := exists_offset f6 hoff
    exact ⟨.pcxor f1.toFin ⟨f2.toNat, of_decide_eq_true hgl⟩ ⟨f3.toNat, of_decide_eq_true hgr⟩ off,
      by simp [Instr.fields, hzero, e5, e6]⟩
  · exact ⟨.shup ⟨f1.toNat, of_decide_eq_true h.1⟩, by simp [Instr.fields, h]⟩
  · exact ⟨.extract f1.toFin f2.toFin f3.toFin f4.toFin f5.toFin f6.toFin, by simp [Instr.fields]⟩
  · obtain ⟨hgl, hgr, hflag, hzero⟩ := h
    obtain ⟨e, he⟩ := exists_flag hflag
    exact ⟨.aggr f1.toFin f2.toFin ⟨f3.toNat, of_decide_eq_true hgl⟩ ⟨f4.toNat, of_decide_eq_true hgr⟩ e,
      by simp [Instr.fields, hzero, he]⟩

/-- A word whose fields obey the format rules is an encoding. -/
theorem exists_encode_of_wellFormed {w : Word} (h : (Fields.cut w).wellFormed = true) :
    ∃ i : Instr, encode i = w := by
  obtain ⟨i, hi⟩ := Fields.exists_instr h
  exact ⟨i, by rw [encode, hi, Fields.word_cut]⟩

/-! ### Encode after decode -/

theorem wellFormed_of_decode {w : Word} {i : Instr} (h : decode w = some i) :
    (Fields.cut w).wellFormed = true := by
  obtain ⟨r, hr, haccepts, -⟩ := decode_eq_some_iff.mp h
  exact Row.wellFormed_of_accepts hr haccepts

/-- A legal word is well formed, hence some command's encoding, and decoding says which command's. -/
theorem encode_of_decode {w : Word} {i : Instr} (h : decode w = some i) : encode i = w := by
  obtain ⟨j, rfl⟩ := exists_encode_of_wellFormed (wellFormed_of_decode h)
  rw [decode_encode, Option.some.injEq] at h
  rw [h]

/-- Settles O35: no bit of a legal word is lost. -/
theorem legalWordIsItsCommandsEncoding : Obligations.LegalWordIsItsCommandsEncoding := by
  unfold Obligations.LegalWordIsItsCommandsEncoding
  exact fun _ _ => encode_of_decode

/-- Settles O37: the masks imply the format rules, and a word that obeys them is an encoding. -/
theorem masksAgreeWithTheFieldRules : Obligations.MasksAgreeWithTheFieldRules := by
  unfold Obligations.MasksAgreeWithTheFieldRules
  intro w
  rw [Bool.eq_iff_iff]
  constructor
  · intro h
    obtain ⟨i, hi⟩ := Option.isSome_iff_exists.mp h
    exact wellFormed_of_decode hi
  · intro h
    obtain ⟨i, rfl⟩ := exists_encode_of_wellFormed h
    rw [decode_encode, Option.isSome_some]

/-- Settles O38: twelve closed words, evaluated by the decoder itself. -/
theorem sampleWordsDecode : Obligations.SampleWordsDecode := by
  unfold Obligations.SampleWordsDecode
  decide

end Sys2Proof

/-! PROOFS. The pseudo-instruction LI: its expansion by the size of the constant, and what the one or two
commands of it leave. -/

namespace Sys2Proof.Machine

/-! ### The two commands (rules R140, R141) -/

theorem exec_setlo (d : SReg) (imm16 : BitVec 16) (s : State) :
    exec (.setlo d imm16) s = .next (s.writeS d (imm16.setWidth 32)).complete := rfl

theorem exec_sethi (d : SReg) (imm16 : BitVec 16) (s : State) :
    exec (.sethi d imm16) s = .next (s.writeS d (imm16 ++ (s.readS d).extractLsb' 0 16)).complete := rfl

/-! ### The halves of a constant -/

theorem high_half_eq_zero_iff (w : Word) : w.extractLsb' 16 16 = 0 ↔ w.toNat < 2 ^ 16 := by
  have hlt := w.isLt
  rw [← BitVec.toNat_inj, ← cut_toNat, show (0 : BitVec 16).toNat = 0 from rfl]
  omega

theorem low_half_of_small {w : Word} (h : w.toNat < 2 ^ 16) : (w.extractLsb' 0 16).setWidth 32 = w := by
  apply BitVec.eq_of_toNat_eq
  rw [BitVec.toNat_setWidth, ← cut_toNat]
  omega

/-- What SETHI puts over what SETLO has left. -/
theorem high_half_append_low_half (w : Word) :
    w.extractLsb' 16 16 ++ ((w.extractLsb' 0 16).setWidth 32).extractLsb' 0 16 = w := by
  rw [BitVec.extractLsb'_setWidth_of_le (by decide), BitVec.extractLsb'_eq_self]
  exact BitVec.extractLsb'_append_extractLsb'

/-! ### The expansion (rule R81) -/

theorem expandLI_of_small {w : Word} (d : SReg) (h : w.toNat < 2 ^ 16) :
    expandLI d w = [.setlo d (w.extractLsb' 0 16)] := by
  rw [expandLI, if_pos ((high_half_eq_zero_iff w).mpr h)]

theorem expandLI_of_large {w : Word} (d : SReg) (h : ¬w.toNat < 2 ^ 16) :
    expandLI d w = [.setlo d (w.extractLsb' 0 16), .sethi d (w.extractLsb' 16 16)] := by
  rw [expandLI, if_neg (mt (high_half_eq_zero_iff w).mp h)]

theorem execSeq_expandLI_of_small {w : Word} (d : SReg) (s : State) (h : w.toNat < 2 ^ 16) :
    execSeq (expandLI d w) s = .next (s.writeS d w).complete := by
  rw [expandLI_of_small d h]
  simp only [execSeq, exec_setlo, low_half_of_small h]

theorem execSeq_expandLI_of_large {w : Word} (d : SReg) (s : State) (h : ¬w.toNat < 2 ^ 16) :
    execSeq (expandLI d w) s =
      .next ((s.writeS d ((w.extractLsb' 0 16).setWidth 32)).complete.writeS d w).complete := by
  rw [expandLI_of_large d h]
  simp only [execSeq, exec_setlo, exec_sethi, State.readS_complete, State.readS_writeS_self,
    high_half_append_low_half]

/-- Settles O5: one command for a constant below 2^16, two for any other. -/
theorem loadImmediateExpansionLoadsWord : Obligations.LoadImmediateExpansionLoadsWord := by
  unfold Obligations.LoadImmediateExpansionLoadsWord
  intro s d w _
  rw [BitVec.setWidth_eq_extractLsb' (by decide)]
  by_cases hsmall : w.toNat < 2 ^ 16
  · rw [if_pos hsmall]
    refine ⟨expandLI_of_small d hsmall, _, execSeq_expandLI_of_small d s hsmall, by simp, fun i hi => ?_,
      fun _ => rfl, fun _ => rfl, fun _ => rfl, fun _ => rfl, ?_⟩
    · simp [State.readS_writeS_of_ne, hi]
    · simp [expandLI_of_small d hsmall]
  · rw [if_neg hsmall]
    refine ⟨expandLI_of_large d hsmall, _, execSeq_expandLI_of_large d s hsmall, by simp, fun i hi => ?_,
      fun _ => rfl, fun _ => rfl, fun _ => rfl, fun _ => rfl, ?_⟩
    · simp [State.readS_writeS_of_ne, hi]
    · simp [expandLI_of_large d hsmall, BitVec.add_assoc]

end Sys2Proof.Machine

/-! PROOFS. What the census primitives and their transfers share: the number of an encoding, a command with a
valid and with an invalid footprint, the frame of one register write. -/

namespace Sys2Proof

/-! ### The number of an encoding (rules R71, R72) -/

@[simp] theorem nibble_toNat_of_fin {m : Nat} (x : Fin m) (hm : m ≤ 16) : (nibble x.val).toNat = x.val :=
  nibble_toNat (by omega)

/-- A number is the word of a command when its digits are the command's fields. -/
theorem decode_of_digits {i : Instr} {n : Nat}
    (h : i.fields.op.toNat * 2 ^ 24 + i.fields.f1.toNat * 2 ^ 20 + i.fields.f2.toNat * 2 ^ 16 +
      i.fields.f3.toNat * 2 ^ 12 + i.fields.f4.toNat * 2 ^ 8 + i.fields.f5.toNat * 2 ^ 4 +
      i.fields.f6.toNat = n) : decode (BitVec.ofNat 32 n) = some i := by
  have hword : BitVec.ofNat 32 n = encode i := by
    rw [← h, ← Fields.toNat_word, BitVec.ofNat_toNat, BitVec.setWidth_eq, encode]
  rw [hword, decode_encode]

end Sys2Proof

namespace Sys2Proof.Machine

/-! ### The two outcomes of a command (rules R35, R56, R182) -/

theorem exec_of_valid {i : Instr} {s : State} (h : ∀ a ∈ footprintOf i s, s.memValid a = true) :
    exec i s = .next (doneState i s).complete := by
  rcases exec_cases i s with ⟨-, hdone⟩ | ⟨a, ha, hinvalid, -⟩
  · exact hdone
  · exact absurd (h a ha) (by simp [hinvalid])

/-- A command that is precise, because its failure spoils nothing, records the error and changes nothing
else. -/
theorem exec_precise_of_invalid {i : Instr} {s : State} (hprecise : spoiltState i s = s)
    (hrun : s.halted = false) (hbad : ¬∀ a ∈ footprintOf i s, s.memValid a = true) :
    ∃ t, exec i s = .next t ∧ RecordsMemError i (footprintOf i s) s t ∧ KeepsRegisters s t ∧
      KeepsMem s t := by
  obtain ⟨a, ha, hinvalid, he⟩ := exec_eq_failedState (by simpa using hbad)
  refine ⟨_, he, failedState_recordsMemError hrun ha hinvalid, ?_, ?_⟩
  · simp [failedState, hprecise, KeepsRegisters, KeepsV, KeepsR, KeepsP, KeepsS]
  · simp [failedState, hprecise, KeepsMem]

/-- `Valid16` speaks of the addresses of a 16-byte span (rule R56). -/
theorem valid16_iff {s : State} {a : Word} : Valid16 s a ↔ ∀ x ∈ span a 16, s.memValid x = true := by
  simp [Valid16, span]

/-! ### The frame of a command that writes one register -/

theorem writeV_complete_frame (s : State) (d : VReg) (x : Vec) :
    let t := (s.writeV d x).complete
    (∀ i, i ≠ d → t.readV i = s.readV i) ∧
      KeepsR s t ∧ KeepsP s t ∧ KeepsS s t ∧ KeepsMem s t ∧ CompletesQuietly s t :=
  ⟨fun i => s.readV_writeV_of_ne d i x, fun _ => rfl, fun _ => rfl, fun _ => rfl, fun _ => rfl,
    rfl, ⟨rfl, rfl⟩, ⟨rfl, rfl⟩, rfl⟩

theorem writeR_complete_frame (s : State) (d : RReg) (x : PairedRow) :
    let t := (s.writeR d x).complete
    (∀ i, i ≠ d → t.readR i = s.readR i) ∧
      KeepsV s t ∧ KeepsP s t ∧ KeepsS s t ∧ KeepsMem s t ∧ CompletesQuietly s t :=
  ⟨fun i => s.readR_writeR_of_ne d i x, fun _ => rfl, fun _ => rfl, fun _ => rfl, fun _ => rfl,
    rfl, ⟨rfl, rfl⟩, ⟨rfl, rfl⟩, rfl⟩

theorem writeP_complete_frame (s : State) (d : PReg) (x : Pred) :
    let t := (s.writeP d x).complete
    (∀ i, i ≠ d → t.readP i = s.readP i) ∧
      KeepsV s t ∧ KeepsR s t ∧ KeepsS s t ∧ KeepsMem s t ∧ CompletesQuietly s t :=
  ⟨fun i => s.readP_writeP_of_ne d i x, fun _ => rfl, fun _ => rfl, fun _ => rfl, fun _ => rfl,
    rfl, ⟨rfl, rfl⟩, ⟨rfl, rfl⟩, rfl⟩

/-! ### Only five commands touch memory (rules R100, R130, R180) -/

/-- The commands that have a footprint. -/
def AccessesMemory (i : Instr) : Prop :=
  (∃ d a p, i = .ldpr d a p) ∨ (∃ d a p n, i = .ldv d a p n) ∨ (∃ a d p n, i = .std a d p n) ∨
    (∃ src w h sp dst dp, i = .extract src w h sp dst dp) ∨ ∃ d p gl gr e, i = .aggr d p gl gr e

theorem accessesMemory_or_footprintOf_eq_nil (i : Instr) (s : State) :
    AccessesMemory i ∨ footprintOf i s = [] := by
  cases i with
  | ldpr | ldv | std | extract | aggr => exact .inl (by simp [AccessesMemory])
  | _ => exact .inr rfl

theorem doneState_complete_halted (i : Instr) (s : State) : (doneState i s).complete.halted = s.halted :=
  (doneState_keepsControl i s).halted

/-- Settles O44: a command either has a footprint or cannot fail, and a command that does not fail does not
halt. -/
theorem onlyFiveCommandsRaiseMemError : Obligations.OnlyFiveCommandsRaiseMemError := by
  unfold Obligations.OnlyFiveCommandsRaiseMemError
  intro i s hrun
  rcases accessesMemory_or_footprintOf_eq_nil i s with haccess | hnone
  · exact ⟨fun _ _ _ => haccess, .inl haccess⟩
  · have hdone : exec i s = .next (doneState i s).complete := exec_of_valid (by simp [hnone])
    have hrun' := (doneState_complete_halted i s).trans hrun
    refine ⟨fun t ht hhalted => ?_, .inr ⟨_, hdone, hrun', ?_⟩⟩
    · cases hdone.symm.trans ht
      exact absurd (hrun'.symm.trans hhalted) Bool.false_ne_true
    · rw [State.complete_cmdCnt, (doneState_keepsControl i s).cmdCnt]

end Sys2Proof.Machine

/-! PROOFS. The transfers of the census kernel, LDPR and STD: 16 bytes in lane order, or nothing at all. -/

namespace Sys2Proof.Machine

/-! ### LDPR (rule R101) -/

theorem ldpr_footprint_valid_iff {s : State} {d : RReg} {a p : SReg} :
    (∀ x ∈ footprintOf (.ldpr d a p) s, s.memValid x = true) ↔
      Valid16 s (s.readS a) ∧ Valid16 s (s.readS a + s.readS p) := by
  rw [valid16_iff, valid16_iff]
  exact List.forall_mem_append

theorem exec_ldpr_of_valid {s : State} (d : RReg) {a p : SReg} (hnear : Valid16 s (s.readS a))
    (hfar : Valid16 s (s.readS a + s.readS p)) :
    exec (.ldpr d a p) s =
      .next (s.writeR d ⟨s.read16 (s.readS a), s.read16 (s.readS a + s.readS p)⟩).complete :=
  exec_of_valid (ldpr_footprint_valid_iff.mpr ⟨hnear, hfar⟩)

/-- Settles O6: the two reads go to the two halves of one register; an invalid address among the 32 makes the
command fail, which is precise. -/
theorem ldprLoadsBothHalves : Obligations.LdprLoadsBothHalves := by
  unfold Obligations.LdprLoadsBothHalves
  intro s d a p hrun
  refine ⟨decode_of_digits (by simp [Instr.fields]), fun hnear hfar => ?_, fun hbad => ?_⟩
  · refine ⟨_, exec_ldpr_of_valid d hnear hfar, fun k hk => ?_, fun k hk => ?_,
      writeR_complete_frame s d _⟩
    · rw [State.readR_complete, State.readR_writeR_self, State.byteLane_read16 _ _ _ hk]
    · rw [State.readR_complete, State.readR_writeR_self, State.byteLane_read16 _ _ _ hk]
  · exact exec_precise_of_invalid (i := .ldpr d a p) rfl hrun (mt ldpr_footprint_valid_iff.mp hbad)

/-! ### STD (rule R116) -/

theorem std_footprint_valid_iff {s : State} {a : VReg} {d p : SReg} {n : Fin 16} :
    (∀ x ∈ footprintOf (.std a d p n) s, s.memValid x = true) ↔ Valid16 s (s.rowAddr d p n.val) :=
  valid16_iff.symm

theorem exec_std_of_valid {s : State} (a : VReg) {d p : SReg} {n : Fin 16}
    (hvalid : Valid16 s (s.rowAddr d p n.val)) :
    exec (.std a d p n) s = .next (s.store (s.stdCells a d p n)).complete :=
  exec_of_valid (std_footprint_valid_iff.mpr hvalid)

/-- Settles O8: the sixteen cells are those of a 16-byte write at the row address; an invalid address makes
the command fail, which is precise. -/
theorem stdStoresOneRegister : Obligations.StdStoresOneRegister := by
  unfold Obligations.StdStoresOneRegister
  intro s a d p n hrun
  refine ⟨decode_of_digits (by simp [Instr.fields]), fun hvalid => ?_, fun hbad => ?_⟩
  · exact ⟨_, exec_std_of_valid a hvalid, Memory.read_cells16_self _ _ _, Memory.read_cells16_other _ _ _,
      ⟨fun _ => rfl, fun _ => rfl, fun _ => rfl, fun _ => rfl⟩, rfl, ⟨rfl, rfl⟩, ⟨rfl, rfl⟩, rfl⟩
  · exact exec_precise_of_invalid (i := .std a d p n) rfl hrun (mt std_footprint_valid_iff.mp hbad)

end Sys2Proof.Machine

/-! PROOFS. The census lane operations CMPPR, SELB, TRPR, ROLL, ZIP, and the laws that tie them: the bracket
of TRPR and the window law of ROLL. -/

namespace Sys2Proof.Machine

/-! ### CMPPR (rule R104) -/

theorem exec_cmppr (d : PReg) (a b : RReg) (s : State) :
    exec (.cmppr d a b) s = .next (s.writeP d (compareRows (s.readR a) (s.readR b))).complete := rfl

@[simp] theorem getLsbD_compareRows (a b : PairedRow) (k : Nat) (hk : k < 16) :
    (compareRows a b).getLsbD k = decide ((byteLane a.lo k).toNat < (byteLane b.hi k).toNat) := by
  rw [compareRows, getLsbD_ofBits 16 _ k hk, ltu8_eq]

/-- A comparison reads the near half of its first operand and the far half of its second, and no more. -/
theorem compareRows_congr {a b a' b' : PairedRow} (hlo : a.lo = a'.lo) (hhi : b.hi = b'.hi) :
    compareRows a b = compareRows a' b' := by
  rw [compareRows, hlo, hhi, compareRows]

/-- Settles O9, lane by lane of the comparison. -/
theorem cmpprComparesNearWithFar : Obligations.CmpprComparesNearWithFar := by
  unfold Obligations.CmpprComparesNearWithFar
  intro s d a b _
  refine ⟨decode_of_digits (by simp [Instr.fields]), _, exec_cmppr d a b s, fun k hk => ?_,
    writeP_complete_frame s d _⟩
  rw [State.readP_complete, State.readP_writeP_self, getLsbD_compareRows _ _ k hk]

/-! ### SELB (rule R107) -/

theorem exec_selb (d a : VReg) (p : PReg) (b : Fin 8) (s : State) :
    exec (.selb d a p b) s =
      .next (s.writeV d (selectBit (s.readV a) (s.readP p) b.val)).complete := rfl

/-- Bit `b` cleared and then filled: that bit is the new one, every other bit is kept. -/
theorem getLsbD_replaceBit (x : Byte) (c : Bool) (b m : Nat) (hm : m < 8) :
    ((x &&& ~~~(1#8 <<< b)) ||| ((BitVec.ofBool c).setWidth 8 <<< b)).getLsbD m =
      if m = b then c else x.getLsbD m := by
  rcases lt_trichotomy m b with h | rfl | h
  · simp [hm, h, h.ne]
  · simp [hm]
  · have hsub : m - b ≠ 0 := by omega
    simp [hm, h.ne', hsub]

theorem getLsbD_selectBit (acc : Vec) (pred : Pred) (b k m : Nat) (hk : k < 16) (hm : m < 8) :
    (byteLane (selectBit acc pred b) k).getLsbD m =
      if m = b then pred.getLsbD k else (byteLane acc k).getLsbD m := by
  rw [selectBit, byteLane_ofBytes _ k hk, getLsbD_replaceBit _ _ b m hm]

/-- Settles O10, bit by bit of every lane. -/
theorem selbReplacesOneBitOfEveryLane : Obligations.SelbReplacesOneBitOfEveryLane := by
  unfold Obligations.SelbReplacesOneBitOfEveryLane
  intro s d a p b _
  refine ⟨decode_of_digits (by simp [Instr.fields]), _, exec_selb d a p b s, fun k hk m hm => ?_,
    writeV_complete_frame s d _⟩
  rw [State.readV_complete, State.readV_writeV_self, getLsbD_selectBit _ _ _ k m hk hm]

/-! ### TRPR (rules R109, R110) -/

/-- The effect of TRPR on the paired-row file. -/
def State.exchangeFar (s : State) (a b : RReg) : State :=
  (s.writeR a ⟨(s.readR a).lo, (s.readR b).hi⟩).writeR b ⟨(s.readR b).lo, (s.readR a).hi⟩

theorem exec_trpr (a b : RReg) (s : State) :
    exec (.trpr a b) s = .next (s.exchangeFar a b).complete := rfl

/-- TRPR as a permutation: near halves stay, far halves move by the transposition of `a` and `b`. -/
theorem State.readR_exchangeFar (s : State) (a b j : RReg) :
    (s.exchangeFar a b).readR j = ⟨(s.readR j).lo, (s.readR (Equiv.swap a b j)).hi⟩ := by
  rw [State.exchangeFar, State.readR_writeR, State.readR_writeR]
  by_cases hb : b = j
  · rw [if_pos hb, ← hb, Equiv.swap_apply_right]
  · by_cases ha : a = j
    · rw [if_neg hb, if_pos ha, ← ha, Equiv.swap_apply_left]
    · rw [if_neg hb, if_neg ha, Equiv.swap_apply_of_ne_of_ne (Ne.symm ha) (Ne.symm hb)]

theorem exchangeFar_complete_frame (s : State) (a b : RReg) :
    let t := (s.exchangeFar a b).complete
    KeepsV s t ∧ KeepsP s t ∧ KeepsS s t ∧ KeepsMem s t ∧ CompletesQuietly s t :=
  ⟨fun _ => rfl, fun _ => rfl, fun _ => rfl, fun _ => rfl, rfl, ⟨rfl, rfl⟩, ⟨rfl, rfl⟩, rfl⟩

/-- Settles O11, by what the transposition does to `a`, to `b` and to any other index. -/
theorem trprExchangesFarHalves : Obligations.TrprExchangesFarHalves := by
  unfold Obligations.TrprExchangesFarHalves
  intro s a b _
  refine ⟨decode_of_digits (by simp [Instr.fields]), _, exec_trpr a b s, ?_, ?_, fun i ha hb => ?_, ?_,
    ⟨_, exec_trpr b a s, fun i => ?_⟩, exchangeFar_complete_frame s a b⟩
  · rw [State.readR_complete, State.readR_exchangeFar, Equiv.swap_apply_left]
  · rw [State.readR_complete, State.readR_exchangeFar, Equiv.swap_apply_right]
  · rw [State.readR_complete, State.readR_exchangeFar, Equiv.swap_apply_of_ne_of_ne ha hb]
  · rintro rfl i
    rw [State.readR_complete, State.readR_exchangeFar, Equiv.swap_self, Equiv.refl_apply]
  · simp only [State.readR_complete, State.readR_exchangeFar, Equiv.swap_comm a b]

/-- A transposition applied twice is the identity. -/
theorem State.readR_exchangeFar_exchangeFar (s : State) (a b j : RReg) :
    ((s.exchangeFar a b).complete.exchangeFar a b).readR j = s.readR j := by
  simp only [State.readR_exchangeFar, State.readR_complete, Equiv.swap_apply_self]

/-- Settles O12: TRPR is a transposition of far halves, and between two of them a comparison of `a` with
itself sees the far half of `b`. -/
theorem trprIsAnInvolutionAndABracket : Obligations.TrprIsAnInvolutionAndABracket := by
  unfold Obligations.TrprIsAnInvolutionAndABracket
  intro s a b d _
  refine ⟨_, exec_trpr a b s, ⟨_, exec_trpr a b _, fun _ => rfl, fun j => ?_, fun _ => rfl, fun _ => rfl⟩,
    ⟨_, _, exec_cmppr d a a _, exec_cmppr d a b s, ?_⟩, ⟨_, _, exec_cmppr d b b _, exec_cmppr d b a s, ?_⟩⟩
  · exact s.readR_exchangeFar_exchangeFar a b j
  all_goals
    simp only [State.readP_complete, State.readP_writeP_self, State.readR_complete,
      State.readR_exchangeFar, Equiv.swap_apply_left, Equiv.swap_apply_right]
    exact compareRows_congr rfl rfl

/-! ### ROLL (rule R111) -/

theorem exec_roll (d a : RReg) (x : Fin 4) (s : State) :
    exec (.roll d a x) s = .next (s.writeR d (rollOutward (s.readR a) x.val)).complete := rfl

theorem byteLane_rollOutward_lo (r : PairedRow) (x k : Nat) (hk : k < 16) :
    byteLane (rollOutward r x).lo k =
      if k < 15 then byteLane r.lo (k + 1) else byteLane r.hi (8 + 2 * x) :=
  byteLane_ofBytes _ k hk

theorem byteLane_rollOutward_hi (r : PairedRow) (x k : Nat) (hk : k < 16) :
    byteLane (rollOutward r x).hi k =
      if k = 0 then byteLane r.lo (7 - 2 * x) else byteLane r.hi (k - 1) :=
  byteLane_ofBytes _ k hk

/-- Settles O13: the moved lanes and the two injected ones are the branches of the two lane equations. -/
theorem rollMovesBothHalvesOutward : Obligations.RollMovesBothHalvesOutward := by
  unfold Obligations.RollMovesBothHalvesOutward
  intro s d a x _
  refine ⟨decode_of_digits (by simp [Instr.fields]), _, exec_roll d a x s, fun k hk => ?_, ?_,
    fun k hpos hk => ?_, ?_, writeR_complete_frame s d _⟩
  all_goals rw [State.readR_complete, State.readR_writeR_self]
  · rw [byteLane_rollOutward_lo _ _ k (by omega), if_pos hk]
  · rw [byteLane_rollOutward_lo _ _ 15 (by decide), if_neg (by decide)]
  · rw [byteLane_rollOutward_hi _ _ k hk, if_neg (by omega)]
  · rw [byteLane_rollOutward_hi _ _ 0 (by decide), if_pos rfl]

/-! ### The window law (rule R112) -/

/-- Addresses of an access that starts `j` bytes further on. -/
theorem byteAddr_add (a : Word) (j k : Nat) :
    byteAddr (a + BitVec.ofNat 32 j) k = byteAddr a (j + k) := by
  rw [byteAddr, byteAddr, BitVec.add_assoc, ← BitVec.ofNat_add]

/-- Two reads eight bytes apart hold the row in memory at offset 0. -/
theorem holdsRow_read16 (s : State) (a : Word) :
    HoldsRow (fun k => s.mem.read (byteAddr a k)) 0 0 ⟨s.read16 a, s.read16 (a + 8)⟩ := by
  intro k hk
  have hfar : byteAddr (a + 8) k = byteAddr a (8 + k) := byteAddr_add a 8 k
  constructor
  · simp only [State.byteLane_read16 _ _ _ hk, Nat.zero_add]
  · simp only [State.byteLane_read16 _ _ _ hk, hfar, Nat.zero_add, Nat.sub_zero]

/-- A roll at offset `x < 4` shrinks the window by one on each side: the lanes it injects continue the row. -/
theorem holdsRow_rollOutward {row : Nat → Byte} {c x : Nat} {r : PairedRow} (h : HoldsRow row c x r)
    (hx : x < 4) : HoldsRow row c (x + 1) (rollOutward r x) := by
  intro k hk
  constructor
  · rw [byteLane_rollOutward_lo r x k hk]
    split
    · obtain ⟨hlo, -⟩ := h (k + 1) (by omega)
      rw [hlo]; congr 1; omega
    · obtain ⟨-, hhi⟩ := h (8 + 2 * x) (by omega)
      rw [hhi]; congr 1; omega
  · rw [byteLane_rollOutward_hi r x k hk]
    split
    · obtain ⟨hlo, -⟩ := h (7 - 2 * x) (by omega)
      rw [hlo]; congr 1; omega
    · obtain ⟨-, hhi⟩ := h (k - 1) (by omega)
      rw [hhi]; congr 1; omega

/-- At offset 4 both halves hold the same sixteen bytes of the row. -/
theorem HoldsRow.halves_eq {row : Nat → Byte} {c : Nat} {r : PairedRow} (h : HoldsRow row c 4 r) :
    r.lo = r.hi := by
  refine vec_ext_bytes fun k hk => ?_
  obtain ⟨hlo, hhi⟩ := h k hk
  rw [hlo, hhi]
  congr 1

theorem getLsbD_compareRows_of_holdsRow {rowA rowB : Nat → Byte} {c x : Nat} {a b : PairedRow}
    (ha : HoldsRow rowA c x a) (hb : HoldsRow rowB c x b) (hx : x ≤ 4) {i : Nat} (hi : i < 16) :
    (compareRows a b).getLsbD i =
      decide ((rowA (c + i + x)).toNat < (rowB (c + i + (8 - x))).toNat) := by
  obtain ⟨hlo, -⟩ := ha i hi
  obtain ⟨-, hhi⟩ := hb i hi
  rw [getLsbD_compareRows _ _ i hi, hlo, hhi, Nat.add_right_comm c x i,
    show c + 8 - x + i = c + i + (8 - x) by omega]

/-- Settles O14: one lemma about `HoldsRow` for each of the four clauses. -/
theorem rollWindowLawHolds : Obligations.RollWindowLawHolds := by
  unfold Obligations.RollWindowLawHolds
  refine ⟨fun s d a p _ hpitch hnear hfar => ?_, fun s d a x row c _ h => ?_, fun r row c h => ?_,
    fun s d a b x c rowA rowB _ hx ha hb => ?_⟩
  · refine ⟨_, exec_ldpr_of_valid d hnear hfar, ?_⟩
    rw [State.readR_complete, State.readR_writeR_self, hpitch]
    exact holdsRow_read16 s (s.readS a)
  · refine ⟨_, exec_roll d a x s, ?_⟩
    rw [State.readR_complete, State.readR_writeR_self]
    exact holdsRow_rollOutward h x.isLt
  · exact ⟨h.halves_eq, fun k hk => (h k hk).left⟩
  · refine ⟨_, exec_cmppr d a b s, fun i hi => ?_⟩
    rw [State.readP_complete, State.readP_writeP_self]
    exact getLsbD_compareRows_of_holdsRow ha hb hx hi

/-! ### ZIP (rule R114) -/

/-- The effect of ZIP on the vector file. -/
def State.zipGroup (s : State) (g : Group) : State :=
  s.writeAllV fun i => if inGroup g i then s.zipped g (i.val % 4) else s.readV i

theorem exec_zip (g : Group) (s : State) : exec (.zip g) s = .next (s.zipGroup g).complete := rfl

theorem State.readV_zipGroup_groupReg (s : State) (g : Group) (k : Nat) (hk : k < 4) :
    (s.zipGroup g).readV (groupReg g k) = s.zipped g k := by
  have hindex : (4 * g.val + k) % 4 = k := by omega
  rw [State.zipGroup, State.readV_writeAllV, if_pos (inGroup_groupReg g k hk), groupReg_val g k hk, hindex]

@[simp] theorem State.groupLane_complete (s : State) (g : Group) (i : Nat) :
    s.complete.groupLane g i = s.groupLane g i := rfl

theorem zipGroup_complete_frame (s : State) (g : Group) :
    let t := (s.zipGroup g).complete
    (∀ i, inGroup g i = false → t.readV i = s.readV i) ∧
      KeepsR s t ∧ KeepsP s t ∧ KeepsS s t ∧ KeepsMem s t ∧ CompletesQuietly s t := by
  simp +contextual [State.zipGroup, KeepsR, KeepsP, KeepsS, KeepsMem, CompletesQuietly, KeepsErrors,
    KeepsOutside]

/-- The transposition in the byte view: byte `4c + m` of register `k` is byte `4k + c` of old register `m`. -/
theorem State.byteLane_zipGroup (s : State) (g : Group) {k c m : Nat} (hk : k < 4) (hc : c < 4)
    (hm : m < 4) : byteLane ((s.zipGroup g).readV (groupReg g k)) (4 * c + m) =
      byteLane (s.readV (groupReg g m)) (4 * k + c) := by
  have hmod : (4 * c + m) % 4 = m := by omega
  have hdiv : (4 * c + m) / 4 = c := by omega
  rw [s.readV_zipGroup_groupReg g k hk, State.zipped, byteLane_ofBytes _ _ (by omega), hmod, hdiv]

/-- The transposition in the word view: descriptor `i` is byte `i mod 4` of register `i div 4`'s words. -/
theorem State.wordByte_groupLane_zipGroup (s : State) (g : Group) {i m : Nat} (hi : i < 16) (hm : m < 4) :
    wordByte ((s.zipGroup g).groupLane g i) m = byteLane (s.readV (groupReg g m)) i := by
  have hk : i / 4 < 4 := by omega
  have hc : i % 4 < 4 := by omega
  rw [State.groupLane, wordByte_wordLane _ _ _ hm, s.byteLane_zipGroup g hk hc hm, Nat.div_add_mod]

/-- Settles O15, in the word view and in the byte view. -/
theorem zipTransposesTheGroup : Obligations.ZipTransposesTheGroup := by
  unfold Obligations.ZipTransposesTheGroup
  intro s g _
  refine ⟨decode_of_digits (by simp [Instr.fields]), _, exec_zip g s, fun i hi m hm => ?_,
    fun k hk c hc m hm => ?_, zipGroup_complete_frame s g⟩
  · rw [State.groupLane_complete, s.wordByte_groupLane_zipGroup g hi hm]
  · rw [State.readV_complete, s.byteLane_zipGroup g hk hc hm]

end Sys2Proof.Machine

/-! PROOFS. The aggregation lane operations PCXOR and SHUP: one command each, the rotation that any number of
SHUPs makes, and the laws of the sweep that follow from it. -/

namespace Sys2Proof.Machine

/-! ### PCXOR (rule R131) -/

theorem exec_pcxor (d : VReg) (gl : Group) (gr : DoubleGroup) (off : Fin 32) (s : State) :
    exec (.pcxor d gl gr off) s = .next (s.writeV d (s.xorCounts gl gr off.val)).complete := rfl

/-- Format X keeps an offset in two fields: its top bit and its low four bits (rule R71). -/
theorem offset_of_nibbles (off : Fin 32) :
    (nibble (off.val / 16)).toNat * 16 + (nibble off.val).toNat = off.val := by
  rw [nibble_toNat (by omega), nibble, BitVec.toNat_ofNat]
  omega

theorem State.toNat_byteLane_xorCounts (s : State) (gl : Group) (gr : DoubleGroup) (off : Nat) {i : Nat}
    (hi : i < 16) : (byteLane (s.xorCounts gl gr off) i).toNat =
      popcount32 (s.groupLane gl i ^^^ s.doubleLane gr ((i + off) % 32)) := by
  rw [State.xorCounts, byteLane_ofBytes _ i hi, toNat_popcount_byte]

/-- Settles O16: the counts are taken from the registers before the one write, so `V[d]` may be a source. -/
theorem pcxorCountsSixteenLanes : Obligations.PcxorCountsSixteenLanes := by
  unfold Obligations.PcxorCountsSixteenLanes
  intro s d gl gr off _
  refine ⟨decode_of_digits (by simp [Instr.fields, Nat.add_assoc, offset_of_nibbles]), _,
    exec_pcxor d gl gr off s, fun i hi => ?_, writeV_complete_frame s d _⟩
  rw [State.readV_complete, State.readV_writeV_self, s.toNat_byteLane_xorCounts gl gr _ hi]

/-! ### SHUP (rule R133) -/

theorem exec_shup (gr : DoubleGroup) (s : State) :
    exec (.shup gr) s = .next (s.rotateUp gr 1).complete := rfl

/-- The register view of a double lane group: lane `4k + c` is word `c` of its register `k` (rule R12). -/
theorem State.doubleLane_mul_add (s : State) (h : DoubleGroup) (k : Nat) {c : Nat} (hc : c < 4) :
    s.doubleLane h (4 * k + c) = wordLane (s.readV (doubleReg h k)) c := by
  have hdiv : (4 * k + c) / 4 = k := by omega
  have hmod : (4 * k + c) % 4 = c := by omega
  rw [State.doubleLane, hdiv, hmod]

@[simp] theorem State.doubleLane_complete (s : State) (h : DoubleGroup) (j : Nat) :
    s.complete.doubleLane h j = s.doubleLane h j := rfl

theorem rotateUp_complete_frame (s : State) (h : DoubleGroup) (k : Nat) :
    let t := (s.rotateUp h k).complete
    (∀ i, inDouble h i = false → t.readV i = s.readV i) ∧
      KeepsR s t ∧ KeepsP s t ∧ KeepsS s t ∧ KeepsMem s t ∧ CompletesQuietly s t := by
  refine ⟨fun i hi => ?_, ?_⟩
  · rw [State.readV_complete, s.readV_rotateUp_of_not h k i hi]
  · simp [KeepsR, KeepsP, KeepsS, KeepsMem, CompletesQuietly, KeepsErrors, KeepsOutside]

/-- The vector file of `t` is that of `s` with the ring `H(gr)` turned up by `n` lanes. -/
structure RotatedBy (gr : DoubleGroup) (n : Nat) (s t : State) : Prop where
  lane : ∀ j < 32, t.doubleLane gr ((j + n) % 32) = s.doubleLane gr j
  outside : ∀ i, inDouble gr i = false → t.readV i = s.readV i

theorem rotatedBy_shup (gr : DoubleGroup) (s : State) : RotatedBy gr 1 s (s.rotateUp gr 1).complete where
  lane j hj := by
    rw [State.doubleLane_complete, s.doubleLane_rotateUp gr 1 (by decide) _ (Nat.mod_lt _ (by decide)),
      show ((j + 1) % 32 + 32 - 1) % 32 = j by omega]
  outside i hi := by rw [State.readV_complete, s.readV_rotateUp_of_not gr 1 i hi]

/-- Settles O17: the register view is the lane law read at lanes `4k + c` and `4k`. -/
theorem shupRotatesTheRing : Obligations.ShupRotatesTheRing := by
  unfold Obligations.ShupRotatesTheRing
  intro s gr _
  have hrot := rotatedBy_shup gr s
  refine ⟨decode_of_digits (by simp [Instr.fields]), _, exec_shup gr s, hrot.lane, fun k hk =>
    ⟨fun c hpos hc => ?_, ?_⟩, rotateUp_complete_frame s gr 1⟩
  · have hlane := hrot.lane (4 * k + (c - 1)) (by omega)
    rwa [show (4 * k + (c - 1) + 1) % 32 = 4 * k + c by omega, State.doubleLane_mul_add _ _ _ hc,
      State.doubleLane_mul_add _ _ _ (by omega)] at hlane
  · have hlane := hrot.lane (4 * ((k + 7) % 8) + 3) (by omega)
    rwa [show (4 * ((k + 7) % 8) + 3 + 1) % 32 = 4 * k + 0 by omega,
      State.doubleLane_mul_add _ _ _ (by decide), State.doubleLane_mul_add _ _ _ (by decide)] at hlane

/-! ### Several SHUPs (rule R135) -/

theorem RotatedBy.refl (gr : DoubleGroup) (s : State) : RotatedBy gr 0 s s where
  lane j hj := by rw [Nat.add_zero, Nat.mod_eq_of_lt hj]
  outside _ _ := rfl

theorem RotatedBy.trans {gr : DoubleGroup} {m n : Nat} {s t u : State} (hst : RotatedBy gr m s t)
    (htu : RotatedBy gr n t u) : RotatedBy gr (m + n) s u where
  lane j hj := by
    rw [← hst.lane j hj, ← htu.lane _ (Nat.mod_lt _ (by decide)), Nat.mod_add_mod, Nat.add_assoc]
  outside i hi := (htu.outside i hi).trans (hst.outside i hi)

theorem execSeq_replicate_shup (gr : DoubleGroup) (n : Nat) (s : State) :
    ∃ t, execSeq (List.replicate n (.shup gr)) s = .next t ∧ RotatedBy gr n s t := by
  induction n generalizing s with
  | zero => exact ⟨s, rfl, .refl gr s⟩
  | succ n ih =>
    obtain ⟨t, hrun, hrot⟩ := ih (s.rotateUp gr 1).complete
    refine ⟨t, hrun, ?_⟩
    rw [Nat.add_comm]
    exact (rotatedBy_shup gr s).trans hrot

theorem execSeq_append {is js : List Instr} {s t : State} (h : execSeq is s = .next t) :
    execSeq (is ++ js) s = execSeq js t := by
  induction is generalizing s with
  | nil => cases h; rfl
  | cons i is ih =>
    simp only [execSeq, List.cons_append] at h ⊢
    cases hi : exec i s with
    | next u => rw [hi] at h; exact ih h
    | fault | refused => rw [hi] at h; cases h

theorem execSeq_concat {is : List Instr} {i : Instr} {s t u : State} (h : execSeq is s = .next t)
    (hi : exec i t = .next u) : execSeq (is ++ [i]) s = .next u := by
  rw [execSeq_append h]
  simp only [execSeq, hi]

/-! ### PCXOR on a turned ring (rules R135, R136) -/

theorem RotatedBy.groupLane {gl : Group} {gr : DoubleGroup} {n : Nat} {s t : State}
    (hrot : RotatedBy gr n s t) (hapart : GroupApart gl gr) {i : Nat} (hi : i < 16) :
    t.groupLane gl i = s.groupLane gl i := by
  have hout : inDouble gr (groupReg gl (i / 4)) = false := by
    rw [inDouble_groupReg gr gl _ (by omega), decide_eq_false hapart]
  rw [State.groupLane, hrot.outside _ hout, State.groupLane]

/-- A turn of the ring is a shift of the offset: lane `i + off` of the turned ring came from `i + off'`. -/
theorem RotatedBy.xorCounts {gl : Group} {gr : DoubleGroup} {n : Nat} {s t : State}
    (hrot : RotatedBy gr n s t) (hapart : GroupApart gl gr) {off off' : Nat}
    (hoff : off % 32 = (off' + n) % 32) : t.xorCounts gl gr off = s.xorCounts gl gr off' := by
  refine vec_ext_bytes fun i hi => BitVec.eq_of_toNat_eq ?_
  have hlane := hrot.lane ((i + off') % 32) (Nat.mod_lt _ (by decide))
  rw [show ((i + off') % 32 + n) % 32 = (i + off) % 32 by omega] at hlane
  rw [t.toNat_byteLane_xorCounts gl gr off hi, s.toNat_byteLane_xorCounts gl gr off' hi,
    hrot.groupLane hapart hi, hlane]

/-- Settles O18: one SHUP and `n` SHUPs are turns of the ring, and PCXOR reads a turned ring at a shifted
offset. -/
theorem shupShiftsThePcxorOffset : Obligations.ShupShiftsThePcxorOffset := by
  unfold Obligations.ShupShiftsThePcxorOffset
  refine ⟨fun s d gl gr off _ hapart => ?_, fun n s gr _ => ?_⟩
  · refine ⟨_, _, _, exec_shup gr s, exec_pcxor d gl gr off _, exec_pcxor d gl gr _ s, ?_⟩
    rw [State.readV_complete, State.readV_writeV_self, State.readV_complete, State.readV_writeV_self]
    refine (rotatedBy_shup gr s).xorCounts hapart ?_
    rw [Fin.val_ofNat]
    omega
  · obtain ⟨t, hrun, hrot⟩ := execSeq_replicate_shup gr n s
    exact ⟨t, hrun, hrot.lane⟩

theorem execSeq_shups_pcxor {gl : Group} {gr : DoubleGroup} (hapart : GroupApart gl gr) (d : VReg)
    (s : State) {n q : Nat} (hn : n < 4) (hq : 1 ≤ q) (hq4 : q ≤ 4) :
    ∃ t, execSeq (List.replicate n (.shup gr) ++ [.pcxor d gl gr (Fin.ofNat 32 (4 * q))]) s = .next t ∧
      t.readV d = s.xorCounts gl gr (4 * q - n) := by
  obtain ⟨t, hrun, hrot⟩ := execSeq_replicate_shup gr n s
  refine ⟨_, execSeq_concat hrun (exec_pcxor d gl gr _ t), ?_⟩
  rw [State.readV_complete, State.readV_writeV_self]
  refine hrot.xorCounts hapart ?_
  rw [Fin.val_ofNat]
  omega

/-- Settles O19: the sweep's PCXOR is one at offset `4q - n` before the SHUPs, and its lanes stay below 32, so
they are the lanes of the cost patch row. -/
theorem sweepRowIsTheCostPatchRow : Obligations.SweepRowIsTheCostPatchRow := by
  unfold Obligations.SweepRowIsTheCostPatchRow
  intro s d gl gr n q _ hapart hn hq hq4
  obtain ⟨t, hrun, hrow⟩ := execSeq_shups_pcxor hapart d s hn hq hq4
  refine ⟨t, hrun, fun px hpx => ?_⟩
  have hcount : (byteLane (t.readV d) px).toNat =
      popcount32 (s.groupLane gl px ^^^ s.doubleLane gr (px + 4 * q - n)) := by
    rw [hrow, s.toNat_byteLane_xorCounts gl gr _ hpx,
      show (px + (4 * q - n)) % 32 = px + 4 * q - n by omega]
  refine ⟨hcount, BitVec.eq_of_toNat_eq ?_⟩
  rw [hcount, State.toNat_cost_unmasked, show px + 16 - (16 - 4 * q + n) = px + 4 * q - n by omega]

end Sys2Proof.Machine

/-! PROOFS. The support commands: SETLO, SETHI, VCLR, CLRST write one register or one status bit; LDV loads one
row, or nothing at all. -/

namespace Sys2Proof.Machine

/-! ### SETLO and SETHI (rules R140, R141) -/

/-- The word of a command with a 16-bit constant: the constant's four digits are fields F3 to F6 (rule R71). -/
theorem decode_of_immediate {i : Instr} {op : BitVec 8} {d : SReg} {imm16 : BitVec 16}
    (h : i.fields = ⟨op, nibble d.val, 0, imm16.extractLsb' 12 4, imm16.extractLsb' 8 4,
      imm16.extractLsb' 4 4, imm16.extractLsb' 0 4⟩) :
    decode (BitVec.ofNat 32 (op.toNat * 2 ^ 24 + d.val * 2 ^ 20 + imm16.toNat)) = some i := by
  refine decode_of_digits ?_
  simp only [h, ← imm_digits imm16, nibble_toNat_of_fin d (by decide), show (0 : BitVec 4).toNat = 0 from rfl]
  omega

theorem writeS_complete_frame (s : State) (d : SReg) (x : Word) :
    let t := (s.writeS d x).complete
    (∀ i, i ≠ d → t.readS i = s.readS i) ∧
      KeepsV s t ∧ KeepsR s t ∧ KeepsP s t ∧ KeepsMem s t ∧ CompletesQuietly s t :=
  ⟨fun i => s.readS_writeS_of_ne d i x, fun _ => rfl, fun _ => rfl, fun _ => rfl, fun _ => rfl,
    rfl, ⟨rfl, rfl⟩, ⟨rfl, rfl⟩, rfl⟩

/-- Two halves side by side are a sum: the high one 16 bits up. -/
theorem toNat_append_low_half (hi : BitVec 16) (w : Word) :
    (hi ++ w.extractLsb' 0 16).toNat = hi.toNat * 2 ^ 16 + w.toNat % 2 ^ 16 := by
  have hlow : (w.extractLsb' 0 16).toNat = w.toNat % 2 ^ 16 := by
    rw [← cut_toNat, Nat.pow_zero, Nat.div_one]
  rw [BitVec.toNat_append, ← Nat.shiftLeft_add_eq_or_of_lt (BitVec.isLt _), Nat.shiftLeft_eq, hlow]

/-- Settles O1: widening the constant keeps its number. -/
theorem setloWritesZeroExtendedImmediate : Obligations.SetloWritesZeroExtendedImmediate := by
  unfold Obligations.SetloWritesZeroExtendedImmediate
  intro s d imm16 _
  refine ⟨decode_of_immediate (op := 1) rfl, _, exec_setlo d imm16 s, ?_, writeS_complete_frame s d _⟩
  rw [State.readS_complete, State.readS_writeS_self, BitVec.toNat_setWidth_of_le (by decide)]

/-- Settles O2: the old low half stands below the constant. -/
theorem sethiReplacesHighHalf : Obligations.SethiReplacesHighHalf := by
  unfold Obligations.SethiReplacesHighHalf
  intro s d imm16 _
  refine ⟨decode_of_immediate (op := 2) rfl, _, exec_sethi d imm16 s, ?_, writeS_complete_frame s d _⟩
  rw [State.readS_complete, State.readS_writeS_self, toNat_append_low_half]

/-! ### VCLR (rule R142) -/

theorem exec_vclr (d : VReg) (s : State) : exec (.vclr d) s = .next (s.writeV d 0).complete := rfl

theorem byteLane_zero (k : Nat) : byteLane 0 k = 0 := BitVec.extractLsb'_zero

/-- Settles O3: each lane of a zero register is zero. -/
theorem vclrZeroesOneVector : Obligations.VclrZeroesOneVector := by
  unfold Obligations.VclrZeroesOneVector
  intro s d _
  have hzero : (s.writeV d 0).complete.readV d = 0 := by simp
  refine ⟨decode_of_digits (by simp [Instr.fields]), _, exec_vclr d s, hzero, fun k _ => ?_,
    writeV_complete_frame s d 0⟩
  rw [hzero, byteLane_zero]

/-! ### CLRST (rule R144) -/

theorem exec_clrst (s : State) : exec .clrst s = .next s.clearTooSmall.complete := rfl

theorem clearTooSmall_complete_frame (s : State) :
    let t := s.clearTooSmall.complete
    KeepsErrors s t ∧ KeepsRegisters s t ∧ KeepsMem s t ∧ KeepsOutside s t ∧ t.cmdCnt = s.cmdCnt + 1 :=
  ⟨⟨rfl, rfl⟩, ⟨fun _ => rfl, fun _ => rfl, fun _ => rfl, fun _ => rfl⟩, fun _ => rfl, ⟨rfl, rfl⟩, rfl⟩

/-- Settles O4: of `STATUS` the one bit TS is written. -/
theorem clrstClearsOnlyTooSmall : Obligations.ClrstClearsOnlyTooSmall := by
  unfold Obligations.ClrstClearsOnlyTooSmall
  intro s _
  exact ⟨decode_encode .clrst, _, exec_clrst s, rfl, rfl, rfl, clearTooSmall_complete_frame s⟩

/-! ### LDV (rule R143) -/

theorem ldv_footprint_valid_iff {s : State} {d : VReg} {a p : SReg} {n : Fin 16} :
    (∀ x ∈ footprintOf (.ldv d a p n) s, s.memValid x = true) ↔ Valid16 s (s.rowAddr a p n.val) :=
  valid16_iff.symm

theorem exec_ldv_of_valid {s : State} (d : VReg) {a p : SReg} {n : Fin 16}
    (hvalid : Valid16 s (s.rowAddr a p n.val)) :
    exec (.ldv d a p n) s = .next (s.writeV d (s.read16 (s.rowAddr a p n.val))).complete :=
  exec_of_valid (ldv_footprint_valid_iff.mpr hvalid)

/-- Settles O7: the one read at the row address goes to one register; an invalid address makes the command
fail, which is precise. -/
theorem ldvLoadsOneRow : Obligations.LdvLoadsOneRow := by
  unfold Obligations.LdvLoadsOneRow
  intro s d a p n hrun
  refine ⟨decode_of_digits (by simp [Instr.fields]), fun hvalid => ?_, fun hbad => ?_⟩
  · refine ⟨_, exec_ldv_of_valid d hvalid, fun k hk => ?_, writeV_complete_frame s d _⟩
    rw [State.readV_complete, State.readV_writeV_self, State.byteLane_read16 _ _ _ hk, State.rowAddr]
  · exact exec_precise_of_invalid (i := .ldv d a p n) rfl hrun (mt ldv_footprint_valid_iff.mp hbad)

end Sys2Proof.Machine

/-! PROOFS. The two engines' encodings, the census descriptor bit by bit, and the tiled walk of EXTRACT: which
coordinates it evaluates. -/

namespace Sys2Proof.Machine

/-! ### The encodings of the two engines (rules R152, R171) -/

theorem toNat_nibble_flag (e : Bool) : (nibble e.toNat).toNat = e.toNat :=
  nibble_toNat (e.toNat_lt.trans (by decide))

/-- Settles O21, digit by digit of each word. -/
theorem aggrEncodingIsRead : Obligations.AggrEncodingIsRead := by
  unfold Obligations.AggrEncodingIsRead
  exact ⟨fun d p gl gr e => decode_of_digits (by simp [Instr.fields, toNat_nibble_flag]),
    fun src w h sp dst dp => decode_of_digits (by simp [Instr.fields])⟩

/-! ### The bits of a descriptor (rule R151) -/

theorem getLsbD_census (pix : Nat → Nat → Byte) (px py : Nat) {i : Nat} (hi : i < 32) :
    (census pix px py).getLsbD i = censusBit (fun c r => pix (px + c) (py + r)) i :=
  getLsbD_ofBits 32 _ i hi

/-- The seven low bits of byte `dx` compare column `dx` with column `8 - dx`. -/
theorem censusBit_column (patch : Nat → Nat → Byte) (dx : Nat) {pos : Nat} (hpos : pos < 7) :
    censusBit patch (8 * dx + pos) =
      ltu8 (patch dx (rowOrder.getD pos 0)) (patch (8 - dx) (6 - rowOrder.getD pos 0)) := by
  have hdiv : (8 * dx + pos) / 8 = dx := by omega
  have hmod : (8 * dx + pos) % 8 = pos := by omega
  simp only [censusBit, hdiv, hmod, if_pos hpos]

/-- The top bit of each of the three low bytes compares two pixels of the centre column. -/
theorem censusBit_centre (patch : Nat → Nat → Byte) {dx : Nat} (hdx : dx < 3) :
    censusBit patch (8 * dx + 7) =
      ltu8 (patch 4 (centreRows.getD dx 0)) (patch 4 (6 - centreRows.getD dx 0)) := by
  have hdiv : (8 * dx + 7) / 8 = dx := by omega
  have hmod : (8 * dx + 7) % 8 = 7 := by omega
  simp only [censusBit, hdiv, hmod, if_pos hdx, Nat.lt_irrefl, if_false]

theorem censusBit_top (patch : Nat → Nat → Byte) : censusBit patch 31 = false := rfl

/-- Settles O26: the bits of each byte are those of its column pair, then one of the centre column. -/
theorem censusFollowsTheBitLayout : Obligations.CensusFollowsTheBitLayout := by
  unfold Obligations.CensusFollowsTheBitLayout
  intro pix px py
  refine ⟨fun dx hdx o => ?_, ?_, ?_, ?_, ?_⟩
  · have hrow : rowOrder.getD o.val 0 = [0, 2, 4, 6, 1, 3, 5][o] := List.getD_eq_getElem _ _ o.isLt
    rw [getLsbD_census pix px py (by omega), censusBit_column _ dx o.isLt, hrow, ltu8_eq]
  · rw [getLsbD_census pix px py (by decide)]
    exact censusBit_centre _ (dx := 0) (by decide)
  · rw [getLsbD_census pix px py (by decide)]
    exact censusBit_centre _ (dx := 1) (by decide)
  · rw [getLsbD_census pix px py (by decide)]
    exact censusBit_centre _ (dx := 2) (by decide)
  · rw [getLsbD_census pix px py (by decide), censusBit_top]

theorem rowOrder_lt : ∀ pos < 7, rowOrder.getD pos 0 < 7 := by decide

theorem centreRows_lt : ∀ dx < 3, centreRows.getD dx 0 < 7 := by decide

/-- A descriptor depends on the 9 by 7 pixels of its patch alone (rule R150). -/
theorem censusBit_congr {p q : Nat → Nat → Byte} (h : ∀ c < 9, ∀ r < 7, p c r = q c r) {i : Nat}
    (hi : i < 32) : censusBit p i = censusBit q i := by
  obtain ⟨dx, pos, hdx, hpos, rfl⟩ : ∃ dx pos, dx < 4 ∧ pos < 8 ∧ i = 8 * dx + pos :=
    ⟨i / 8, i % 8, by omega, by omega, by omega⟩
  rcases Nat.lt_succ_iff_lt_or_eq.mp hpos with hcolumn | rfl
  · have hrow := rowOrder_lt pos hcolumn
    rw [censusBit_column p dx hcolumn, censusBit_column q dx hcolumn, h dx (by omega) _ hrow,
      h (8 - dx) (by omega) _ (by omega)]
  · rcases Nat.lt_succ_iff_lt_or_eq.mp hdx with hcentre | rfl
    · have hrow := centreRows_lt dx hcentre
      rw [censusBit_centre p hcentre, censusBit_centre q hcentre, h 4 (by decide) _ hrow,
        h 4 (by decide) _ (by omega)]
    · rfl

theorem census_congr {p q : Nat → Nat → Byte} {px py : Nat}
    (h : ∀ c < 9, ∀ r < 7, p (px + c) (py + r) = q (px + c) (py + r)) :
    census p px py = census q px py := by
  refine BitVec.eq_of_getLsbD_eq fun i hi => ?_
  rw [getLsbD_census p px py hi, getLsbD_census q px py hi, censusBit_congr h hi]

/-! ### The tiler along one axis (rule R156) -/

theorem mem_stepsFrom {lo hi step x : Nat} (hstep : 0 < step) :
    x ∈ stepsFrom lo hi step ↔ x < hi ∧ ∃ k, lo + k * step = x := by
  have hcount (k : Nat) : k < (hi - lo + (step - 1)) / step ↔ lo + k * step < hi := by
    rw [← Nat.succ_le_iff, Nat.le_div_iff_mul_le hstep, Nat.succ_mul]
    omega
  simp only [stepsFrom, List.mem_map, List.mem_range, hcount]
  constructor
  · rintro ⟨k, hk, rfl⟩
    exact ⟨hk, k, rfl⟩
  · rintro ⟨hx, k, rfl⟩
    exact ⟨k, hx, rfl⟩

/-- The steps of all tiles are the multiples of the step below the end: tiles of whole steps change their
order only (rule R159). -/
theorem mem_tiled_steps {hi block step x : Nat} (hstep : 0 < step) (hblock : 0 < block)
    (hdvd : step ∣ block) :
    (∃ t ∈ stepsFrom 0 hi block, x ∈ stepsFrom t (min (t + block) hi) step) ↔ step ∣ x ∧ x < hi := by
  simp only [mem_stepsFrom hstep, mem_stepsFrom hblock, Nat.zero_add]
  constructor
  · rintro ⟨_, ⟨-, k, rfl⟩, hx, n, rfl⟩
    exact ⟨Nat.dvd_add (hdvd.mul_left k) (Nat.dvd_mul_left step n), by omega⟩
  · rintro ⟨hx, hlt⟩
    have htile : x / block * block ≤ x := Nat.div_mul_le_self x block
    have hin : x < x / block * block + block := Nat.lt_div_mul_add hblock
    obtain ⟨n, hn⟩ := Nat.dvd_sub hx (hdvd.mul_left (x / block))
    rw [Nat.mul_comm step n] at hn
    exact ⟨x / block * block, ⟨by omega, x / block, rfl⟩, by omega, n, by omega⟩

/-- The steps of one axis, the last one shifted back, meet every coordinate below the end and no other. -/
theorem exists_backShifted_step {hi step x : Nat} (hstep : 0 < step) (hfit : step ≤ hi) :
    (∃ s, (step ∣ s ∧ s < hi) ∧ ∃ i < step, min s (hi - step) + i = x) ↔ x < hi := by
  constructor
  · rintro ⟨s, -, i, hlt, rfl⟩
    omega
  · intro hx
    have hle : x / step * step ≤ x := Nat.div_mul_le_self x step
    have hlt : x < x / step * step + step := Nat.lt_div_mul_add hstep
    exact ⟨x / step * step, ⟨Nat.dvd_mul_left step _, by omega⟩,
      x - min (x / step * step) (hi - step), by omega, by omega⟩

/-! ### The walk (rules R156, R157, R159) -/

/-- The clauses of rule R9 the tiler rests on: on each axis a tile is made of whole steps. -/
theorem whole_steps_of_valid {p : Params} (h : p.valid = true) :
    (0 < p.hStep ∧ 0 < p.hBlock ∧ p.hStep ∣ p.hBlock) ∧
      (0 < p.vStep ∧ 0 < p.vBlock ∧ p.vStep ∣ p.vBlock) := by
  simp only [Params.valid, Bool.and_eq_true, beq_iff_eq, decide_eq_true_eq] at h
  obtain ⟨⟨⟨⟨⟨⟨⟨⟨⟨-, -⟩, -, hv⟩, hvPatch⟩, -⟩, hhPatch⟩, hhBlock⟩, hvBlock⟩, hhmod⟩, hvmod⟩ := h
  have hdvd : p.hStep ∣ p.hBlock := Nat.dvd_of_mod_eq_zero hhmod
  have hpos : 0 < p.hBlock := by omega
  exact ⟨⟨Nat.pos_of_dvd_of_pos hdvd hpos, hpos, hdvd⟩, by omega, by omega,
    Nat.dvd_of_mod_eq_zero hvmod⟩

/-- The step origins are the multiples of the steps inside the output, shifted back to fit; the tiles have no
part in it. -/
theorem mem_stepOrigins {p : Params} (hp : p.valid = true) {wOut hOut : Nat} {o : Nat × Nat} :
    o ∈ stepOrigins p wOut hOut ↔ ∃ sx sy, (p.hStep ∣ sx ∧ sx < wOut) ∧ (p.vStep ∣ sy ∧ sy < hOut) ∧
      (min sx (wOut - p.hStep), min sy (hOut - p.vStep)) = o := by
  obtain ⟨⟨hh, hhBlock, hhDvd⟩, hv, hvBlock, hvDvd⟩ := whole_steps_of_valid hp
  simp only [stepOrigins, List.mem_flatMap, List.mem_map]
  constructor
  · rintro ⟨ty, hty, tx, htx, sy, hsy, sx, hsx, ho⟩
    exact ⟨sx, sy, (mem_tiled_steps hh hhBlock hhDvd).mp ⟨tx, htx, hsx⟩,
      (mem_tiled_steps hv hvBlock hvDvd).mp ⟨ty, hty, hsy⟩, ho⟩
  · rintro ⟨sx, sy, hsx, hsy, ho⟩
    obtain ⟨tx, htx, hx⟩ := (mem_tiled_steps hh hhBlock hhDvd).mpr hsx
    obtain ⟨ty, hty, hy⟩ := (mem_tiled_steps hv hvBlock hvDvd).mpr hsy
    exact ⟨ty, hty, tx, htx, sy, hy, sx, hx, ho⟩

theorem mem_stepOutputs {p : Params} {o : Nat × Nat} {x y : Nat} :
    (x, y) ∈ stepOutputs p o ↔ (∃ i < p.hStep, o.1 + i = x) ∧ ∃ k < p.vStep, o.2 + k = y := by
  simp only [stepOutputs, List.mem_flatMap, List.mem_map, List.mem_range, Prod.mk.injEq]
  constructor
  · rintro ⟨k, hk, i, hi, hx, hy⟩
    exact ⟨⟨i, hi, hx⟩, k, hk, hy⟩
  · rintro ⟨⟨i, hi, hx⟩, k, hk, hy⟩
    exact ⟨k, hk, i, hi, hx, hy⟩

/-- The walk is a product of its two axes, and each axis is covered. -/
theorem mem_walk {p : Params} (hp : p.valid = true) {wOut hOut x y : Nat} (hw : p.hStep ≤ wOut)
    (hh : p.vStep ≤ hOut) : (x, y) ∈ walk p wOut hOut ↔ x < wOut ∧ y < hOut := by
  obtain ⟨⟨hpos, -⟩, vpos, -⟩ := whole_steps_of_valid hp
  rw [← exists_backShifted_step hpos hw, ← exists_backShifted_step vpos hh]
  simp only [walk, List.mem_flatMap, mem_stepOrigins hp]
  constructor
  · rintro ⟨_, ⟨sx, sy, hsx, hsy, rfl⟩, ho⟩
    obtain ⟨hx, hy⟩ := mem_stepOutputs.mp ho
    exact ⟨⟨sx, hsx, hx⟩, sy, hsy, hy⟩
  · rintro ⟨⟨sx, hsx, hx⟩, sy, hsy, hy⟩
    exact ⟨_, ⟨sx, sy, hsx, hsy, rfl⟩, mem_stepOutputs.mpr ⟨hx, hy⟩⟩

/-- Settles O31: a shifted-back origin fits by its minimum, and the walk covers each axis. -/
theorem tilingCoversExactlyTheOutput : Obligations.TilingCoversExactlyTheOutput := by
  unfold Obligations.TilingCoversExactlyTheOutput
  intro p wOut hOut hp hw hh
  refine ⟨fun o ho => ?_, fun x y => mem_walk hp hw hh⟩
  obtain ⟨sx, sy, -, -, rfl⟩ := (mem_stepOrigins hp).mp ho
  exact ⟨Nat.min_le_right _ _, Nat.min_le_right _ _⟩

end Sys2Proof.Machine

/-! PROOFS. EXTRACT: what it answers for a small image and for a valid footprint, where it writes, and the
descriptor field that the walk leaves. -/

namespace Sys2Proof.Machine

/-! ### What EXTRACT answers (rules R152, R153) -/

section
variable {s : State} {src w h sp dst dp : SReg}

theorem exec_extract_of_tooSmall (hsmall : (s.extractJob src w h sp dst dp).tooSmall = true) :
    exec (.extract src w h sp dst dp) s = .next s.setTooSmall.complete := by
  simp only [exec, execExtract, hsmall, if_true]

/-- The answer of an EXTRACT on job `j` that passes the size test and has a valid footprint. -/
def State.extracted (s : State) (j : ExtractJob) : State :=
  ((s.store (s.extractCells j)).drawUnless j.contract).complete

theorem exec_extract_of_valid (hbig : (s.extractJob src w h sp dst dp).tooSmall = false)
    (hvalid : ∀ a ∈ (s.extractJob src w h sp dst dp).footprint, s.memValid a = true) :
    exec (.extract src w h sp dst dp) s = .next (s.extracted (s.extractJob src w h sp dst dp)) := by
  rw [← footprintOf_extract hbig] at hvalid
  rw [exec_of_valid hvalid]
  simp only [doneState, hbig, Bool.false_eq_true, if_false, State.extracted]

/-- EXTRACT of an image that passes the size test does not touch `STATUS.TS`, whether it completes or not. -/
theorem exec_extract_keeps_ts (hbig : (s.extractJob src w h sp dst dp).tooSmall = false) :
    ∃ t, exec (.extract src w h sp dst dp) s = .next t ∧ t.status.ts = s.status.ts := by
  rcases exec_cases (.extract src w h sp dst dp) s with ⟨-, hdone⟩ | ⟨a, -, -, hfail⟩
  · refine ⟨_, hdone, ?_⟩
    simp only [doneState, hbig, Bool.false_eq_true, if_false, State.complete_status,
      State.drawUnless_status, State.store_status]
  · refine ⟨_, hfail, ?_⟩
    rw [State.fresh_status, State.raiseMemError_status, spoiltState_status]

end

theorem extracted_frame (s : State) (j : ExtractJob) :
    KeepsRegisters s (s.extracted j) ∧ CompletesQuietly s (s.extracted j) :=
  ⟨⟨fun _ => rfl, fun _ => rfl, fun _ => rfl, fun _ => rfl⟩, rfl, ⟨rfl, rfl⟩, ⟨rfl, rfl⟩, rfl⟩

theorem setTooSmall_complete_frame (s : State) :
    let t := s.setTooSmall.complete
    KeepsErrors s t ∧ KeepsRegisters s t ∧ KeepsMem s t ∧ KeepsOutside s t ∧ t.cmdCnt = s.cmdCnt + 1 :=
  ⟨⟨rfl, rfl⟩, ⟨fun _ => rfl, fun _ => rfl, fun _ => rfl, fun _ => rfl⟩, fun _ => rfl, ⟨rfl, rfl⟩, rfl⟩

theorem ExtractJob.tooSmall_iff {j : ExtractJob} :
    j.tooSmall = true ↔ j.width.toNat < 24 ∨ j.height.toNat < 8 := by
  simp only [ExtractJob.tooSmall, Bool.or_eq_true, decide_eq_true_eq]
  exact Iff.rfl

/-- Settles O27: the size test alone decides `TS`. -/
theorem extractUndersizedSetsTooSmall : Obligations.ExtractUndersizedSetsTooSmall := by
  unfold Obligations.ExtractUndersizedSetsTooSmall
  refine ⟨fun s src w h sp dst dp _ hsmall => ?_, fun s src w h sp dst dp _ => ?_⟩
  · exact ⟨_, exec_extract_of_tooSmall (ExtractJob.tooSmall_iff.mpr hsmall), rfl, rfl, rfl,
      setTooSmall_complete_frame s⟩
  · have htest : (decide ((s.readS w).toNat < 24) || decide ((s.readS h).toNat < 8)) =
        (s.extractJob src w h sp dst dp).tooSmall := rfl
    rw [Bool.or_assoc, htest]
    cases hcase : (s.extractJob src w h sp dst dp).tooSmall
    case true => exact ⟨_, exec_extract_of_tooSmall hcase, (Bool.or_true _).symm⟩
    case false =>
      rw [Bool.or_false]
      exact exec_extract_keeps_ts hcase

/-! ### Where EXTRACT writes (rule R159) -/

/-- On an image that passes the size test the walk evaluates each output coordinate and no other. -/
theorem ExtractJob.mem_walk {j : ExtractJob} (hbig : j.tooSmall = false) {ox oy : Nat} :
    (ox, oy) ∈ walk Config.params j.wOut j.hOut ↔ ox < j.wOut ∧ oy < j.hOut := by
  obtain ⟨hw, hh⟩ := ExtractJob.tooSmall_eq_false_iff.mp hbig
  have hwOut : Config.params.hStep ≤ j.wOut := Nat.le_sub_of_add_le hw
  have hhOut : Config.params.vStep ≤ j.hOut := Nat.le_sub_of_add_le hh
  exact Machine.mem_walk parametersAreValid hwOut hhOut

theorem ExtractJob.mem_region {j : ExtractJob} {a : Nat} :
    a ∈ j.region ↔ ∃ oy < j.hOut, ∃ ox < j.wOut, ∃ b < 4, byteAddr (j.descAddr ox oy) b = a := by
  simp only [ExtractJob.region, List.mem_flatMap, List.mem_range, mem_span]

theorem ExtractJob.mem_reads {j : ExtractJob} {a : Nat} :
    a ∈ j.reads ↔ ∃ y < j.height.toNat, ∃ x < j.width.toNat, (j.pixelAddr x y).toNat = a := by
  simp only [ExtractJob.reads, List.mem_flatMap, List.mem_map, List.mem_range]

/-- Inside the contract or outside it, every write goes to the output region. -/
theorem State.mem_region_of_mem_extractCells {s : State} {j : ExtractJob} (hbig : j.tooSmall = false)
    {c : Host.Cell} (hc : c ∈ s.extractCells j) : c.1 ∈ j.region := by
  simp only [State.extractCells, hbig, Bool.false_eq_true, if_false] at hc
  split at hc
  case isTrue =>
    obtain ⟨⟨ox, oy⟩, hwalk, hcell⟩ := State.mem_walkCells.mp hc
    obtain ⟨hox, hoy⟩ := (ExtractJob.mem_walk hbig).mp hwalk
    exact ExtractJob.mem_region.mpr ⟨oy, hoy, ox, hox, State.addr_of_mem_descriptorCells hcell⟩
  case isFalse =>
    obtain ⟨a, ha, rfl⟩ := List.mem_map.mp hc
    exact ha

/-- Settles O32: the writes stay in the region whatever the contract says. -/
theorem extractOutsideContractCompletes : Obligations.ExtractOutsideContractCompletes := by
  unfold Obligations.ExtractOutsideContractCompletes
  intro s src w h sp dst dp _ hw hh hvalid
  have hbig : (s.extractJob src w h sp dst dp).tooSmall = false :=
    ExtractJob.tooSmall_eq_false_iff.mpr ⟨hw, hh⟩
  refine ⟨_, exec_extract_of_valid hbig hvalid, fun a ha => ?_, extracted_frame s _⟩
  refine Memory.read_writeAll_of_notMem _ _ _ fun c hc hca => ha ?_
  exact hca ▸ State.mem_region_of_mem_extractCells hbig hc

/-! ### Addresses without wrap (rules R14, R53, R154) -/

/-- Pixel addresses are the plain numbers of R150 modulo 2^32. -/
theorem ExtractJob.toNat_pixelAddr (j : ExtractJob) (x y : Nat) :
    (j.pixelAddr x y).toNat = j.pixelByte x y % 2 ^ 32 := by
  have hword : j.pixelAddr x y = BitVec.ofNat 32 (j.pixelByte x y) := by
    simp [ExtractJob.pixelAddr, ExtractJob.pixelByte, BitVec.ofNat_add, BitVec.ofNat_mul]
  rw [hword, BitVec.toNat_ofNat]

/-- Descriptor addresses are the plain numbers of R155 modulo 2^32. -/
theorem ExtractJob.byteAddr_descAddr (j : ExtractJob) (ox oy b : Nat) :
    byteAddr (j.descAddr ox oy) b = j.descByte ox oy b % 2 ^ 32 := by
  have hword : j.descAddr ox oy + BitVec.ofNat 32 b = BitVec.ofNat 32 (j.descByte ox oy b) := by
    simp [ExtractJob.descAddr, ExtractJob.descByte, BitVec.ofNat_add, BitVec.ofNat_mul]
  rw [byteAddr, hword, BitVec.toNat_ofNat]

/-- Pixels lie between `src` and the end of the source bytes, for every pitch. -/
theorem ExtractJob.pixelByte_lt {j : ExtractJob} {x y : Nat} (hx : x < j.width.toNat)
    (hy : y < j.height.toNat) : j.pixelByte x y < j.src.toNat + j.srcSize := by
  have hrow : y * j.srcPitch.toNat ≤ (j.height.toNat - 1) * j.srcPitch.toNat :=
    Nat.mul_le_mul_right _ (Nat.le_sub_one_of_lt hy)
  simp only [ExtractJob.pixelByte, ExtractJob.srcSize]
  omega

theorem ExtractJob.descByte_lt {j : ExtractJob} {ox oy b : Nat} (hox : ox < j.wOut) (hoy : oy < j.hOut)
    (hb : b < 4) : j.descByte ox oy b < j.dst.toNat + j.dstSize := by
  have hrow : oy * j.pitch ≤ (j.hOut - 1) * j.pitch :=
    Nat.mul_le_mul_right _ (Nat.le_sub_one_of_lt hoy)
  simp only [ExtractJob.descByte, ExtractJob.dstSize]
  omega

/-- Pixel `(c, r)` of the patch of an output coordinate lies in the image (rules R150, R155). -/
theorem ExtractJob.patch_inside {j : ExtractJob} {ox oy c r : Nat} (hox : ox < j.wOut)
    (hoy : oy < j.hOut) (hc : c < 9) (hr : r < 7) :
    ox + c < j.width.toNat ∧ oy + r < j.height.toNat := by
  simp only [ExtractJob.wOut] at hox
  simp only [ExtractJob.hOut] at hoy
  omega

/-- Output rows that do not overlap keep all descriptor bytes apart. -/
theorem ExtractJob.descByte_inj {j : ExtractJob} (hpitch : j.wOut ≤ j.pitch) {ox oy b ox' oy' b' : Nat}
    (hox : ox < j.wOut) (hox' : ox' < j.wOut) (hb : b < 4) (hb' : b' < 4)
    (h : j.descByte ox oy b = j.descByte ox' oy' b') : ox = ox' ∧ oy = oy' ∧ b = b' := by
  simp only [ExtractJob.descByte] at h
  have hindex : oy * j.pitch + ox = oy' * j.pitch + ox' := by omega
  have hpos : 0 < j.pitch := by omega
  have hrow : oy = oy' := by
    have hdiv := congrArg (· / j.pitch) hindex
    simpa only [Nat.mul_add_div hpos, Nat.mul_comm _ j.pitch, Nat.div_eq_of_lt (hox.trans_le hpitch),
      Nat.div_eq_of_lt (hox'.trans_le hpitch), Nat.add_zero] using hdiv
  subst hrow
  omega

/-- A source pitch of at least the width: the source bytes are whole rows. -/
theorem ExtractJob.srcSize_of_wide {j : ExtractJob} (hh : 0 < j.height.toNat)
    (hw : j.width.toNat ≤ j.srcPitch.toNat) : j.srcSize = j.height.toNat * j.srcPitch.toNat := by
  obtain ⟨n, hn⟩ := Nat.exists_eq_add_of_lt hh
  simp only [ExtractJob.srcSize, hn, Nat.zero_add, Nat.add_sub_cancel, Nat.succ_mul]
  omega

/-- A source pitch below the width: the source bytes end with the last row (log 10). -/
theorem ExtractJob.srcSize_of_narrow {j : ExtractJob} (hh : 0 < j.height.toNat)
    (hw : j.srcPitch.toNat < j.width.toNat) :
    j.srcSize = (j.height.toNat - 1) * j.srcPitch.toNat + j.width.toNat := by
  obtain ⟨n, hn⟩ := Nat.exists_eq_add_of_lt hh
  simp only [ExtractJob.srcSize, hn, Nat.zero_add, Nat.add_sub_cancel, Nat.succ_mul]
  omega

/-! ### The census of the image in memory (rules R150, R151) -/

/-- `census(ox, oy)` of the image in memory, its pixels at the plain addresses of rule R150. -/
def ExtractJob.censusAt (j : ExtractJob) (m : Memory) (ox oy : Nat) : Word :=
  census (fun x y => m.read (j.pixelByte x y)) ox oy

/-- The census depends on the source bytes only. -/
theorem ExtractJob.censusAt_congr {j : ExtractJob} {m n : Memory}
    (hsame : ∀ x < j.width.toNat, ∀ y < j.height.toNat,
      m.read (j.pixelByte x y) = n.read (j.pixelByte x y))
    {ox oy : Nat} (hox : ox < j.wOut) (hoy : oy < j.hOut) :
    j.censusAt m ox oy = j.censusAt n ox oy := by
  refine census_congr fun c hc r hr => ?_
  obtain ⟨hx, hy⟩ := ExtractJob.patch_inside hox hoy hc hr
  exact hsame _ hx _ hy

/-! ### A clean job: contract and valid footprint (rules R154, R159) -/

/-- The contract as the model tests it, with a passed size test and a valid footprint, for every source
pitch. -/
def ExtractJob.CleanAnyPitch (j : ExtractJob) (s : State) : Prop := j.CleanUpTo (j.src.toNat + j.srcSize) s

theorem ExtractJob.Clean.anyPitch {j : ExtractJob} {s : State} (h : j.Clean s) : j.CleanAnyPitch s := by
  obtain ⟨hwide, hclean⟩ := h
  have ⟨⟨_, hh⟩, _⟩ := hclean
  rwa [ExtractJob.CleanAnyPitch, ExtractJob.srcSize_of_wide (by omega) hwide]

theorem ExtractJob.CleanNarrow.anyPitch {j : ExtractJob} {s : State} (h : j.CleanNarrow s) :
    j.CleanAnyPitch s := by
  obtain ⟨hnarrow, hclean⟩ := h
  have ⟨⟨_, hh⟩, _⟩ := hclean
  rwa [ExtractJob.CleanAnyPitch, ExtractJob.srcSize_of_narrow (by omega) hnarrow]

/-- Being clean depends on the platform's valid addresses only (rule R55). -/
theorem ExtractJob.CleanAnyPitch.of_memValid {j : ExtractJob} {s t : State} (h : j.CleanAnyPitch s)
    (hvalid : ∀ a, t.memValid a = s.memValid a) : j.CleanAnyPitch t := by
  simpa only [ExtractJob.CleanAnyPitch, ExtractJob.CleanUpTo, hvalid] using h

section
variable {j : ExtractJob} {s : State}

theorem ExtractJob.CleanAnyPitch.tooSmall (h : j.CleanAnyPitch s) : j.tooSmall = false := by
  obtain ⟨hsize, -⟩ := h
  exact ExtractJob.tooSmall_eq_false_iff.mpr hsize

theorem ExtractJob.CleanAnyPitch.contract (h : j.CleanAnyPitch s) : j.contract = true := by
  obtain ⟨-, hpitch, hsrc, hdst, hapart, -⟩ := h
  simp only [ExtractJob.contract, Bool.and_eq_true, Bool.or_eq_true, decide_eq_true_eq]
  exact ⟨⟨⟨hpitch, hsrc⟩, hdst⟩, hapart⟩

theorem ExtractJob.CleanAnyPitch.pixelAddr (h : j.CleanAnyPitch s) {x y : Nat} (hx : x < j.width.toNat)
    (hy : y < j.height.toNat) : (j.pixelAddr x y).toNat = j.pixelByte x y := by
  obtain ⟨-, -, hsrc, -⟩ := h
  rw [j.toNat_pixelAddr, Nat.mod_eq_of_lt ((ExtractJob.pixelByte_lt hx hy).trans_le hsrc)]

theorem ExtractJob.CleanAnyPitch.descAddr (h : j.CleanAnyPitch s) {ox oy b : Nat} (hox : ox < j.wOut)
    (hoy : oy < j.hOut) (hb : b < 4) : byteAddr (j.descAddr ox oy) b = j.descByte ox oy b := by
  obtain ⟨-, -, -, hdst, -⟩ := h
  rw [j.byteAddr_descAddr, Nat.mod_eq_of_lt ((ExtractJob.descByte_lt hox hoy hb).trans_le hdst)]

theorem ExtractJob.CleanAnyPitch.pixelByte_ne_descByte (h : j.CleanAnyPitch s) {x y ox oy b : Nat}
    (hx : x < j.width.toNat) (hy : y < j.height.toNat) (hox : ox < j.wOut) (hoy : oy < j.hOut)
    (hb : b < 4) : j.pixelByte x y ≠ j.descByte ox oy b := by
  obtain ⟨-, -, -, -, hapart, -⟩ := h
  have hpixel := ExtractJob.pixelByte_lt hx hy
  have hdesc := ExtractJob.descByte_lt (j := j) hox hoy hb
  have hsrc : j.src.toNat ≤ j.pixelByte x y := by simp only [ExtractJob.pixelByte]; omega
  have hdst : j.dst.toNat ≤ j.descByte ox oy b := by simp only [ExtractJob.descByte]; omega
  simp only [ExtractJob.dstSize] at hdesc
  omega

theorem ExtractJob.CleanAnyPitch.footprint (h : j.CleanAnyPitch s) : ∀ a ∈ j.footprint, s.memValid a = true := by
  intro a ha
  have ⟨_, _, _, _, _, hpixels, hdescs⟩ := h
  rcases List.mem_append.mp ha with hread | hwrite
  · obtain ⟨y, hy, x, hx, rfl⟩ := ExtractJob.mem_reads.mp hread
    rw [h.pixelAddr hx hy]
    exact hpixels y hy x hx
  · obtain ⟨oy, hoy, ox, hox, b, hb, rfl⟩ := ExtractJob.mem_region.mp hwrite
    rw [h.descAddr hox hoy hb]
    exact hdescs oy hoy ox hox b hb

/-! ### The field the walk leaves (rule R158) -/

theorem ExtractJob.CleanAnyPitch.descriptorCells (h : j.CleanAnyPitch s) {ox oy : Nat} (hox : ox < j.wOut)
    (hoy : oy < j.hOut) :
    s.descriptorCells j ox oy = descCells (j.descAddr ox oy) (j.censusAt s.mem ox oy) := by
  have hpatch : s.patchValid j ox oy = true := by
    refine State.patchValid_iff.mpr fun r hr c hc => ?_
    obtain ⟨hx, hy⟩ := ExtractJob.patch_inside hox hoy hc hr
    exact h.footprint _ (List.mem_append_left _ (ExtractJob.mem_reads.mpr ⟨_, hy, _, hx, rfl⟩))
  have hcensus : census (j.pix s.mem) ox oy = j.censusAt s.mem ox oy := by
    refine census_congr fun c hc r hr => ?_
    obtain ⟨hx, hy⟩ := ExtractJob.patch_inside hox hoy hc hr
    rw [ExtractJob.pix, h.pixelAddr hx hy]
  rw [State.descriptorCells_of_valid hpatch, hcensus]

/-- The cells of a clean EXTRACT are the bytes of the closed-form field, whatever the order of the walk. -/
theorem ExtractJob.CleanAnyPitch.mem_extractCells (h : j.CleanAnyPitch s) {c : Host.Cell} :
    c ∈ s.extractCells j ↔ ∃ oy < j.hOut, ∃ ox < j.wOut, ∃ b < 4,
      (j.descByte ox oy b, wordByte (j.censusAt s.mem ox oy) b) = c := by
  have hcell {ox oy : Nat} (hox : ox < j.wOut) (hoy : oy < j.hOut) : c ∈ s.descriptorCells j ox oy ↔
      ∃ b < 4, (j.descByte ox oy b, wordByte (j.censusAt s.mem ox oy) b) = c := by
    simp only [h.descriptorCells hox hoy, descCells, List.mem_map, List.mem_range]
    exact exists_congr fun b => and_congr_right fun hb => by rw [h.descAddr hox hoy hb]
  simp only [State.extractCells, h.tooSmall, h.contract, Bool.false_eq_true, if_false, if_true,
    State.mem_walkCells]
  constructor
  · rintro ⟨⟨ox, oy⟩, hwalk, hc⟩
    obtain ⟨hox, hoy⟩ := (ExtractJob.mem_walk h.tooSmall).mp hwalk
    exact ⟨oy, hoy, ox, hox, (hcell hox hoy).mp hc⟩
  · rintro ⟨oy, hoy, ox, hox, hc⟩
    exact ⟨(ox, oy), (ExtractJob.mem_walk h.tooSmall).mpr ⟨hox, hoy⟩, (hcell hox hoy).mpr hc⟩

theorem ExtractJob.CleanAnyPitch.fieldWritten (h : j.CleanAnyPitch s) : j.FieldWritten s (s.extracted j) := by
  have ⟨_, hpitch, _⟩ := h
  refine ⟨fun oy hoy ox hox b hb => ?_, fun a ha => ?_⟩
  · refine Memory.read_writeAll_of_mem _ _ _ _ (h.mem_extractCells.mpr ⟨oy, hoy, ox, hox, b, hb, rfl⟩) ?_
    intro c hc hca
    obtain ⟨oy', hoy', ox', hox', b', hb', rfl⟩ := h.mem_extractCells.mp hc
    obtain ⟨rfl, rfl, rfl⟩ := ExtractJob.descByte_inj hpitch hox' hox hb' hb hca
    rfl
  · refine Memory.read_writeAll_of_notMem _ _ _ fun c hc hca => ?_
    obtain ⟨oy, hoy, ox, hox, b, hb, rfl⟩ := h.mem_extractCells.mp hc
    exact ha oy hoy ox hox b hb hca.symm

end

section
variable {s : State} {src w h sp dst dp : SReg}

theorem exec_extract_of_clean (hclean : (s.extractJob src w h sp dst dp).CleanAnyPitch s) :
    exec (.extract src w h sp dst dp) s = .next (s.extracted (s.extractJob src w h sp dst dp)) :=
  exec_extract_of_valid hclean.tooSmall hclean.footprint

/-- The refinement for every source pitch: the walk leaves the closed-form field. -/
theorem extract_writes_field (hclean : (s.extractJob src w h sp dst dp).CleanAnyPitch s) :
    ∃ t, exec (.extract src w h sp dst dp) s = .next t ∧
      (s.extractJob src w h sp dst dp).FieldWritten s t ∧ KeepsRegisters s t ∧ CompletesQuietly s t :=
  ⟨_, exec_extract_of_clean hclean, hclean.fieldWritten, extracted_frame s _⟩

end

/-- Settles O28: a clean job is one of those the refinement speaks of. -/
theorem extractWritesTheDescriptorField : Obligations.ExtractWritesTheDescriptorField := by
  unfold Obligations.ExtractWritesTheDescriptorField
  intro s src w h sp dst dp _ hclean
  exact extract_writes_field hclean.anyPitch

/-- Settles O29: so is one with a narrow source pitch. -/
theorem extractAcceptsNarrowSourcePitch : Obligations.ExtractAcceptsNarrowSourcePitch := by
  unfold Obligations.ExtractAcceptsNarrowSourcePitch
  intro s src w h sp dst dp _ hclean
  exact extract_writes_field hclean.anyPitch

/-! ### The same EXTRACT again (rule R160) -/

/-- The first execution leaves the image as it was, so the second writes the field that stands there. -/
theorem ExtractJob.CleanAnyPitch.keepsMem_again {j : ExtractJob} {s t u : State} (h : j.CleanAnyPitch s)
    (hfirst : j.FieldWritten s t) (hsecond : j.FieldWritten t u) : KeepsMem t u := by
  obtain ⟨hfield, hother⟩ := hfirst
  obtain ⟨hfield', hother'⟩ := hsecond
  have himage : ∀ x < j.width.toNat, ∀ y < j.height.toNat,
      t.mem.read (j.pixelByte x y) = s.mem.read (j.pixelByte x y) := fun x hx y hy =>
    hother _ fun oy hoy ox hox b hb => h.pixelByte_ne_descByte hx hy hox hoy hb
  intro a
  by_cases ha : ∃ oy < j.hOut, ∃ ox < j.wOut, ∃ b < 4, a = j.descByte ox oy b
  · obtain ⟨oy, hoy, ox, hox, b, hb, rfl⟩ := ha
    calc u.mem.read (j.descByte ox oy b) = wordByte (j.censusAt t.mem ox oy) b := hfield' oy hoy ox hox b hb
      _ = wordByte (j.censusAt s.mem ox oy) b := by rw [ExtractJob.censusAt_congr himage hox hoy]
      _ = t.mem.read (j.descByte ox oy b) := (hfield oy hoy ox hox b hb).symm
  · exact hother' a fun oy hoy ox hox b hb hab => ha ⟨oy, hoy, ox, hox, b, hb, hab⟩

/-- Settles O30: the second EXTRACT reads the same operands and is as clean as the first. -/
theorem extractTwiceIsExtractOnce : Obligations.ExtractTwiceIsExtractOnce := by
  unfold Obligations.ExtractTwiceIsExtractOnce
  intro s src w h sp dst dp _ hclean
  have hfirst := hclean.anyPitch
  have hsecond := hfirst.of_memValid (t := s.extracted (s.extractJob src w h sp dst dp)) fun _ => rfl
  obtain ⟨hregs, -⟩ := extracted_frame (s.extracted (s.extractJob src w h sp dst dp))
    (s.extractJob src w h sp dst dp)
  exact ⟨_, _, exec_extract_of_clean hfirst, exec_extract_of_clean hsecond,
    hfirst.keepsMem_again hfirst.fieldWritten hsecond.fieldWritten, hregs⟩

end Sys2Proof.Machine

/-! PROOFS. AGGR: its contract on the destination rows, the patch it leaves in memory inside the contract and
outside it, and the rotation of `H(gr)`, which is the same in both. -/

namespace Sys2Proof.Machine

/-! ### The contract (rule R173) -/

section
variable {s : State} {d p : SReg}

theorem State.rowsInside_iff :
    s.rowsInside d p = true ↔ ∀ i < 16, (s.rowAddr d p i).toNat + 16 ≤ 2 ^ 32 := by
  simp only [State.rowsInside, List.all_eq_true, List.mem_range, decide_eq_true_eq]

theorem State.rowsDisjoint_iff :
    s.rowsDisjoint d p = true ↔ ∀ i < 16, ∀ k < i,
      (s.rowAddr d p i).toNat + 16 ≤ (s.rowAddr d p k).toNat ∨
        (s.rowAddr d p k).toNat + 16 ≤ (s.rowAddr d p i).toNat := by
  simp only [State.rowsDisjoint, List.all_eq_true, List.mem_range, Bool.or_eq_true, decide_eq_true_eq]

theorem State.aggrContract_iff : s.aggrContract d p = true ↔ AggrRowsApart s d p := by
  rw [State.aggrContract, Bool.and_eq_true, State.rowsInside_iff, State.rowsDisjoint_iff, AggrRowsApart]

/-- Row starts are the plain sums of R172 modulo 2^32 (rule R53, log 12). -/
theorem State.toNat_rowAddr (s : State) (d p : SReg) (n : Nat) :
    (s.rowAddr d p n).toNat = ((s.readS d).toNat + n * (s.readS p).toNat) % 2 ^ 32 := by
  simp [State.rowAddr]

theorem aggrRowsApart_of_pitch (hpitch : 16 ≤ (s.readS p).toNat)
    (hend : (s.readS d).toNat + 15 * (s.readS p).toNat + 16 ≤ 2 ^ 32) : AggrRowsApart s d p := by
  have hlast (i : Nat) (hi : i < 16) : i * (s.readS p).toNat ≤ 15 * (s.readS p).toNat :=
    Nat.mul_le_mul_right _ (Nat.le_of_lt_succ hi)
  have hstart (i : Nat) (hi : i < 16) :
      (s.rowAddr d p i).toNat = (s.readS d).toNat + i * (s.readS p).toNat := by
    have := hlast i hi
    rw [State.toNat_rowAddr, Nat.mod_eq_of_lt (by omega)]
  refine ⟨fun i hi => ?_, fun i hi k hk => .inr ?_⟩
  · have := hlast i hi
    rw [hstart i hi]
    omega
  · have hnext : (k + 1) * (s.readS p).toNat ≤ i * (s.readS p).toNat := Nat.mul_le_mul_right _ hk
    rw [Nat.succ_mul] at hnext
    rw [hstart i hi, hstart k (hk.trans hi)]
    omega

end

/-- Settles O22: rows that do not wrap and start 16 or more apart lie one above the other, and the contract test
is the predicate itself. -/
theorem aggrPitchConditionSuffices : Obligations.AggrPitchConditionSuffices := by
  unfold Obligations.AggrPitchConditionSuffices
  exact ⟨fun _ _ _ => aggrRowsApart_of_pitch, fun _ _ _ => State.aggrContract_iff⟩

/-! ### The entries of the patch (rules R171, R172, R175) -/

theorem State.toNat_cost (s : State) (gl : Group) (gr : DoubleGroup) (e : Bool) (dsp px : Nat) :
    (s.cost gl gr e dsp px).toNat = if e = true ∧ px < dsp then 0
      else popcount32 (s.groupLane gl px ^^^ s.doubleLane gr (px + 16 - dsp)) := by
  cases e with
  | false => simp
  | true =>
    rw [State.cost_masked, apply_ite BitVec.toNat, State.toNat_cost_unmasked]
    simp

section
variable {s : State} {d p : SReg} {gl : Group} {gr : DoubleGroup} {e : Bool}

theorem State.mem_aggrFootprint {a : Nat} :
    a ∈ s.aggrFootprint d p ↔ ∃ dsp < 16, ∃ px < 16, byteAddr (s.rowAddr d p dsp) px = a := by
  simp only [State.aggrFootprint, State.entryAddr, List.mem_map, Prod.exists, mem_patchEntries, and_assoc,
    exists_and_left]

theorem State.mem_patchCells {c : Host.Cell} :
    c ∈ s.patchCells d p gl gr e ↔ ∃ dsp < 16, ∃ px < 16,
      (byteAddr (s.rowAddr d p dsp) px, s.cost gl gr e dsp px) = c := by
  simp only [State.patchCells, State.entryAddr, List.mem_map, Prod.exists, mem_patchEntries, and_assoc,
    exists_and_left]

theorem AggrRowsApart.byteAddr_row (h : AggrRowsApart s d p) {dsp px : Nat} (hdsp : dsp < 16)
    (hpx : px < 16) : byteAddr (s.rowAddr d p dsp) px = (s.rowAddr d p dsp).toNat + px := by
  obtain ⟨hinside, -⟩ := h
  have hend := hinside dsp hdsp
  rw [byteAddr, BitVec.toNat_add, BitVec.toNat_ofNat]
  omega

/-- Rows that are apart keep all 256 addresses apart. -/
theorem AggrRowsApart.entry_inj (h : AggrRowsApart s d p) {dsp px dsp' px' : Nat} (hdsp : dsp < 16)
    (hdsp' : dsp' < 16) (hpx : px < 16) (hpx' : px' < 16)
    (heq : (s.rowAddr d p dsp).toNat + px = (s.rowAddr d p dsp').toNat + px') : dsp = dsp' ∧ px = px' := by
  obtain ⟨-, hdisjoint⟩ := h
  rcases Nat.lt_trichotomy dsp dsp' with hlt | rfl | hgt
  · have := hdisjoint dsp' hdsp' dsp hlt
    omega
  · exact ⟨rfl, Nat.add_left_cancel heq⟩
  · have := hdisjoint dsp hdsp dsp' hgt
    omega

/-! ### What AGGR answers (rules R171, R174) -/

/-- The answer of an AGGR with a valid footprint. -/
def State.aggregated (s : State) (d p : SReg) (gl : Group) (gr : DoubleGroup) (e : Bool) : State :=
  (doneState (.aggr d p gl gr e) s).complete

theorem exec_aggr_of_valid (hvalid : AggrRowsValid s d p) :
    exec (.aggr d p gl gr e) s = .next (s.aggregated d p gl gr e) :=
  exec_of_valid (aggrRowsValid_iff.mp hvalid)

theorem aggregated_mem (s : State) (d p : SReg) (gl : Group) (gr : DoubleGroup) (e : Bool) :
    (s.aggregated d p gl gr e).mem = s.mem.writeAll (s.aggrCells d p gl gr e) := by
  simp only [State.aggregated, doneState, State.complete_mem, State.drawUnless_mem, State.rotateUp_mem,
    State.store_mem]

theorem readV_aggregated (s : State) (d p : SReg) (gl : Group) (gr : DoubleGroup) (e : Bool) (i : VReg) :
    (s.aggregated d p gl gr e).readV i = ((s.store (s.aggrCells d p gl gr e)).rotateUp gr 4).readV i := by
  simp only [State.aggregated, doneState, State.readV_complete, State.readV_drawUnless]

/-- Up by four lanes is up by one register (rule R174). -/
theorem State.readV_rotateUp_four (s : State) (h : DoubleGroup) {k : Nat} (hk : k < 8) :
    (s.rotateUp h 4).readV (doubleReg h k) = s.readV (doubleReg h ((k + 7) % 8)) := by
  refine vec_ext_words fun c hc => ?_
  rw [← State.doubleLane_mul_add _ h k hc, ← State.doubleLane_mul_add _ h _ hc,
    s.doubleLane_rotateUp h 4 (by decide) _ (by omega)]
  congr 1
  omega

theorem aggregated_frame (s : State) (d p : SReg) (gl : Group) (gr : DoubleGroup) (e : Bool) :
    let t := s.aggregated d p gl gr e
    (∀ k < 8, t.readV (doubleReg gr k) = s.readV (doubleReg gr ((k + 7) % 8))) ∧
      (∀ i, inDouble gr i = false → t.readV i = s.readV i) ∧
      KeepsR s t ∧ KeepsP s t ∧ KeepsS s t ∧ CompletesQuietly s t := by
  refine ⟨fun k hk => ?_, fun i hi => ?_, ?_⟩
  · rw [readV_aggregated, State.readV_rotateUp_four _ gr hk, State.readV_store]
  · rw [readV_aggregated, State.readV_rotateUp_of_not _ gr 4 i hi, State.readV_store]
  · simp [State.aggregated, doneState, KeepsR, KeepsP, KeepsS, CompletesQuietly, KeepsErrors, KeepsOutside]

/-! ### The patch inside the contract (rules R172, R175) -/

theorem AggrRowsApart.mem_aggrCells (h : AggrRowsApart s d p) {c : Host.Cell} :
    c ∈ s.aggrCells d p gl gr e ↔ ∃ dsp < 16, ∃ px < 16,
      ((s.rowAddr d p dsp).toNat + px, s.cost gl gr e dsp px) = c := by
  rw [State.aggrCells, if_pos (State.aggrContract_iff.mpr h), State.mem_patchCells]
  refine exists_congr fun dsp => and_congr_right fun hdsp =>
    exists_congr fun px => and_congr_right fun hpx => ?_
  rw [h.byteAddr_row hdsp hpx]

theorem AggrRowsApart.read_entry (h : AggrRowsApart s d p) {dsp px : Nat} (hdsp : dsp < 16)
    (hpx : px < 16) : (s.aggregated d p gl gr e).mem.read ((s.rowAddr d p dsp).toNat + px) =
      s.cost gl gr e dsp px := by
  rw [aggregated_mem]
  refine Memory.read_writeAll_of_mem _ _ _ _ (h.mem_aggrCells.mpr ⟨dsp, hdsp, px, hpx, rfl⟩) ?_
  intro c hc haddr
  obtain ⟨dsp', hdsp', px', hpx', rfl⟩ := h.mem_aggrCells.mp hc
  obtain ⟨rfl, rfl⟩ := h.entry_inj hdsp' hdsp hpx' hpx haddr
  rfl

theorem AggrRowsApart.read_other (h : AggrRowsApart s d p) {x : Nat}
    (hx : ∀ dsp < 16, ∀ px < 16, x ≠ (s.rowAddr d p dsp).toNat + px) :
    (s.aggregated d p gl gr e).mem.read x = s.mem.read x := by
  rw [aggregated_mem]
  refine Memory.read_writeAll_of_notMem _ _ _ fun c hc haddr => ?_
  obtain ⟨dsp, hdsp, px, hpx, rfl⟩ := h.mem_aggrCells.mp hc
  exact hx dsp hdsp px hpx haddr.symm

end

/-- Settles O20: rows that are apart give each byte one writer, the entry of the patch that belongs there. -/
theorem aggrWritesPatchAndRotates : Obligations.AggrWritesPatchAndRotates := by
  unfold Obligations.AggrWritesPatchAndRotates
  intro s d p gl gr e _ hapart hvalid
  refine ⟨_, exec_aggr_of_valid hvalid, fun dsp hdsp px hpx => ?_, fun x hx => hapart.read_other hx,
    aggregated_frame s d p gl gr e⟩
  rw [hapart.read_entry hdsp hpx, State.toNat_cost]

/-! ### The patch outside the contract (U4, log 11) -/

theorem getD_mod_length_mem {α : Type} {l : List α} (h : l ≠ []) (k : Nat) (fallback : α) :
    l.getD (k % l.length) fallback ∈ l := by
  have hlt : k % l.length < l.length := Nat.mod_lt _ (List.length_pos_iff.mpr h)
  rw [List.getD_eq_getElem _ _ hlt]
  exact List.getElem_mem hlt

/-- Cells made by one function of the address agree with each other, in whatever order they are written. -/
theorem Memory.read_writeAll_map (m : Memory) (f : Nat → Byte) {addrs : List Nat} {a : Nat}
    (ha : a ∈ addrs) : (m.writeAll (addrs.map fun x => (x, f x))).read a = f a := by
  refine Memory.read_writeAll_of_mem _ _ _ _ (List.mem_map.mpr ⟨a, ha, rfl⟩) fun c hc hca => ?_
  obtain ⟨x, -, rfl⟩ := List.mem_map.mp hc
  exact congrArg f hca

section
variable {s : State} {d p : SReg} {gl : Group} {gr : DoubleGroup} {e : Bool}

theorem State.mem_rivalCosts {a : Nat} {b : Byte} :
    b ∈ s.rivalCosts d p gl gr e a ↔ ∃ dsp < 16, ∃ px < 16,
      byteAddr (s.rowAddr d p dsp) px = a ∧ s.cost gl gr e dsp px = b := by
  have hcell : b ∈ s.rivalCosts d p gl gr e a ↔ (a, b) ∈ s.patchCells d p gl gr e := by
    simp [State.rivalCosts]
  simp only [hcell, State.mem_patchCells, Prod.mk.injEq]

theorem State.rivalCosts_ne_nil {a : Nat} (ha : a ∈ s.aggrFootprint d p) :
    s.rivalCosts d p gl gr e a ≠ [] := by
  obtain ⟨dsp, hdsp, px, hpx, haddr⟩ := State.mem_aggrFootprint.mp ha
  exact List.ne_nil_of_mem (State.mem_rivalCosts.mpr ⟨dsp, hdsp, px, hpx, haddr, rfl⟩)

theorem State.aggrCells_of_not_apart (h : ¬AggrRowsApart s d p) :
    s.aggrCells d p gl gr e = s.openPatchCells d p gl gr e := by
  rw [State.aggrCells, if_neg (mt State.aggrContract_iff.mp h)]

/-- The open writes stay in the footprint too. -/
theorem State.mem_aggrFootprint_of_mem_openPatchCells {c : Host.Cell}
    (hc : c ∈ s.openPatchCells d p gl gr e) : c.1 ∈ s.aggrFootprint d p := by
  obtain ⟨a, ha, rfl⟩ := List.mem_map.mp hc
  exact ha

/-- When no row passes 2^32, the byte that survives at an address is one of the costs written to it. -/
theorem State.read_openPatchCells_mem (m : Memory) (hin : s.rowsInside d p = true) {a : Nat}
    (ha : a ∈ s.aggrFootprint d p) :
    (m.writeAll (s.openPatchCells d p gl gr e)).read a ∈ s.rivalCosts d p gl gr e a := by
  simp only [State.openPatchCells, hin, if_true]
  rw [Memory.read_writeAll_map m _ ha]
  exact getD_mod_length_mem (State.rivalCosts_ne_nil ha) _ _

end

/-- Settles O24: the open cells name the footprint's addresses only, and without a wrap each holds one of the
costs written there; the rotation does not ask for the contract. -/
theorem aggrOverlappingRowsComplete : Obligations.AggrOverlappingRowsComplete := by
  unfold Obligations.AggrOverlappingRowsComplete
  intro s d p gl gr e _ hoverlap hvalid
  refine ⟨_, exec_aggr_of_valid hvalid, fun x hx => ?_, fun hin x hx => ?_, aggregated_frame s d p gl gr e⟩
  · rw [aggregated_mem, State.aggrCells_of_not_apart hoverlap]
    refine Memory.read_writeAll_of_notMem _ _ _ fun c hc hcx => hx ?_
    exact hcx ▸ State.mem_aggrFootprint_of_mem_openPatchCells hc
  · rw [aggregated_mem, State.aggrCells_of_not_apart hoverlap]
    obtain ⟨dsp, hdsp, px, hpx, haddr, hcost⟩ :=
      State.mem_rivalCosts.mp (State.read_openPatchCells_mem s.mem (State.rowsInside_iff.mpr hin) hx)
    exact ⟨dsp, hdsp, px, hpx, haddr, hcost.symm⟩

end Sys2Proof.Machine

/-! PROOFS. Idling, the illegal word and the halted state: what a step does when no command is executed. The one
idea is that on a halted block only the two reset events touch the control registers. -/

namespace Sys2Proof.Machine

/-! ### No event (rules R28, R195) -/

theorem step_of_port_nil {s : State} (hport : s.port = []) : step s = .next s := by
  simp only [step, acceptNext, hport]

/-- Settles O40: with no event to take, the step is the identity. -/
theorem idleBlockKeepsItsState : Obligations.IdleBlockKeepsItsState :=
  fun _ hport => step_of_port_nil hport

/-! ### An illegal word (rules R181, R185) -/

theorem runCommand_of_decode_eq_none {s : State} {w : Word} (hrun : s.halted = false)
    (hdecode : decode w = none) : runCommand w s = .next (s.raise .illegalCommand w) := by
  simp [runCommand, hrun, hdecode]

/-- A first `IllegalCommand` writes `ILL` and `ERRWORD` (rule R181). -/
theorem State.raiseIllegal_of_not_halted {s : State} (hrun : s.halted = false) (w : Word) :
    s.raise .illegalCommand w = { s with status := { s.status with ill := true }, errWord := w } := by
  simp [State.raise, hrun]

/-- Settles O41: no row accepts the word, so decoding fails, and the error raised is the first. -/
theorem illegalWordHaltsPrecisely : Obligations.IllegalWordHaltsPrecisely := by
  unfold Obligations.IllegalWordHaltsPrecisely
  intro s w rest hport hrun hillegal
  have hdecode : decode w = none :=
    decode_eq_none_iff.mpr fun r hr hacc => hillegal r hr (Row.accepts_iff_masked.mp hacc)
  have hstep : step s = .next (State.raise { s with port := rest } .illegalCommand w) :=
    (step_of_port_cons hport).trans (runCommand_of_decode_eq_none hrun hdecode)
  exact ⟨_, hstep, State.raiseIllegal_of_not_halted (s := { s with port := rest }) hrun w,
    State.halted_raiseIllegal _ w⟩

/-! ### The halted block (rule R184) -/

/-- A block is halted when one of the two halting errors is recorded (rule R32). -/
theorem State.halted_iff (s : State) : s.halted = true ↔ s.status.ill = true ∨ s.status.merr = true :=
  Bool.or_eq_true_iff

theorem runCommand_of_halted {s : State} (hhalt : s.halted = true) (w : Word) :
    runCommand w s = .next s :=
  if_pos hhalt

theorem step_of_command_of_halted {s : State} {w : Word} {rest : List HostEvent}
    (hport : s.port = .command w :: rest) (hhalt : s.halted = true) :
    step s = .next { s with port := rest } :=
  (step_of_port_cons hport).trans (runCommand_of_halted (s := { s with port := rest }) hhalt w)

/-- What a step of a halted block can do: take a reset event, which ends the halt, or leave all control
registers alone. -/
theorem step_cases_of_halted {s t : State} (hhalt : s.halted = true) (hstep : step s = .next t) :
    ((∃ rest, s.port = .reset :: rest ∨ ∃ w, s.port = .resetDuring w :: rest) ∧ t.halted = false) ∨
      (t.status = s.status ∧ KeepsErrors s t ∧ t.cmdCnt = s.cmdCnt) := by
  cases hport : s.port with
  | nil =>
    obtain rfl := Host.Outcome.next.inj ((step_of_port_nil hport).symm.trans hstep)
    exact .inr ⟨rfl, ⟨rfl, rfl⟩, rfl⟩
  | cons e rest =>
    cases e with
    | command w =>
      obtain rfl := Host.Outcome.next.inj ((step_of_command_of_halted hport hhalt).symm.trans hstep)
      exact .inr ⟨rfl, ⟨rfl, rfl⟩, rfl⟩
    | reset =>
      obtain rfl := Host.Outcome.next.inj ((step_of_port_cons hport).symm.trans hstep)
      exact .inl ⟨⟨rest, .inl rfl⟩, State.halted_afterReset _⟩
    | resetDuring w =>
      obtain rfl := Host.Outcome.next.inj ((step_of_port_cons hport).symm.trans hstep)
      exact .inl ⟨⟨rest, .inr ⟨w, rfl⟩⟩, State.halted_afterReset _⟩
    | hostWrite a b =>
      obtain rfl := Host.Outcome.next.inj ((step_of_hostWrite hport).symm.trans hstep)
      exact .inr ⟨rfl, ⟨rfl, rfl⟩, rfl⟩

/-- Settles O42: whether the block is still halted tells the two cases of `step_cases_of_halted` apart. -/
theorem haltedBlockDiscardsEveryWord : Obligations.HaltedBlockDiscardsEveryWord := by
  unfold Obligations.HaltedBlockDiscardsEveryWord
  refine ⟨State.halted_iff, fun _ _ _ => step_of_command_of_halted, ?_, ?_⟩
  · intro s t hhalt hstep hrun
    rcases step_cases_of_halted hhalt hstep with ⟨hreset, -⟩ | ⟨hstatus, -⟩
    · exact hreset
    · have hkept : t.halted = s.halted := congrArg Status.halt hstatus
      simp [hkept, hhalt] at hrun
  · intro s t hhalt hstep hstill
    rcases step_cases_of_halted hhalt hstep with ⟨-, hrun⟩ | hkeeps
    · simp [hrun] at hstill
    · exact hkeeps

end Sys2Proof.Machine

/-! PROOFS. Reset, and the totality of the step: what a state right after reset reads as, what an abandoned
command leaves in memory, and that no event stops the machine. -/

namespace Sys2Proof.Machine

/-! ### The reset state (rules R26, R201) -/

theorem State.justReset_afterReset (s : State) : s.afterReset.JustReset := ⟨rfl, rfl, rfl, rfl⟩

theorem State.justReset_reset : State.reset.JustReset := ⟨rfl, rfl, rfl, rfl⟩

theorem State.JustReset.not_halted {s : State} (h : s.JustReset) : s.halted = false := by
  obtain ⟨hstatus, -⟩ := h
  exact congrArg Status.halt hstatus

/-- `STATUS` with its three stored bits clear reads zero: `HALT` is derived (rule R32). -/
theorem Status.word_clear : (⟨false, false, false⟩ : Status).word = 0#32 := by decide

/-- The four control registers that are not hardwired read zero after reset (rules R30, R201). -/
theorem State.JustReset.readControl_eq_zero {s : State} (h : s.JustReset) :
    ∀ n < 4, s.readControl n = 0#32 := by
  obtain ⟨hstatus, hword, haddr, hcount⟩ := h
  intro n hn
  interval_cases n
  · rw [State.readControl_zero, hstatus, Status.word_clear]
  · exact hword
  · exact haddr
  · exact hcount

/-- Settles O50: the reset state is one of the states right after reset, and those read as the table says. -/
theorem resetStateReadsAsTheTableSays : Obligations.ResetStateReadsAsTheTableSays :=
  have h := State.justReset_reset
  ⟨h, h.readControl_eq_zero, State.reset.readControl_cfg0, State.reset.readControl_cfg1, h.not_halted⟩

/-! ### The writes of an abandoned command (rules R56, R200, U2) -/

/-- What a command would write does not depend on the events that are still to come. -/
theorem commandCells_port (i : Instr) (s : State) (rest : List HostEvent) :
    commandCells i { s with port := rest } = commandCells i s := by
  cases i <;> rfl

/-- Only a legal word on a block that is not halted has writes, and they are its command's. -/
theorem mem_wordCells {w : Word} {s : State} {c : Host.Cell} :
    c ∈ wordCells w s ↔ ∃ i, s.halted = false ∧ decode w = some i ∧ c ∈ commandCells i s := by
  by_cases hhalt : s.halted = true
  · simp [wordCells, hhalt]
  · cases hdecode : decode w <;> simp [wordCells, hhalt, hdecode]

/-- Memory after a reset in the middle of a word: a byte reads as before, or at a valid address as one of the
abandoned command's writes says (log 13). -/
theorem read_storeSome_wordCells (w : Word) (s : State) (x : Nat) :
    (s.storeSome (wordCells w s)).mem.read x = s.mem.read x ∨ (s.memValid x = true ∧
      ∃ i, s.halted = false ∧ decode w = some i ∧
        ∃ c ∈ commandCells i s, c.1 = x ∧ (s.storeSome (wordCells w s)).mem.read x = c.2) := by
  refine (s.read_storeSome (wordCells w s) x).imp_right ?_
  rintro ⟨c, hc, hx, hvalid, hread⟩
  obtain ⟨i, hrun, hdecode, hcell⟩ := mem_wordCells.mp hc
  exact ⟨hvalid, i, hrun, hdecode, c, hcell, hx, hread⟩

theorem runEvent_reset (s : State) : runEvent .reset s = .next s.afterReset := by
  rw [runEvent]

theorem runEvent_resetDuring (w : Word) (s : State) :
    runEvent (.resetDuring w) s = .next (s.storeSome (wordCells w s)).afterReset := by
  rw [runEvent]

/-- Settles O49: both events end in `afterReset`, which keeps memory; before it only the abandoned writes were
made. -/
theorem resetEventsLeaveTheResetState : Obligations.ResetEventsLeaveTheResetState := by
  unfold Obligations.ResetEventsLeaveTheResetState
  refine ⟨fun s rest hport => ?_, fun s w rest hport => ?_⟩
  · have h := State.justReset_afterReset { s with port := rest }
    refine ⟨_, (step_of_port_cons hport).trans (runEvent_reset _), h, h.not_halted,
      h.readControl_eq_zero, State.readControl_cfg0 _, State.readControl_cfg1 _, ?_, ?_, ?_⟩
    · simp [KeepsMem]
    · rw [State.afterReset_backed]
    · rw [State.afterReset_port]
  · have h := State.justReset_afterReset
      (State.storeSome { s with port := rest } (wordCells w { s with port := rest }))
    refine ⟨_, (step_of_port_cons hport).trans (runEvent_resetDuring w _), h, h.not_halted,
      h.readControl_eq_zero, State.readControl_cfg0 _, State.readControl_cfg1 _, ?_, ?_, fun x => ?_⟩
    · rw [State.afterReset_backed, State.storeSome_backed]
    · rw [State.afterReset_port, State.storeSome_port]
    · have hread := read_storeSome_wordCells w { s with port := rest } x
      simp only [commandCells_port] at hread
      exact hread

/-! ### Every step answers (rules R37, R58, R212) -/

/-- A command touches neither the host's events nor the platform until it is counted. -/
theorem doneState_keepsOutside (i : Instr) (s : State) : KeepsOutside s (doneState i s) := by
  refine ⟨(doneState_keepsControl i s).backed, ?_⟩
  cases i with
  | extract => exact of_doneState_extract (Q := fun u => u.port = s.port) rfl fun _ _ => rfl
  | _ => simp [doneState]

/-- Every command answers a next state, counted or failed, and touches nothing outside the block. -/
theorem exec_next_keepsOutside (i : Instr) (s : State) : ∃ t, exec i s = .next t ∧ KeepsOutside s t := by
  rcases exec_cases i s with ⟨-, hdone⟩ | ⟨a, -, -, hfail⟩
  · exact ⟨_, hdone, doneState_keepsOutside i s⟩
  · exact ⟨_, hfail, (spoiltState_keepsControl i s).backed, spoiltState_port i s⟩

/-- So does every delivered word: discarded, illegal or executed (rules R181, R184). -/
theorem runCommand_next_keepsOutside (w : Word) (s : State) :
    ∃ t, runCommand w s = .next t ∧ KeepsOutside s t := by
  cases hhalt : s.halted with
  | true => exact ⟨s, runCommand_of_halted hhalt w, rfl, rfl⟩
  | false =>
    cases hdecode : decode w with
    | none => exact ⟨_, runCommand_of_decode_eq_none hhalt hdecode, rfl, rfl⟩
    | some i =>
      rw [runCommand_of_decode hhalt hdecode]
      exact exec_next_keepsOutside i s

/-- So does every event: the two resets and the host write answer by definition. -/
theorem runEvent_next_keepsOutside (e : HostEvent) (s : State) :
    ∃ t, runEvent e s = .next t ∧ KeepsOutside s t := by
  cases e with
  | command w => exact runCommand_next_keepsOutside w s
  | reset => exact ⟨_, runEvent_reset s, s.afterReset_backed, s.afterReset_port⟩
  | resetDuring w => exact ⟨_, runEvent_resetDuring w s, State.afterReset_backed _, State.afterReset_port _⟩
  | hostWrite a b =>
    refine ⟨_, rfl, ?_⟩
    split
    · exact ⟨State.store_backed _ _, State.store_port _ _⟩
    · exact ⟨rfl, rfl⟩

/-- Settles O46: an idle step has no event to take, any other runs one on the state without it. -/
theorem everyStepAnswersAndConsumesOneEvent : Obligations.EveryStepAnswersAndConsumesOneEvent := by
  unfold Obligations.EveryStepAnswersAndConsumesOneEvent
  intro s
  cases hport : s.port with
  | nil => exact ⟨s, step_of_port_nil hport, hport, rfl⟩
  | cons e rest =>
    obtain ⟨t, hrun, hbacked, hrest⟩ := runEvent_next_keepsOutside e { s with port := rest }
    exact ⟨t, (step_of_port_cons hport).trans hrun, hrest, hbacked⟩

end Sys2Proof.Machine
